-- ==== Sys2Proof/Word.lean ====
section
/-! DEFINITION. The word types of the FCS: bus bytes, flash addresses, host register words, command codes. -/

namespace Sys2Proof

/-- The bus transfer unit, BYTE_W = 8 bits (00_scope R8). -/
abbrev Byte := BitVec 8

/-- A FlashAddress, ADDR_W = 24 bits (00_scope R8, R14). -/
abbrev Addr := BitVec 24

/-- A host register word, HOST_W = 32 bits (00_scope R8). -/
abbrev Word := BitVec 32

/-- The CODE field of a CMD write (10_state R25). -/
abbrev Code := BitVec 4

end Sys2Proof
end

