-- ==== Sys2Proof/Syntax.lean ====
section
/-! DEFINITION. The instructions: one constructor for each row of spec/opcode_table.json. The first sixteen are the host
command codes (30_encoding R100), whose operands stand in registers, not in the word. The last twelve are the device's
frames (R102, R103), with every byte after the opcode byte as an operand. -/

namespace Sys2Proof

/-- An instruction: a host command (a CMD write) or a device frame (what stands between two edges of cs_n). -/
inductive Instr where
  /-- CODE 0x0, reserved (60_exceptions R254). -/
  | reserved
  /-- CODE 0x1 (41_data R150). -/
  | readByte
  /-- CODE 0x2 (41_data R153). -/
  | writeByte
  /-- CODE 0x3 (42_erase R165). -/
  | eraseChip
  /-- CODE 0x4 (42_erase R166). -/
  | eraseSector
  /-- CODE 0x5 (42_erase R167). -/
  | eraseBlock32
  /-- CODE 0x6 (42_erase R168). -/
  | eraseBlock64
  /-- CODE 0x7 (43_status_register R180). -/
  | readSr
  /-- CODE 0x8 (43_status_register R181). -/
  | writeSr
  /-- CODE 0x9 (43_status_register R182). -/
  | ewsr
  /-- CODE 0xA (43_status_register R183). -/
  | wren
  /-- CODE 0xB (43_status_register R184). -/
  | wrdi
  /-- CODE 0xC (44_identification R200). -/
  | readId
  /-- CODE 0xD (40_transport R137). -/
  | csAssert
  /-- CODE 0xE (40_transport R138). -/
  | csDeassert
  /-- CODE 0xF (40_transport R139). -/
  | xfer
  /-- Frame `03 A2 A1 A0 dummy` (45_device R230). -/
  | spiRead (a : Addr) (dummy : Byte)
  /-- Frame `02 A2 A1 A0 D` (45_device R226). -/
  | spiProgram (a : Addr) (d : Byte)
  /-- Frame `06` (45_device R225). -/
  | spiWren
  /-- Frame `04` (45_device R225). -/
  | spiWrdi
  /-- Frame `50` (45_device R224). -/
  | spiEwsr
  /-- Frame `01 D` (45_device R223). -/
  | spiWrsr (d : Byte)
  /-- Frame `05 dummy` (45_device R222). -/
  | spiRdsr (dummy : Byte)
  /-- Frame `90 zero0 zero1 S dummy` (45_device R228). -/
  | spiRdid (zero0 zero1 sel dummy : Byte)
  /-- Frame `20 A2 A1 A0` (45_device R227). -/
  | spiSectorErase (a : Addr)
  /-- Frame `52 A2 A1 A0` (45_device R227). -/
  | spiBlockErase32 (a : Addr)
  /-- Frame `D8 A2 A1 A0` (45_device R227). -/
  | spiBlockErase64 (a : Addr)
  /-- Frame `60` (45_device R231). -/
  | spiChipErase
  deriving DecidableEq, Repr

/-- The twelve device operations of 30_encoding R102. -/
inductive DevOp where
  | read | program | wren | wrdi | ewsr | wrsr | rdsr | rdid | sectorErase | blockErase32 | blockErase64 | chipErase
  deriving DecidableEq, Repr

/-- The two encodings of 30_encoding: a host command word, or the byte list of a chip-select frame. -/
inductive Encoding where
  | cmdWord (w : Word)
  | spiFrame (bs : List Byte)
  deriving DecidableEq, Repr

/-- Why a frame is no instruction (30_encoding R112, R113). -/
inductive DecodeError where
  /-- A frame of zero bytes: well-formed and without effect (R112, 45_device R234), so no instruction. -/
  | emptyFrame
  /-- The opcode is not one of the twelve of R102. -/
  | unknownOpcode
  /-- The length differs from the one R111 gives the opcode. -/
  | wrongLength
  deriving DecidableEq, Repr

end Sys2Proof
end

