-- ==== Sys2Proof/WellFormed.lean ====
section
/-! DEFINITION. Which instructions are in the form the FCS itself sends: the constant bytes of the frame formats of
30_encoding R103 and R106. A raw transport frame may carry other values in those places; the device ignores them
(R106, 45_device R228), so the machine runs such an instruction too. -/

namespace Sys2Proof

/-- DUMMY_BYTE, sent in every read phase (00_scope R8, 30_encoding R106). -/
def dummyByte : Byte := 0x00#8

/-- The constant bytes of the format hold their value (30_encoding R103, R106): the dummy byte of AR, R and ID, and the
two reserved zero bytes of ID. Every other operand may take every value. -/
def Instr.wellFormed : Instr → Bool
  | .reserved => true
  | .readByte => true
  | .writeByte => true
  | .eraseChip => true
  | .eraseSector => true
  | .eraseBlock32 => true
  | .eraseBlock64 => true
  | .readSr => true
  | .writeSr => true
  | .ewsr => true
  | .wren => true
  | .wrdi => true
  | .readId => true
  | .csAssert => true
  | .csDeassert => true
  | .xfer => true
  | .spiRead _ dummy => dummy == dummyByte
  | .spiProgram _ _ => true
  | .spiWren => true
  | .spiWrdi => true
  | .spiEwsr => true
  | .spiWrsr _ => true
  | .spiRdsr dummy => dummy == dummyByte
  | .spiRdid zero0 zero1 _ dummy => zero0 == 0x00#8 && zero1 == 0x00#8 && dummy == dummyByte
  | .spiSectorErase _ => true
  | .spiBlockErase32 _ => true
  | .spiBlockErase64 _ => true
  | .spiChipErase => true

end Sys2Proof
end

