-- ==== Sys2Proof/Decode.lean ====
section
/-! DEFINITION. Decoding of the two encodings of 30_encoding (host command words and SPI frames), total, and the encoder
written from the same tables. -/

namespace Sys2Proof

/-! ## Address framing (30_encoding R105, 00_scope R13) -/

/-- A2 = A[23:16]. -/
def addrA2 (a : Addr) : Byte := a.extractLsb' 16 8

/-- A1 = A[15:8]. -/
def addrA1 (a : Addr) : Byte := a.extractLsb' 8 8

/-- A0 = A[7:0]. -/
def addrA0 (a : Addr) : Byte := a.extractLsb' 0 8

/-- `a = {A2, A1, A0}`, most significant byte first (45_device R220). -/
def addrOf (a2 a1 a0 : Byte) : Addr := a2 ++ a1 ++ a0

/-! ## The opcode table of the device (30_encoding R102, R111) -/

/-- The opcode byte (R102). -/
def DevOp.code : DevOp → Byte
  | .read => 0x03#8
  | .program => 0x02#8
  | .wren => 0x06#8
  | .wrdi => 0x04#8
  | .ewsr => 0x50#8
  | .wrsr => 0x01#8
  | .rdsr => 0x05#8
  | .rdid => 0x90#8
  | .sectorErase => 0x20#8
  | .blockErase32 => 0x52#8
  | .blockErase64 => 0xD8#8
  | .chipErase => 0x60#8

/-- The frame's length in bytes, opcode included (R111). -/
def DevOp.length : DevOp → Nat
  | .wren => 1
  | .wrdi => 1
  | .ewsr => 1
  | .chipErase => 1
  | .rdsr => 2
  | .wrsr => 2
  | .sectorErase => 4
  | .blockErase32 => 4
  | .blockErase64 => 4
  | .read => 5
  | .program => 5
  | .rdid => 5

/-- Every device operation. -/
def devOps : List DevOp :=
  [.read, .program, .wren, .wrdi, .ewsr, .wrsr, .rdsr, .rdid, .sectorErase, .blockErase32, .blockErase64, .chipErase]

/-- The operation an opcode byte names, if it is one of the twelve. -/
def opOfByte (b : Byte) : Option DevOp := devOps.find? (fun o => o.code == b)

/-- The instruction an operation is with the bytes after its opcode (R103). -/
def DevOp.instr (o : DevOp) (xs : List Byte) : Instr :=
  let x := fun n => xs.getD n 0x00#8
  match o with
  | .read => .spiRead (addrOf (x 0) (x 1) (x 2)) (x 3)
  | .program => .spiProgram (addrOf (x 0) (x 1) (x 2)) (x 3)
  | .wren => .spiWren
  | .wrdi => .spiWrdi
  | .ewsr => .spiEwsr
  | .wrsr => .spiWrsr (x 0)
  | .rdsr => .spiRdsr (x 0)
  | .rdid => .spiRdid (x 0) (x 1) (x 2) (x 3)
  | .sectorErase => .spiSectorErase (addrOf (x 0) (x 1) (x 2))
  | .blockErase32 => .spiBlockErase32 (addrOf (x 0) (x 1) (x 2))
  | .blockErase64 => .spiBlockErase64 (addrOf (x 0) (x 1) (x 2))
  | .chipErase => .spiChipErase

/-- Decoding of a frame (30_encoding R103, R111 to R113). -/
def decodeFrame (bs : List Byte) : Except DecodeError Instr :=
  match bs with
  | [] => .error .emptyFrame
  | op :: xs =>
    match opOfByte op with
    | none => .error .unknownOpcode
    | some o => if xs.length + 1 = o.length then .ok (o.instr xs) else .error .wrongLength

/-- A frame the device model defines: of the exact length of its opcode, or of zero bytes (R112). -/
def frameWellFormed (bs : List Byte) : Bool :=
  match decodeFrame bs with
  | .ok _ => true
  | .error .emptyFrame => true
  | .error .unknownOpcode => false
  | .error .wrongLength => false

/-! ## The host command word (30_encoding R100) -/

/-- The command of each code, in the order of the codes (R100). -/
def cmdTable : List Instr :=
  [.reserved, .readByte, .writeByte, .eraseChip, .eraseSector, .eraseBlock32, .eraseBlock64, .readSr,
   .writeSr, .ewsr, .wren, .wrdi, .readId, .csAssert, .csDeassert, .xfer]

/-- The command a CODE names; every 4-bit value names one (R25, R100). -/
def decodeCode (code : Code) : Instr := cmdTable.getD code.toNat .reserved

/-- `CODE = h_wdata[3:0]`; bits 31:4 are ignored (R100, R109). -/
def cmdCode (w : Word) : Code := w.extractLsb' 0 4

/-- Decoding of a host command word. -/
def decodeCmd (w : Word) : Instr := decodeCode (cmdCode w)

/-- Decoding of either encoding. -/
def decode : Encoding → Except DecodeError Instr
  | .cmdWord w => .ok (decodeCmd w)
  | .spiFrame bs => decodeFrame bs

/-! ## The encoder -/

/-- The frame of an operation with an address (formats A, AR, AW of R103). -/
def addrFrame (o : DevOp) (a : Addr) (xs : List Byte) : List Byte := o.code :: addrA2 a :: addrA1 a :: addrA0 a :: xs

/-- The words of an instruction (R100, R103). -/
def encode : Instr → Encoding
  | .reserved => .cmdWord 0x0#32
  | .readByte => .cmdWord 0x1#32
  | .writeByte => .cmdWord 0x2#32
  | .eraseChip => .cmdWord 0x3#32
  | .eraseSector => .cmdWord 0x4#32
  | .eraseBlock32 => .cmdWord 0x5#32
  | .eraseBlock64 => .cmdWord 0x6#32
  | .readSr => .cmdWord 0x7#32
  | .writeSr => .cmdWord 0x8#32
  | .ewsr => .cmdWord 0x9#32
  | .wren => .cmdWord 0xA#32
  | .wrdi => .cmdWord 0xB#32
  | .readId => .cmdWord 0xC#32
  | .csAssert => .cmdWord 0xD#32
  | .csDeassert => .cmdWord 0xE#32
  | .xfer => .cmdWord 0xF#32
  | .spiRead a dummy => .spiFrame (addrFrame .read a [dummy])
  | .spiProgram a d => .spiFrame (addrFrame .program a [d])
  | .spiWren => .spiFrame [DevOp.wren.code]
  | .spiWrdi => .spiFrame [DevOp.wrdi.code]
  | .spiEwsr => .spiFrame [DevOp.ewsr.code]
  | .spiWrsr d => .spiFrame [DevOp.wrsr.code, d]
  | .spiRdsr dummy => .spiFrame [DevOp.rdsr.code, dummy]
  | .spiRdid zero0 zero1 sel dummy => .spiFrame [DevOp.rdid.code, zero0, zero1, sel, dummy]
  | .spiSectorErase a => .spiFrame (addrFrame .sectorErase a [])
  | .spiBlockErase32 a => .spiFrame (addrFrame .blockErase32 a [])
  | .spiBlockErase64 a => .spiFrame (addrFrame .blockErase64 a [])
  | .spiChipErase => .spiFrame [DevOp.chipErase.code]

/-! ## The opcode table's numbering of bits -/

/-- What a table row's bits are (log entry 9). A row of one byte is the opcode byte of a device frame, followed by zero
bytes up to the frame's length; a byte that is none of the twelve opcodes but fits in CODE, and every longer row, is a
host command word. -/
def tableEncoding (nbits w : Nat) : Encoding :=
  if nbits = 8 then
    match opOfByte (BitVec.ofNat 8 w) with
    | some o => .spiFrame (o.code :: List.replicate (o.length - 1) 0x00#8)
    | none => if w < 16 then .cmdWord (BitVec.ofNat 32 w) else .spiFrame [BitVec.ofNat 8 w]
  else .cmdWord (BitVec.ofNat 32 w)

/-- The instruction the decoder reads from a row of spec/opcode_table.json whose bits are `w`. -/
def decodeTableWord (nbits w : Nat) : Option Instr := (decode (tableEncoding nbits w)).toOption

end Sys2Proof
end

