-- ==== Sys2Proof/Config.lean ====
section
/-! DEFINITION. What an implementation fixes (the OPEN parameters of 00_scope R8) and the free values (what the spec
calls "any value" or a draw). Both are opaque: a claim about the machine holds for every value of them. Every operation
takes them as one argument of type `Env`, as R8 asks ("the model takes the parameter as an argument"); the machine
itself runs under `Config.env`. -/

namespace Sys2Proof

/-- ADDR_POLICY (00_scope R8, 45_device R220). -/
inductive AddrPolicy where
  | refuse | wrap
  deriving DecidableEq, Repr, Inhabited

/-- PROGRAM_MODE (00_scope R8, 45_device R226): the byte becomes `old AND d`, or `d`. -/
inductive ProgramMode where
  | andOld | replace
  deriving DecidableEq, Repr, Inhabited

/-- A time of `num / (denPred + 1)` seconds. -/
structure Duration where
  num : Nat
  denPred : Nat
  deriving DecidableEq, Repr, Inhabited

/-- The OPEN parameters of 00_scope R8, 60_exceptions R266 and 45_device R229. Each law the spec puts on a parameter is
met by the way it is held (log entry 7). -/
structure Params where
  /-- FLASH_SIZE = 2^flashLog bytes: a power of two, 1 <= FLASH_SIZE <= 2^24. -/
  flashLog : Fin 25
  /-- ADDR_POLICY. -/
  addrPolicy : AddrPolicy
  /-- SECTOR_SIZE = 2^sectorLog bytes: a power of two. -/
  sectorLog : Nat
  /-- F_CLK, in hertz. -/
  fClk : Nat
  /-- SCK_HALF - 1, so that SCK_HALF >= 1. -/
  sckHalfPred : Nat
  /-- CSH_CYCLES - 1, so that CSH_CYCLES >= 1. -/
  cshPred : Nat
  /-- T_CE. -/
  tCE : Duration
  /-- T_BE32. -/
  tBE32 : Duration
  /-- T_BE64. -/
  tBE64 : Duration
  /-- T_SE. -/
  tSE : Duration
  /-- T_BP. -/
  tBP : Duration
  /-- BUSY_BIT. -/
  busyBit : Fin 8
  /-- WEL_BIT = (BUSY_BIT + 1 + welGap) mod 8, so that WEL_BIT differs from BUSY_BIT. -/
  welGap : Fin 7
  /-- SR_WRITABLE_MASK. -/
  srWritable : Byte
  /-- WREN_ENABLES_WRSR. -/
  wrenEnablesWrsr : Bool
  /-- WRSR_CLEARS_WEL. -/
  wrsrClearsWel : Bool
  /-- PROGRAM_MODE. -/
  programMode : ProgramMode
  /-- MFR_ID. -/
  mfrId : Byte
  /-- DEV_ID. -/
  devId : Byte
  /-- SR_POWERUP. -/
  srPowerup : Byte
  /-- The block-protect predicate before its law is laid on it: `protectedAt` does that. -/
  protectedRaw : Byte → Nat → Bool
  /-- The chip-erase predicate before its law is laid on it: `protectedChip` does that. -/
  protectedChipRaw : Byte → Bool
  /-- KILL_ADDR, used by example programs only (20_memory R77): nothing in the block reads it. -/
  killAddr : Addr
  /-- FCS_BASE, the byte address of offset 0x00 on the host platform (60_exceptions R266). -/
  fcsBase : Nat
  deriving Inhabited

/-- The free values, each numbered by a counter of State that the step advances, or by an address. -/
structure Draws where
  /-- Draw n of a byte sampled from an undriven MISO, or of a response that is any value (40_transport R132). -/
  miso : Nat → Byte
  /-- Draw n of the clk cycles from a program or erase frame to its completion step (45_device R232); none: never. -/
  delay : Nat → Option Nat
  /-- Draw n of WEL after a protected program or erase (45_device R226, R227, R231). -/
  wel : Nat → Bool
  /-- The array byte at an address at the first power-up (70_reset R284). -/
  array : Nat → Byte
  /-- Power loss n, array byte at an address in the region of an operation then pending (70_reset R284). -/
  lost : Nat → Nat → Byte
  /-- Power loss n, what h_rdata carries in its cycle (70_reset R282). -/
  rdata : Nat → Word

/-- Parameters and free values together: the argument of every operation. -/
structure Env where
  p : Params
  d : Draws

/-- The implementation's parameters. -/
opaque Config.params : Params

/-- Free bytes on MISO (40_transport R132, 45_device R228, R233). -/
opaque Config.freeMiso : Nat → Byte

/-- Free completion delays (45_device R232). -/
opaque Config.freeDelay : Nat → Option Nat

/-- Free values of WEL (45_device R226, R227, R231). -/
opaque Config.freeWel : Nat → Bool

/-- Free array contents at the first power-up (70_reset R283, R284). -/
opaque Config.freeArray : Nat → Byte

/-- Free array contents left by a lost power supply (70_reset R284). -/
opaque Config.freeLost : Nat → Nat → Byte

/-- Free values of h_rdata in a cycle of a lost power supply (70_reset R282). -/
opaque Config.freeRdata : Nat → Word

/-- The free values as one record. -/
def Config.draws : Draws where
  miso := Config.freeMiso
  delay := Config.freeDelay
  wel := Config.freeWel
  array := Config.freeArray
  lost := Config.freeLost
  rdata := Config.freeRdata

/-- The environment the machine runs under. -/
def Config.env : Env where
  p := Config.params
  d := Config.draws

end Sys2Proof
end

