-- ==== Sys2Proof/Machine/State.lean ====
section
/-! DEFINITION. The state of the machine: the FCS's registers and internal state (10_state R22 to R37), the device's
state (R45), what the host will do on the register port, and the model's own counters. Plain data throughout. -/

namespace Sys2Proof.Machine

/-- STATUS.RESULT, all eight values of its three bits by name (60_exceptions R250). -/
inductive Result where
  | ok | deviceBusy | unknownCommand | illegalState | verifyFail
  /-- 5, BUS_TIMEOUT: reserved, never produced (R251). -/
  | busTimeout
  /-- 6, reserved, never produced (R251). -/
  | reserved6
  /-- 7, reserved, never produced (R251). -/
  | reserved7
  deriving DecidableEq, Repr

/-- The host registers (10_state R22 to R28). The reserved bits hold nothing (R29). BUSY is a view of the step state
(R37) and CS_ACTIVE a view of cs_n (R43). -/
structure HostRegs where
  /-- CTRL.AUTO_PRIME (R23). -/
  autoPrime : Bool
  /-- CTRL.IE (R23). -/
  ie : Bool
  /-- STATUS.DONE (R24). -/
  done : Bool
  /-- STATUS.OVR (R24). -/
  ovr : Bool
  /-- STATUS.RESULT (R24). -/
  result : Result
  /-- LAST_CODE, read at CMD (R44). -/
  lastCode : Code
  /-- ADDR (R26). -/
  addr : Addr
  /-- WDATA (R27). -/
  wdata : Byte
  /-- RDATA (R28). -/
  rdata : Byte
  deriving DecidableEq, Repr

/-- The transport state (10_state R31) and the receive holding cell (R32). -/
structure Bus where
  csN : Bool
  sck : Bool
  mosi : Bool
  txSh : Byte
  rxSh : Byte
  bitCtr : BitVec 3
  half : Bool
  divCtr : Nat
  gapCtr : Nat
  rxHold : Byte
  deriving DecidableEq, Repr

/-- An action of a command's list (10_state R35). -/
inductive Action where
  /-- FrameA(bs, c): one chip-select frame; the byte received at index c is saved in cap. -/
  | frame (bs : List Byte) (cap : Option Nat)
  /-- WaitA(n). -/
  | wait (n : Nat)
  /-- CsLowA. -/
  | csLow
  /-- CsHighA. -/
  | csHigh
  /-- XferA(b). -/
  | xfer (b : Byte)
  /-- CheckA. -/
  | check
  deriving DecidableEq, Repr

/-- The step state (10_state R37). -/
inductive StepState where
  | idle
  | run (k : Nat)
  | fin
  deriving DecidableEq, Repr

/-- Which part of the running action is under way. The model's own (log entry 3): R130 to R135 describe these parts,
and R31 names no register for them. -/
inductive Phase where
  /-- The action starts at the next edge. -/
  | start
  /-- A byte is being exchanged (R131). -/
  | shift
  /-- Chip-select hold: the last exchange is over and cs_n is still low (R133). -/
  | hold
  /-- Chip-select gap: cs_n is high again (R133). -/
  | gap
  /-- The idle wait (R135). -/
  | wait
  deriving DecidableEq, Repr

/-- The working latches (10_state R33). -/
structure Latches where
  code : Code
  addr : Addr
  data : Byte
  prime : Bool
  deriving DecidableEq, Repr

/-- The sequencer (10_state R33 to R37). -/
structure Sequencer where
  step : StepState
  seq : List Action
  w : Latches
  cap : Byte
  chk : Byte
  waitCtr : Nat
  /-- The model's own (log entry 3). -/
  phase : Phase
  /-- The index of the byte being exchanged: the model's own (log entry 3). -/
  byteIdx : Nat
  deriving DecidableEq, Repr

/-- The operation a completion step will apply (10_state R45). -/
inductive Pending where
  | program (a : Nat) (d : Byte)
  | erase (lo hi : Nat)
  deriving DecidableEq, Repr

/-- The device (10_state R45). `in_frame` is a view of cs_n. -/
structure Device where
  /-- The cells that differ from what an unlisted address reads as. -/
  array : List Host.Cell
  busy : Bool
  wel : Bool
  srOther : Byte
  ewsrArmed : Bool
  pending : Option Pending
  rx : List Byte
  /-- Clk cycles until the completion step is due; none: never. The model's own (log entry 5). -/
  left : Option Nat
  /-- The byte on MISO in the current or last exchange (45_device R235). The model's own (log entry 6). -/
  out : Byte
  /-- The MOSI bits of the byte being received (45_device R221). The model's own (log entry 3). -/
  sh : Byte
  deriving DecidableEq, Repr

/-- What the host does with the register port in one clk cycle (10_state R20, R21): h_sel = 0, a read, or a write. -/
inductive Access where
  | none
  | read (a : BitVec 3)
  | write (a : BitVec 3) (v : Word)
  deriving DecidableEq, Repr

/-- The inputs of one clk cycle. -/
structure Cycle where
  /-- The register port. -/
  acc : Access
  /-- rst_n (70_reset R280). -/
  rstN : Bool
  /-- Power has been lost and has returned, with reset held over this edge (60_exceptions R269, 70_reset R282, R284). -/
  power : Bool
  deriving DecidableEq, Repr

/-- How many free values of each kind have been drawn: the model's own (log entry 6). -/
structure FreeCount where
  miso : Nat
  delay : Nat
  wel : Nat
  power : Nat
  deriving DecidableEq, Repr

/-- The whole machine. -/
structure State where
  regs : HostRegs
  bus : Bus
  sq : Sequencer
  dev : Device
  /-- What the host does in the coming clk cycles, the next one first; past its end the host does nothing. The model's
  own (log entry 1). -/
  port : List Cycle
  /-- h_rdata in the last clk cycle (10_state R21). -/
  hRdata : Word
  /-- Rising clk edges so far: the model's own (log entry 4). -/
  now : Nat
  free : FreeCount
  deriving DecidableEq, Repr

/-- Why the machine stops with a fault. -/
inductive Fault where
  /-- The step state is RUN(k) and the action list has no action k. Raised by `clockEdge`. 10_state R37 excludes it, so
  no run reaches it. Safe. -/
  | stepOutOfRange
  deriving DecidableEq, Repr

/-- Why an instruction gets no meaning. -/
inductive Refusal where
  /-- An instruction the model does not have. Raised by no arm now. Safe. -/
  | notModelled (mnemonic : String)
  /-- The device model refuses a frame whose opcode is not one of the twelve (30_encoding R113). Raised by `deviceTurn`
  at the end of a raw frame, or of one that reset cut short (70_reset R280). Safe. -/
  | unknownOpcode
  /-- The device model refuses a frame of the wrong length for its opcode (30_encoding R113). Raised as above. Safe. -/
  | wrongLength
  /-- The device model refuses an address at or beyond FLASH_SIZE under ADDR_POLICY = REFUSE (45_device R220). Raised by
  the device's array instructions. Safe. -/
  | addressOutOfRange
  deriving DecidableEq, Repr

/-- The host registers after reset (10_state R47). -/
def HostRegs.reset : HostRegs where
  autoPrime := true
  ie := false
  done := false
  ovr := false
  result := .ok
  lastCode := 0x0#4
  addr := 0x000000#24
  wdata := 0x00#8
  rdata := 0x00#8

/-- The transport after reset (10_state R47). -/
def Bus.reset : Bus where
  csN := true
  sck := false
  mosi := false
  txSh := 0x00#8
  rxSh := 0x00#8
  bitCtr := 0#3
  half := false
  divCtr := 0
  gapCtr := 0
  rxHold := 0x00#8

/-- The sequencer after reset (10_state R47). -/
def Sequencer.reset : Sequencer where
  step := .idle
  seq := []
  w := { code := 0x0#4, addr := 0x000000#24, data := 0x00#8, prime := true }
  cap := 0x00#8
  chk := 0x00#8
  waitCtr := 0
  phase := .start
  byteIdx := 0

/-- The device at its first power-up (70_reset R284): no listed cell, so every byte is free. -/
def Device.powerUp (c : Env) : Device where
  array := []
  busy := false
  wel := false
  srOther := c.p.srPowerup
  ewsrArmed := false
  pending := none
  rx := []
  left := none
  out := 0x00#8
  sh := 0x00#8

/-- The machine right after reset, with the device just powered up ("A model may take them at the same point of a run",
70_reset R284), under a given environment. DESIGN CHOICE, unsafe (log entry 20): h_rdata of the cycle that ended at this
reset edge is 0; R47 lists no value for it and R282 calls it any value. -/
def State.resetIn (c : Env) : State where
  regs := .reset
  bus := .reset
  sq := .reset
  dev := .powerUp c
  port := []
  hRdata := 0x00000000#32
  now := 0
  free := { miso := 0, delay := 0, wel := 0, power := 0 }

/-- The machine right after reset. -/
def State.reset : State := State.resetIn Config.env

end Sys2Proof.Machine
end

