-- ==== Sys2Proof/Machine/Operands.lean ====
section
/-! DEFINITION. Values computed from the parameters and from operands: the cycle counts of 00_scope R8 and 40_transport
R134, device addresses and regions (45_device R220, R227), block protection (R229) and the frame bytes of 30_encoding
R103. -/

namespace Sys2Proof.Machine

/-! ## Parameters (00_scope R8) -/

/-- FLASH_SIZE. -/
def flashSize (c : Env) : Nat := 2 ^ c.p.flashLog.val

/-- SECTOR_SIZE. -/
def sectorSize (c : Env) : Nat := 2 ^ c.p.sectorLog

/-- BLOCK32_SIZE. -/
def block32Size : Nat := 32768

/-- BLOCK64_SIZE. -/
def block64Size : Nat := 65536

/-- SCK_HALF, H in 40_transport. -/
def sckHalf (c : Env) : Nat := c.p.sckHalfPred + 1

/-- CSH_CYCLES, C in 40_transport. -/
def cshCycles (c : Env) : Nat := c.p.cshPred + 1

/-- `W = ceil(T * F_CLK)`, with F_CLK in hertz (00_scope R8). -/
def waitCycles (c : Env) (t : Duration) : Nat := (t.num * c.p.fClk + t.denPred) / (t.denPred + 1)

/-- W_CE. -/
def waitCE (c : Env) : Nat := waitCycles c c.p.tCE

/-- W_BE32. -/
def waitBE32 (c : Env) : Nat := waitCycles c c.p.tBE32

/-- W_BE64. -/
def waitBE64 (c : Env) : Nat := waitCycles c c.p.tBE64

/-- W_SE. -/
def waitSE (c : Env) : Nat := waitCycles c c.p.tSE

/-- W_BP. -/
def waitBP (c : Env) : Nat := waitCycles c c.p.tBP

/-- The duration of one exchange, 16H cycles (40_transport R131). -/
def exchangeCycles (c : Env) : Nat := 16 * sckHalf c

/-- The cycles a frame of n bytes keeps cs_n low, 16nH + H (40_transport R134). -/
def lowCycles (c : Env) (n : Nat) : Nat := 16 * n * sckHalf c + sckHalf c

/-- `Dframe(n) = 16nH + H + C` (40_transport R134). -/
def frameCycles (c : Env) (n : Nat) : Nat := lowCycles c n + cshCycles c

/-- The byte address of register word `a` on the host platform (10_state R20, 60_exceptions R266). -/
def regAddress (c : Env) (a : BitVec 3) : Nat := c.p.fcsBase + 4 * a.toNat

/-! ## The device's status register (10_state R46) -/

/-- WEL_BIT. -/
def welBit (c : Env) : Nat := (c.p.busyBit.val + 1 + c.p.welGap.val) % 8

/-- The byte with BUSY_BIT set. -/
def busyMask (c : Env) : Byte := 1#8 <<< c.p.busyBit.val

/-- The byte with WEL_BIT set. -/
def welMask (c : Env) : Byte := 1#8 <<< welBit c

/-- dev.SR: BUSY and WEL in their places, dev.sr_other elsewhere (R46). -/
def srByte (c : Env) (v : Device) : Byte :=
  (v.srOther &&& ~~~(busyMask c ||| welMask c)) |||
    (if v.busy then busyMask c else 0x00#8) ||| (if v.wel then welMask c else 0x00#8)

/-- The busy verdict `b[BUSY_BIT]` of a status byte (41_data R152). -/
def busyVerdict (c : Env) (b : Byte) : Bool := b.getLsbD c.p.busyBit.val

/-- `M`: SR_WRITABLE_MASK with BUSY_BIT and WEL_BIT forced to 0 (45_device R223). -/
def writableMask (c : Env) : Byte := c.p.srWritable &&& ~~~(busyMask c ||| welMask c)

/-! ## Device addresses, regions and protection -/

/-- The array address a 24-bit address stands for, or none where the device refuses it (45_device R220). Address 0 lies
in every device, since FLASH_SIZE >= 1: that test comes first, so that it needs no value of FLASH_SIZE. -/
def locate (c : Env) (a : Addr) : Option Nat :=
  if a = 0x000000#24 ∨ a.toNat < flashSize c then some a.toNat
  else
    match c.p.addrPolicy with
    | .wrap => some (a.toNat % flashSize c)
    | .refuse => none

/-- `lo = a - (a mod E)` (45_device R227). -/
def regionBase (e a : Nat) : Nat := a - a % e

/-- `protected(sr, a)`. Its law (45_device R229): with every writable bit 0 it is false. -/
def protectedAt (c : Env) (sr : Byte) (a : Nat) : Bool :=
  sr &&& writableMask c != 0x00#8 && c.p.protectedRaw sr a

/-- `protected_chip(sr)`, with the same law (45_device R229). -/
def protectedChip (c : Env) (sr : Byte) : Bool :=
  sr &&& writableMask c != 0x00#8 && c.p.protectedChipRaw sr

/-- Some address of `[lo, lo + e)` is protected (45_device R227). -/
def protectedRegion (c : Env) (sr : Byte) (lo e : Nat) : Bool :=
  (List.range' lo e).any (protectedAt c sr)

/-- The identification byte of a selector; none where the response is any value (45_device R228). -/
def idByte (c : Env) (sel : Byte) : Option Byte :=
  if sel = 0x00#8 then some c.p.mfrId
  else if sel = 0x01#8 then some c.p.devId
  else none

/-! ## The frames the FCS sends (30_encoding R103) -/

/-- Format N. -/
def frameN (o : DevOp) : List Byte := [o.code]

/-- Format A. -/
def frameA (o : DevOp) (a : Addr) : List Byte := addrFrame o a []

/-- Format AR. -/
def frameAR (o : DevOp) (a : Addr) : List Byte := addrFrame o a [dummyByte]

/-- Format AW. -/
def frameAW (o : DevOp) (a : Addr) (d : Byte) : List Byte := addrFrame o a [d]

/-- Format R. -/
def frameR (o : DevOp) : List Byte := [o.code, dummyByte]

/-- Format W. -/
def frameW (o : DevOp) (d : Byte) : List Byte := [o.code, d]

/-- Format ID. -/
def frameID (o : DevOp) (sel : Byte) : List Byte := [o.code, 0x00#8, 0x00#8, sel, dummyByte]

/-! ## Actions (10_state R35) -/

/-- The bytes an action sends, one exchange each. -/
def Action.bytes : Action → List Byte
  | .frame bs _ => bs
  | .wait _ => []
  | .csLow => []
  | .csHigh => []
  | .xfer b => [b]
  | .check => frameR .rdsr

/-- The index of the received byte an action saves in cap (R35, R36). -/
def Action.capIdx : Action → Option Nat
  | .frame _ c => c
  | .wait _ => none
  | .csLow => none
  | .csHigh => none
  | .xfer _ => some 0
  | .check => none

/-- The index of the received byte an action saves in chk (41_data R152). -/
def Action.chkIdx : Action → Option Nat
  | .frame _ _ => none
  | .wait _ => none
  | .csLow => none
  | .csHigh => none
  | .xfer _ => none
  | .check => some 1

/-- An action's duration in clk cycles (40_transport R130 to R139). -/
def Action.cycles (c : Env) : Action → Nat
  | .frame bs _ => frameCycles c bs.length
  | .wait n => n
  | .csLow => 0
  | .csHigh => cshCycles c
  | .xfer _ => exchangeCycles c
  | .check => frameCycles c 2

end Sys2Proof.Machine
end

