-- ==== Sys2Proof/Machine/Flags.lean ====
section
/-! DEFINITION. The host's views of the flags: the register words (10_state R22 to R28), the interrupt (60_exceptions
R262), and what a command publishes (R250 to R258, 30_encoding R108). -/

namespace Sys2Proof.Machine

/-! ## Views of the state -/

/-- STATUS.BUSY: `step = IDLE` exactly when it is 0 (10_state R37). -/
def State.busy (s : State) : Bool := s.sq.step != .idle

/-- STATUS.CS_ACTIVE (10_state R43). -/
def State.csActive (s : State) : Bool := !s.bus.csN

/-- dev.in_frame: "cs_n is low" (10_state R45). -/
def State.inFrame (s : State) : Bool := !s.bus.csN

/-- irq = CTRL.IE AND STATUS.DONE (60_exceptions R262). -/
def State.irq (s : State) : Bool := s.regs.ie && s.regs.done

/-- miso: bit i of the byte the device drives, in the cycles of bit i (45_device R235). -/
def State.miso (s : State) : Bool := s.dev.out.getLsbD s.bus.bitCtr.toNat

/-! ## Register words -/

/-- The code of a RESULT (60_exceptions R250). -/
def Result.code : Result → BitVec 3
  | .ok => 0#3
  | .deviceBusy => 1#3
  | .unknownCommand => 2#3
  | .illegalState => 3#3
  | .verifyFail => 4#3
  | .busTimeout => 5#3
  | .reserved6 => 6#3
  | .reserved7 => 7#3

/-- CTRL as the host reads it (10_state R23): bits 31:2 read 0. -/
def ctrlWord (s : State) : Word :=
  0#30 ++ BitVec.ofBool s.regs.ie ++ BitVec.ofBool s.regs.autoPrime

/-- STATUS as the host reads it (10_state R24): bits 7:4 and 31:11 read 0. -/
def statusWord (s : State) : Word :=
  0#21 ++ s.regs.result.code ++ 0#4 ++ BitVec.ofBool s.csActive ++ BitVec.ofBool s.regs.ovr ++
    BitVec.ofBool s.regs.done ++ BitVec.ofBool s.busy

/-- A register word as the host reads it, by h_addr (10_state R22 to R29, R44). A read changes nothing (R21). -/
def readReg (a : BitVec 3) (s : State) : Word :=
  if a = 0#3 then ctrlWord s
  else if a = 1#3 then statusWord s
  else if a = 2#3 then s.regs.lastCode.zeroExtend 32
  else if a = 3#3 then s.regs.addr.zeroExtend 32
  else if a = 4#3 then s.regs.wdata.zeroExtend 32
  else if a = 5#3 then s.regs.rdata.zeroExtend 32
  else 0x00000000#32

/-! ## What a command publishes -/

/-- How a command's RESULT and RDATA are chosen at publish. -/
inductive PubRule where
  /-- OK, RDATA unchanged. -/
  | okKeep
  /-- OK, RDATA <- cap. -/
  | okCap
  /-- DEVICE_BUSY or OK from chk, RDATA <- chk (42_erase R169). -/
  | erase
  /-- DEVICE_BUSY, OK or VERIFY_FAIL, RDATA <- cap (41_data R153). -/
  | verify
  /-- UNKNOWN_COMMAND, RDATA unchanged (60_exceptions R254). -/
  | unknown
  /-- ILLEGAL_STATE, RDATA unchanged (60_exceptions R255). -/
  | illegal
  deriving DecidableEq, Repr

/-- A high-level command whose list is empty was accepted with cs_n = 0 (60_exceptions R255). -/
def highLevelRule (seq : List Action) (r : PubRule) : PubRule := if seq.isEmpty then .illegal else r

/-- The publish rule of a command (30_encoding R108, 60_exceptions R250). A device frame is no command and never
stands in w_code (30_encoding R100). -/
def pubRule (i : Instr) (seq : List Action) : PubRule :=
  match i with
  | .reserved => .unknown
  | .readByte => highLevelRule seq .okCap
  | .writeByte => highLevelRule seq .verify
  | .eraseChip => highLevelRule seq .erase
  | .eraseSector => highLevelRule seq .erase
  | .eraseBlock32 => highLevelRule seq .erase
  | .eraseBlock64 => highLevelRule seq .erase
  | .readSr => highLevelRule seq .okCap
  | .writeSr => highLevelRule seq .okKeep
  | .ewsr => highLevelRule seq .okKeep
  | .wren => highLevelRule seq .okKeep
  | .wrdi => highLevelRule seq .okKeep
  | .readId => highLevelRule seq .okCap
  | .csAssert => .okKeep
  | .csDeassert => .okKeep
  | .xfer => .okCap
  | .spiRead _ _ => .okKeep
  | .spiProgram _ _ => .okKeep
  | .spiWren => .okKeep
  | .spiWrdi => .okKeep
  | .spiEwsr => .okKeep
  | .spiWrsr _ => .okKeep
  | .spiRdsr _ => .okKeep
  | .spiRdid _ _ _ _ => .okKeep
  | .spiSectorErase _ => .okKeep
  | .spiBlockErase32 _ => .okKeep
  | .spiBlockErase64 _ => .okKeep
  | .spiChipErase => .okKeep

/-- The RESULT a publish rule gives, in the priority of 60_exceptions R258.1. -/
def pubResult (c : Env) (q : Sequencer) : PubRule → Result
  | .okKeep => .ok
  | .okCap => .ok
  | .erase => if busyVerdict c q.chk then .deviceBusy else .ok
  | .verify => if busyVerdict c q.chk then .deviceBusy else if q.cap = q.w.data then .ok else .verifyFail
  | .unknown => .unknownCommand
  | .illegal => .illegalState

/-- RDATA after publish (30_encoding R108). -/
def pubRdata (q : Sequencer) (old : Byte) : PubRule → Byte
  | .okKeep => old
  | .okCap => q.cap
  | .erase => q.chk
  | .verify => q.cap
  | .unknown => old
  | .illegal => old

end Sys2Proof.Machine
end

