-- ==== Sys2Proof/Machine/Ops.lean ====
section
/-! DEFINITION. The named operations over the state: memory, free values, host registers, the life cycle of a command
(accept, overrun, publish), chip-select edges, byte exchange, elapsing time, completion, reset and loss of power.

The FCS takes no traps (60_exceptions R260): what a processor's exception entry records, `publish` records, and it is the
one operation that does. There is no return (R261). -/

namespace Sys2Proof.Machine

/-- Go on with the next state, if there is one. -/
def andThen (o : Host.Outcome State Fault Refusal) (f : State → Host.Outcome State Fault Refusal) :
    Host.Outcome State Fault Refusal :=
  match o with
  | .next s => f s
  | .fault r => .fault r
  | .refused r => .refused r

/-! ## Memory: the device's array (20_memory R70)

`base a` is what an unlisted address `a` reads as: `c.d.array a`, any value at the first power-up (70_reset R284). -/

/-- One byte of the array. -/
def Memory.read (base : Nat → Byte) : List Host.Cell → Nat → Byte
  | [], a => base a
  | (b, v) :: m, a => if b = a then v else Memory.read base m a

/-- Set one byte, keeping the canonical form. -/
def Memory.write (base : Nat → Byte) : List Host.Cell → Nat → Byte → List Host.Cell
  | [], a, v => if v = base a then [] else [(a, v)]
  | (b, w) :: m, a, v =>
    if a < b then (if v = base a then (b, w) :: m else (a, v) :: (b, w) :: m)
    else if a = b then (if v = base a then m else (a, v) :: m)
    else (b, w) :: Memory.write base m a v

/-- The cells of `[lo, lo + n)` when each address x holds `g x`. -/
def Memory.cells (base g : Nat → Byte) (lo n : Nat) : List Host.Cell :=
  (List.range' lo n).filterMap (fun x => if g x = base x then none else some (x, g x))

/-- Set every byte x of `[lo, hi)` to `g x`, keeping the canonical form. -/
def Memory.fill (base g : Nat → Byte) (m : List Host.Cell) (lo hi : Nat) : List Host.Cell :=
  m.filter (fun p => decide (p.1 < lo)) ++ Memory.cells base g lo (hi - lo) ++
    m.filter (fun p => decide (lo ≤ p.1) && decide (hi ≤ p.1))

/-- The canonical form: addresses strictly rising, no entry equal to what an unlisted address reads as. -/
abbrev Memory.wf (base : Nat → Byte) (m : List Host.Cell) : Prop :=
  m.Pairwise (fun p q => p.1 < q.1) ∧ ∀ p ∈ m, p.2 ≠ base p.1

/-! ## Free values -/

/-- Put a byte on MISO: a response a rule defines, or a free value where none does (40_transport R132). -/
def drive (c : Env) (r : Option Byte) (s : State) : State :=
  { s with
    dev := { s.dev with out := r.getD (c.d.miso s.free.miso) }
    free := { s.free with miso := if r.isSome then s.free.miso else s.free.miso + 1 } }

/-- WEL becomes any value (45_device R226, R227, R231). -/
def freeWel (c : Env) (s : State) : State :=
  { s with
    dev := { s.dev with wel := c.d.wel s.free.wel }
    free := { s.free with wel := s.free.wel + 1 } }

/-! ## The completion step and elapsing time (45_device R232) -/

/-- A byte of the array after its program (45_device R226). -/
def programmed (c : Env) (old d : Byte) : Byte :=
  match c.p.programMode with
  | .replace => d
  | .andOld => old &&& d

/-- The array after the pending operation (45_device R232). -/
def applyPending (c : Env) (m : List Host.Cell) : Option Pending → List Host.Cell
  | none => m
  | some (.program a d) => Memory.write c.d.array m a (programmed c (Memory.read c.d.array m a) d)
  | some (.erase lo hi) => Memory.fill c.d.array (fun _ => 0xFF#8) m lo hi

/-- *complete* (45_device R232). -/
def complete (c : Env) (v : Device) : Device :=
  { v with array := applyPending c v.array v.pending, pending := none, busy := false, wel := false, left := none }

/-- The completion step falls due within n clk edges before each of which cs_n stands as `csN`: within a frame it is not
taken, and one held up there is `completeHeld`'s (45_device R232). -/
def completionDue (csN : Bool) (n : Nat) (v : Device) : Bool :=
  v.busy && csN && decide (0 < n) && v.left.any (fun k => decide (k ≤ n))

/-- The device over n clk edges before each of which cs_n stands as `csN`. The bytes of an open frame stay as they are. -/
def elapseDev (c : Env) (csN : Bool) (n : Nat) (v : Device) : Device :=
  { (if completionDue csN n v then complete c v else { v with left := v.left.map (fun k => k - n) }) with rx := v.rx }

/-- The completion step of an operation held up to this edge, the rising cs_n edge of a frame, after the frame's own rule:
one that fell due while cs_n = 0, or one the frame has started with a delay of 0 cycles (45_device R232). -/
def completeHeld (c : Env) (v : Device) : Device :=
  if v.busy = true ∧ v.left = some 0 then complete c v else v

/-- `completeHeld` on the machine's device. -/
def releaseHeld (c : Env) (s : State) : State := { s with dev := completeHeld c s.dev }

/-- n clk edges pass with cs_n unchanged. -/
def elapse (c : Env) (n : Nat) (s : State) : State :=
  { s with dev := elapseDev c s.bus.csN n s.dev, now := s.now + n }

/-! ## Chip select and byte exchange -/

/-- cs_n falls and a device frame opens (45_device R221). -/
def csFall (s : State) : State :=
  { s with bus := { s.bus with csN := false }, dev := { s.dev with rx := [] } }

/-- cs_n rises: the bytes in dev.rx are now an ended frame, on which the device acts next, at this same edge (45_device
R221); an operation held up by that frame completes after it. A frame of no bytes has no rule to wait for (R234). -/
def csRise (c : Env) (s : State) : State :=
  { s with
    bus := { s.bus with csN := true }
    dev := if s.dev.rx.isEmpty then completeHeld c s.dev else s.dev }

/-- The device has an ended frame to act on. -/
def turnDue (s : State) : Bool := s.bus.csN && !s.dev.rx.isEmpty

/-- The device takes the ended frame: `dev.rx <- []` (45_device R221). -/
def takeFrame (s : State) : State :=
  { s with dev := { s.dev with rx := [] } }

/-- The response a rule defines for the next byte of the open frame, given the bytes received so far: RDSR byte 1, READ
byte 4, RDID byte 4 (45_device R222, R228, R230, R233, R235). Every other byte is undriven. -/
def response (c : Env) (v : Device) : Option Byte :=
  match v.rx with
  | [op] => if op = DevOp.rdsr.code then some (srByte c v) else none
  | [op, x, y, z] =>
    if v.busy then none
    else if op = DevOp.read.code then (locate c (addrOf x y z)).map (Memory.read c.d.array v.array)
    else if op = DevOp.rdid.code then idByte c z
    else none
  | _ => none

/-- What stands on MISO for the next byte: with cs_n = 1 nothing drives it (45_device R236). -/
def answer (c : Env) (s : State) : State :=
  drive c (if s.bus.csN then none else response c s.dev) s

/-- The device receives a byte, if it is selected (45_device R221, R236). -/
def receive (b : Byte) (s : State) : State :=
  if s.bus.csN then s else { s with dev := { s.dev with sh := b, rx := s.dev.rx ++ [b] } }

/-- Exchange(b) at transaction level (40_transport R131): the byte goes out, and the byte the device drives stands in
rx_hold, with the shift registers and the line as the last edge of the schedule leaves them (tx_sh: log entry 3). -/
def exchange (c : Env) (b : Byte) (s : State) : State :=
  let s := answer c s
  receive b
    { s with bus :=
      { s.bus with
        sck := false
        mosi := b.getLsbD 0
        txSh := b <<< 7
        rxSh := s.dev.out
        rxHold := s.dev.out
        bitCtr := 0#3
        half := false
        divCtr := 0 } }

/-- Save the byte in rx_hold as action `a` asks for its byte of index `j` (10_state R32, R36). -/
def storeByte (a : Action) (j : Nat) (s : State) : State :=
  if a.capIdx = some j then { s with sq := { s.sq with cap := s.bus.rxHold } }
  else if a.chkIdx = some j then { s with sq := { s.sq with chk := s.bus.rxHold } }
  else s

/-- The exchanges of an action, from its byte of index `j` on. -/
def exchangeAll (c : Env) (a : Action) : Nat → List Byte → State → State
  | _, [], s => s
  | j, b :: bs, s => exchangeAll c a (j + 1) bs (storeByte a j (exchange c b s))

/-! ## The life cycle of a command (10_state R38 to R42) -/

/-- The operands a CMD write would latch now (R33, R38). -/
def latch (code : Code) (s : State) : Latches where
  code := code
  addr := s.regs.addr
  data := s.regs.wdata
  prime := s.regs.autoPrime

/-- Accept (R38): the operands are latched, the list is fixed, BUSY rises and DONE falls. `seqOf` is the command's list
as a function of the latches and of cs_n. -/
def accept (code : Code) (seqOf : Latches → Bool → List Action) (s : State) : State :=
  let w := latch code s
  let q := seqOf w s.bus.csN
  { s with
    regs := { s.regs with lastCode := code, done := false }
    sq := { s.sq with
      w := w
      seq := q
      step := if q.isEmpty then .fin else .run 0
      phase := .start
      byteIdx := 0 } }

/-- Overrun (R41): the CMD write is dropped and OVR is set. -/
def overrun (s : State) : State :=
  { s with regs := { s.regs with ovr := true } }

/-- Publish (R40): RESULT, RDATA, BUSY and DONE at one edge. -/
def publish (c : Env) (s : State) : State :=
  let r := pubRule (decodeCode s.sq.w.code) s.sq.seq
  { s with
    regs := { s.regs with
      result := pubResult c s.sq r
      rdata := pubRdata s.sq s.regs.rdata r
      done := true }
    sq := { s.sq with step := .idle, phase := .start, byteIdx := 0 } }

/-! ## Host register writes (10_state R23 to R29, R42) -/

/-- A write to CTRL (R23). -/
def writeCtrl (v : Word) (s : State) : State :=
  { s with regs := { s.regs with autoPrime := v.getLsbD 0, ie := v.getLsbD 1 } }

/-- A write to STATUS (R42), before a publish at the same edge, whose set of DONE then wins. -/
def writeStatus (v : Word) (s : State) : State :=
  { s with regs := { s.regs with
      done := if v.getLsbD 1 then false else s.regs.done
      ovr := if v.getLsbD 2 then false else s.regs.ovr } }

/-- A write to ADDR (R26). -/
def writeAddr (v : Word) (s : State) : State :=
  { s with regs := { s.regs with addr := v.extractLsb' 0 24 } }

/-- A write to WDATA (R27). -/
def writeWdata (v : Word) (s : State) : State :=
  { s with regs := { s.regs with wdata := v.extractLsb' 0 8 } }

/-! ## Reset and loss of power -/

/-- rst_n = 0 at an edge (70_reset R280): every FCS element takes its reset value, and the device is not touched. Where a
frame was open, `csRise` has ended it. -/
def fcsReset (s : State) : State :=
  { s with regs := .reset, bus := .reset, sq := .reset }

/-- The array after power is lost: persistent, but any value in the region of a pending operation (70_reset R284). -/
def lostArray (c : Env) (n : Nat) (m : List Host.Cell) : Option Pending → List Host.Cell
  | none => m
  | some (.program a _) => Memory.write c.d.array m a (c.d.lost n a)
  | some (.erase lo hi) => Memory.fill c.d.array (c.d.lost n) m lo hi

/-- Power is lost and returns: the device powers up, keeping its array (R284, 60_exceptions R269), and the FCS is held in
reset over this edge (R282). Until that edge every output is any value (R282), so h_rdata of the cycle is a free value,
whatever access the host makes in it (log entry 20). -/
def powerCycle (c : Env) (s : State) : State :=
  { s with
    regs := .reset
    bus := .reset
    sq := .reset
    dev := { Device.powerUp c with array := lostArray c s.free.power s.dev.array s.dev.pending }
    hRdata := c.d.rdata s.free.power
    now := s.now + 1
    free := { s.free with power := s.free.power + 1 } }

end Sys2Proof.Machine
end

