-- ==== Sys2Proof/Machine/Device.lean ====
section
/-! DEFINITION. The device's act at the end of a frame (45_device R221 to R236): one meaning for each device row of the
opcode table. Each leaves on MISO the response to the frame's last byte, which is the byte a rule defines, or a free
value (R235, log entry 6). The state it sees is the state at the frame: no completion falls
inside one, and one held up comes after the act (R232). -/

namespace Sys2Proof.Machine

/-- The end of a frame: EWSR arming holds after an EWSR frame taken while not busy, and after no other (45_device
R224, last line of R221). -/
def endFrame (armed : Bool) (s : State) : State :=
  { s with dev := { s.dev with ewsrArmed := armed } }

/-- A frame other than RDSR taken while busy: ignored, and its response is any value (45_device R233). -/
def ignoreFrame (c : Env) (s : State) : State := endFrame false (drive c none s)

/-- A frame other than RDSR: ignored while busy, else `f` (45_device R221, R233). -/
def whenIdle (c : Env) (f : State → State) (s : State) : State :=
  if s.dev.busy then ignoreFrame c s else f s

/-- Start an operation: the completion step is pending, after a free delay (45_device R226, R232). -/
def startOp (c : Env) (p : Pending) (s : State) : State :=
  { s with
    dev := { s.dev with pending := some p, busy := true, left := c.d.delay s.free.delay }
    free := { s.free with delay := s.free.delay + 1 } }

/-- A program or erase on an idle device (45_device R226, R227, R231): without WEL no effect; protected, WEL becomes any
value; else the operation starts. -/
def arrayOp (c : Env) (prot : Bool) (p : Pending) (s : State) : State :=
  if s.dev.wel then
    if prot then freeWel c s else startOp c p s
  else s

/-- A frame that carries an address (45_device R220): on a busy device it is ignored whatever the address (R221 tests
busy before the rule that decodes the address); on an idle one an address the device does not have is refused. -/
def addressed (c : Env) (a : Addr) (f : Nat → State → State) (s : State) : Host.Outcome State Fault Refusal :=
  match locate c a with
  | some x => .next (whenIdle c (f x) s)
  | none => if s.dev.busy then .next (ignoreFrame c s) else .refused .addressOutOfRange

/-- The erase of the region of size `e` that contains array address `x` (45_device R227). -/
def eraseRegion (c : Env) (e x : Nat) (s : State) : State :=
  let lo := regionBase e x
  arrayOp c (protectedRegion c (srByte c s.dev) lo e) (.erase lo (min (lo + e) (flashSize c))) s

/-- The act on a sector or block erase frame (45_device R227). -/
def eraseFrame (c : Env) (e : Nat) (a : Addr) (s : State) : Host.Outcome State Fault Refusal :=
  addressed c a (fun x s => endFrame false (eraseRegion c e x (drive c none s))) s

/-- WRSR on an idle device (45_device R223). -/
def writeSrOther (c : Env) (d : Byte) (s : State) : State :=
  if s.dev.ewsrArmed || (c.p.wrenEnablesWrsr && s.dev.wel) then
    { s with dev := { s.dev with
        srOther := (s.dev.srOther &&& ~~~(writableMask c)) ||| (d &&& writableMask c)
        wel := if c.p.wrsrClearsWel then false else s.dev.wel } }
  else s

/-- WREN or WRDI on an idle device (45_device R225). -/
def setWel (b : Bool) (s : State) : State :=
  { s with dev := { s.dev with wel := b } }

/-! ## The twelve frames, in any environment -/

/-- READ, 0x03 (45_device R230): the response to byte 4 is the array byte. -/
def devRead (c : Env) (a : Addr) (s : State) : Host.Outcome State Fault Refusal :=
  addressed c a (fun x s => endFrame false (drive c (some (Memory.read c.d.array s.dev.array x)) s)) s

/-- PROGRAM, 0x02 (45_device R226). -/
def devProgram (c : Env) (a : Addr) (d : Byte) (s : State) : Host.Outcome State Fault Refusal :=
  addressed c a (fun x s => endFrame false
    (arrayOp c (protectedAt c (srByte c s.dev) x) (.program x d) (drive c none s))) s

/-- WREN, 0x06 (45_device R225). -/
def devWren (c : Env) (s : State) : Host.Outcome State Fault Refusal :=
  .next (whenIdle c (fun s => endFrame false (setWel true (drive c none s))) s)

/-- WRDI, 0x04 (45_device R225). -/
def devWrdi (c : Env) (s : State) : Host.Outcome State Fault Refusal :=
  .next (whenIdle c (fun s => endFrame false (setWel false (drive c none s))) s)

/-- EWSR, 0x50 (45_device R224). -/
def devEwsr (c : Env) (s : State) : Host.Outcome State Fault Refusal :=
  .next (whenIdle c (fun s => endFrame true (drive c none s)) s)

/-- WRSR, 0x01 (45_device R223). -/
def devWrsr (c : Env) (d : Byte) (s : State) : Host.Outcome State Fault Refusal :=
  .next (whenIdle c (fun s => endFrame false (writeSrOther c d (drive c none s))) s)

/-- RDSR, 0x05 (45_device R222): the response to byte 1 is dev.SR, whether or not the device is busy. -/
def devRdsr (c : Env) (s : State) : Host.Outcome State Fault Refusal :=
  .next (endFrame false (drive c (some (srByte c s.dev)) s))

/-- RDID, 0x90 (45_device R228): the response to byte 4 is the identification byte; the two reserved bytes are not
checked. -/
def devRdid (c : Env) (sel : Byte) (s : State) : Host.Outcome State Fault Refusal :=
  .next (whenIdle c (fun s => endFrame false (drive c (idByte c sel) s)) s)

/-- Sector erase, 0x20 (45_device R227). -/
def devSectorErase (c : Env) (a : Addr) (s : State) : Host.Outcome State Fault Refusal :=
  eraseFrame c (sectorSize c) a s

/-- Block erase 32K, 0x52 (45_device R227). -/
def devBlockErase32 (c : Env) (a : Addr) (s : State) : Host.Outcome State Fault Refusal :=
  eraseFrame c block32Size a s

/-- Block erase 64K, 0xD8 (45_device R227). -/
def devBlockErase64 (c : Env) (a : Addr) (s : State) : Host.Outcome State Fault Refusal :=
  eraseFrame c block64Size a s

/-- Chip erase, 0x60 (45_device R231). -/
def devChipErase (c : Env) (s : State) : Host.Outcome State Fault Refusal :=
  .next (whenIdle c (fun s => endFrame false
    (arrayOp c (protectedChip c (srByte c s.dev)) (.erase 0 (flashSize c)) (drive c none s))) s)

/-! ## The meanings -/

/-- SPI_READ (45_device R230). -/
def execSpiRead (a : Addr) (s : State) : Host.Outcome State Fault Refusal := devRead Config.env a s

/-- SPI_PROGRAM (45_device R226). -/
def execSpiProgram (a : Addr) (d : Byte) (s : State) : Host.Outcome State Fault Refusal := devProgram Config.env a d s

/-- SPI_WREN (45_device R225). -/
def execSpiWren (s : State) : Host.Outcome State Fault Refusal := devWren Config.env s

/-- SPI_WRDI (45_device R225). -/
def execSpiWrdi (s : State) : Host.Outcome State Fault Refusal := devWrdi Config.env s

/-- SPI_EWSR (45_device R224). -/
def execSpiEwsr (s : State) : Host.Outcome State Fault Refusal := devEwsr Config.env s

/-- SPI_WRSR (45_device R223). -/
def execSpiWrsr (d : Byte) (s : State) : Host.Outcome State Fault Refusal := devWrsr Config.env d s

/-- SPI_RDSR (45_device R222). -/
def execSpiRdsr (s : State) : Host.Outcome State Fault Refusal := devRdsr Config.env s

/-- SPI_RDID (45_device R228). -/
def execSpiRdid (sel : Byte) (s : State) : Host.Outcome State Fault Refusal := devRdid Config.env sel s

/-- SPI_SECTOR_ERASE (45_device R227). -/
def execSpiSectorErase (a : Addr) (s : State) : Host.Outcome State Fault Refusal := devSectorErase Config.env a s

/-- SPI_BLOCK_ERASE_32K (45_device R227). -/
def execSpiBlockErase32 (a : Addr) (s : State) : Host.Outcome State Fault Refusal := devBlockErase32 Config.env a s

/-- SPI_BLOCK_ERASE_64K (45_device R227). -/
def execSpiBlockErase64 (a : Addr) (s : State) : Host.Outcome State Fault Refusal := devBlockErase64 Config.env a s

/-- SPI_CHIP_ERASE (45_device R231). -/
def execSpiChipErase (s : State) : Host.Outcome State Fault Refusal := devChipErase Config.env s

/-! ## The device's turn -/

/-- The act on a decoded frame. A host command is never decoded from a frame; were one given, it would be a frame the
device does not define (30_encoding R113). -/
def deviceAct (c : Env) (i : Instr) (s : State) : Host.Outcome State Fault Refusal :=
  match i with
  | .spiRead a _ => devRead c a s
  | .spiProgram a d => devProgram c a d s
  | .spiWren => devWren c s
  | .spiWrdi => devWrdi c s
  | .spiEwsr => devEwsr c s
  | .spiWrsr d => devWrsr c d s
  | .spiRdsr _ => devRdsr c s
  | .spiRdid _ _ sel _ => devRdid c sel s
  | .spiSectorErase a => devSectorErase c a s
  | .spiBlockErase32 a => devBlockErase32 c a s
  | .spiBlockErase64 a => devBlockErase64 c a s
  | .spiChipErase => devChipErase c s
  | .reserved | .readByte | .writeByte | .eraseChip | .eraseSector | .eraseBlock32 | .eraseBlock64 | .readSr | .writeSr
  | .ewsr | .wren | .wrdi | .readId | .csAssert | .csDeassert | .xfer => .refused .unknownOpcode

/-- The frame's own rule (45_device R221): `act` gives the instruction of the frame that stands in dev.rx its meaning. A
zero-byte frame has no effect (R234); a frame the device model does not define is refused (30_encoding R113). -/
def frameRule (act : Instr → State → Host.Outcome State Fault Refusal) (s : State) :
    Host.Outcome State Fault Refusal :=
  match decodeFrame s.dev.rx with
  | .ok i => act i (takeFrame s)
  | .error .emptyFrame => .next (takeFrame s)
  | .error .unknownOpcode => .refused .unknownOpcode
  | .error .wrongLength => .refused .wrongLength

/-- The device's turn at the rising cs_n edge of a frame: the frame's own rule, then the completion step of an operation
held up to this edge (45_device R221, R232). -/
def deviceTurnBy (c : Env) (act : Instr → State → Host.Outcome State Fault Refusal) (s : State) :
    Host.Outcome State Fault Refusal :=
  andThen (frameRule act s) (fun t => .next (releaseHeld c t))

/-- The device's turn with its own acts. -/
def deviceTurn (c : Env) (s : State) : Host.Outcome State Fault Refusal := deviceTurnBy c (deviceAct c) s

end Sys2Proof.Machine
end

