-- ==== Sys2Proof/Machine/Sequencer.lean ====
section
/-! DEFINITION. A whole command at transaction level (00_scope R6: the normative semantics): the actions of 10_state R35
run in order, each as 40_transport R134 to R139 says, from accept (R38) to publish (R40). -/

namespace Sys2Proof.Machine

/-- The chip-select gap after cs_n has risen (40_transport R133): gap_ctr has counted it and stands at 0 again. -/
def gapAfter (c : Env) (s : State) : State :=
  elapse c (cshCycles c) { s with bus := { s.bus with gapCtr := 0 } }

/-- A chip-select frame whose exchanges are those of action `a` (40_transport R134): cs_n falls, the bytes
are exchanged, cs_n rises and the device acts on the frame, and the chip-select gap passes. -/
def runFrame (c : Env) (a : Action) (s : State) : Host.Outcome State Fault Refusal :=
  let s := exchangeAll c a 0 a.bytes (csFall s)
  let s := csRise c (elapse c (lowCycles c a.bytes.length) s)
  andThen (deviceTurn c s) (fun s => .next (gapAfter c s))

/-- The idle wait: wait_ctr has counted down to 0 (40_transport R135). -/
def runWait (c : Env) (n : Nat) (s : State) : State :=
  elapse c n { s with sq := { s.sq with waitCtr := 0 } }

/-- One action (10_state R35). -/
def runAction (c : Env) (a : Action) (s : State) : Host.Outcome State Fault Refusal :=
  match a with
  | .frame bs cap => runFrame c (.frame bs cap) s
  | .wait n => .next (runWait c n s)
  | .csLow => .next (csFall s)
  | .csHigh => andThen (deviceTurn c (csRise c s)) (fun s => .next (gapAfter c s))
  | .xfer b => .next (elapse c (exchangeCycles c) (exchangeAll c (.xfer b) 0 [b] s))
  | .check => runFrame c .check s

/-- The actions in list order (20_memory R79). -/
def runActions (c : Env) : List Action → State → Host.Outcome State Fault Refusal
  | [], s => .next s
  | a :: as, s => andThen (runAction c a s) (runActions c as)

/-- A command from its accept edge to its publish edge, with nothing done by the host in between. One edge passes to
accept; the first action starts at the next (40_transport R130). A CMD write while BUSY is dropped (10_state R41). -/
def runCommand (c : Env) (code : Code) (seqOf : Latches → Bool → List Action) (s : State) :
    Host.Outcome State Fault Refusal :=
  if s.busy then .next (overrun s)
  else
    let s := elapse c 1 (accept code seqOf (elapse c 1 s))
    andThen (runActions c s.sq.seq s) (fun s => .next (publish c s))

/-- The list of a high-level command: empty where cs_n = 0 at accept (60_exceptions R255). -/
def highLevel (csN : Bool) (seq : List Action) : List Action := if csN then seq else []

/-- PrimeWREN (41_data R154). -/
def primeWren (w : Latches) : List Action := if w.prime then [.frame (frameN .wren) none] else []

/-- PrimeEWSR (43_status_register R186). -/
def primeEwsr (w : Latches) : List Action := if w.prime then [.frame (frameN .ewsr) none] else []

/-- The cycles of a list of actions. -/
def seqCycles (c : Env) (seq : List Action) : Nat := (seq.map (Action.cycles c)).sum

end Sys2Proof.Machine
end

