-- ==== Sys2Proof/Machine/Data.lean ====
section
/-! DEFINITION. The data commands READ_BYTE and WRITE_BYTE (41_data R150, R153). -/

namespace Sys2Proof.Machine

/-- READ_BYTE (41_data R150). -/
def seqReadByte (w : Latches) (csN : Bool) : List Action :=
  highLevel csN [.frame (frameAR .read w.addr) (some 4)]

/-- WRITE_BYTE (41_data R153): prime, program, wait, check, read back. -/
def seqWriteByte (c : Env) (w : Latches) (csN : Bool) : List Action :=
  highLevel csN (primeWren w ++
    [.frame (frameAW .program w.addr w.data) none, .wait (waitBP c), .check, .frame (frameAR .read w.addr) (some 4)])

/-- READ_BYTE (41_data R150). -/
def execReadByte (s : State) : Host.Outcome State Fault Refusal := runCommand Config.env 0x1#4 seqReadByte s

/-- WRITE_BYTE (41_data R153). -/
def execWriteByte (s : State) : Host.Outcome State Fault Refusal :=
  runCommand Config.env 0x2#4 (seqWriteByte Config.env) s

end Sys2Proof.Machine
end

