-- ==== Sys2Proof/Machine/Erase.lean ====
section
/-! DEFINITION. The erase commands (42_erase R165 to R169): prime, erase frame, wait, check. -/

namespace Sys2Proof.Machine

/-- The list of an erase command with main frame `bs` and wait `n` (42_erase R165 to R168). -/
def seqErase (bs : List Byte) (n : Nat) (w : Latches) (csN : Bool) : List Action :=
  highLevel csN (primeWren w ++ [.frame bs none, .wait n, .check])

/-- ERASE_CHIP (42_erase R165): ADDR is not used. -/
def seqEraseChip (c : Env) (w : Latches) (csN : Bool) : List Action :=
  seqErase (frameN .chipErase) (waitCE c) w csN

/-- ERASE_SECTOR (42_erase R166): ADDR is sent unrounded. -/
def seqEraseSector (c : Env) (w : Latches) (csN : Bool) : List Action :=
  seqErase (frameA .sectorErase w.addr) (waitSE c) w csN

/-- ERASE_BLOCK32 (42_erase R167). -/
def seqEraseBlock32 (c : Env) (w : Latches) (csN : Bool) : List Action :=
  seqErase (frameA .blockErase32 w.addr) (waitBE32 c) w csN

/-- ERASE_BLOCK64 (42_erase R168). -/
def seqEraseBlock64 (c : Env) (w : Latches) (csN : Bool) : List Action :=
  seqErase (frameA .blockErase64 w.addr) (waitBE64 c) w csN

/-- ERASE_CHIP (42_erase R165). -/
def execEraseChip (s : State) : Host.Outcome State Fault Refusal :=
  runCommand Config.env 0x3#4 (seqEraseChip Config.env) s

/-- ERASE_SECTOR (42_erase R166). -/
def execEraseSector (s : State) : Host.Outcome State Fault Refusal :=
  runCommand Config.env 0x4#4 (seqEraseSector Config.env) s

/-- ERASE_BLOCK32 (42_erase R167). -/
def execEraseBlock32 (s : State) : Host.Outcome State Fault Refusal :=
  runCommand Config.env 0x5#4 (seqEraseBlock32 Config.env) s

/-- ERASE_BLOCK64 (42_erase R168). -/
def execEraseBlock64 (s : State) : Host.Outcome State Fault Refusal :=
  runCommand Config.env 0x6#4 (seqEraseBlock64 Config.env) s

end Sys2Proof.Machine
end

