-- ==== Sys2Proof/Machine/StatusReg.lean ====
section
/-! DEFINITION. The status-register and write-latch commands (43_status_register R180 to R186) and READ_ID
(44_identification R200). -/

namespace Sys2Proof.Machine

/-- READ_SR (43_status_register R180). -/
def seqReadSr (_w : Latches) (csN : Bool) : List Action := highLevel csN [.frame (frameR .rdsr) (some 1)]

/-- WRITE_SR (43_status_register R181): no wait and no check (41_data R155). -/
def seqWriteSr (w : Latches) (csN : Bool) : List Action :=
  highLevel csN (primeEwsr w ++ [.frame (frameW .wrsr w.data) none])

/-- EWSR (43_status_register R182). -/
def seqEwsr (_w : Latches) (csN : Bool) : List Action := highLevel csN [.frame (frameN .ewsr) none]

/-- WREN (43_status_register R183). -/
def seqWren (_w : Latches) (csN : Bool) : List Action := highLevel csN [.frame (frameN .wren) none]

/-- WRDI (43_status_register R184). -/
def seqWrdi (_w : Latches) (csN : Bool) : List Action := highLevel csN [.frame (frameN .wrdi) none]

/-- READ_ID (44_identification R200): the selector is WDATA, and ADDR is not used. -/
def seqReadId (w : Latches) (csN : Bool) : List Action := highLevel csN [.frame (frameID .rdid w.data) (some 4)]

/-- READ_SR (43_status_register R180). -/
def execReadSr (s : State) : Host.Outcome State Fault Refusal := runCommand Config.env 0x7#4 seqReadSr s

/-- WRITE_SR (43_status_register R181). -/
def execWriteSr (s : State) : Host.Outcome State Fault Refusal := runCommand Config.env 0x8#4 seqWriteSr s

/-- EWSR (43_status_register R182). -/
def execEwsr (s : State) : Host.Outcome State Fault Refusal := runCommand Config.env 0x9#4 seqEwsr s

/-- WREN (43_status_register R183). -/
def execWren (s : State) : Host.Outcome State Fault Refusal := runCommand Config.env 0xA#4 seqWren s

/-- WRDI (43_status_register R184). -/
def execWrdi (s : State) : Host.Outcome State Fault Refusal := runCommand Config.env 0xB#4 seqWrdi s

/-- READ_ID (44_identification R200). -/
def execReadId (s : State) : Host.Outcome State Fault Refusal := runCommand Config.env 0xC#4 seqReadId s

end Sys2Proof.Machine
end

