-- ==== Sys2Proof/Machine/Transport.lean ====
section
/-! DEFINITION. The transport commands (40_transport R137 to R139) and the reserved code (60_exceptions R254). -/

namespace Sys2Proof.Machine

/-- Code 0x0: no action (60_exceptions R254). -/
def seqReserved (_w : Latches) (_csN : Bool) : List Action := []

/-- CS_ASSERT (40_transport R137). -/
def seqCsAssert (_w : Latches) (csN : Bool) : List Action := if csN then [.csLow] else []

/-- CS_DEASSERT (40_transport R138). -/
def seqCsDeassert (_w : Latches) (csN : Bool) : List Action := if csN then [] else [.csHigh]

/-- XFER (40_transport R139). -/
def seqXfer (w : Latches) (_csN : Bool) : List Action := [.xfer w.data]

/-- (reserved), code 0x0: publishes UNKNOWN_COMMAND (60_exceptions R254). -/
def execReserved (s : State) : Host.Outcome State Fault Refusal := runCommand Config.env 0x0#4 seqReserved s

/-- CS_ASSERT (40_transport R137). -/
def execCsAssert (s : State) : Host.Outcome State Fault Refusal := runCommand Config.env 0xD#4 seqCsAssert s

/-- CS_DEASSERT (40_transport R138). -/
def execCsDeassert (s : State) : Host.Outcome State Fault Refusal := runCommand Config.env 0xE#4 seqCsDeassert s

/-- XFER (40_transport R139). -/
def execXfer (s : State) : Host.Outcome State Fault Refusal := runCommand Config.env 0xF#4 seqXfer s

end Sys2Proof.Machine
end

