-- ==== Sys2Proof/Machine/ClockEdge.lean ====
section
/-! DEFINITION. One rising edge of clk at cycle level: the schedule of 40_transport R130 to R135, the register port
(10_state R21 to R29), accept, overrun and publish at their edges (R38 to R42), reset (70_reset R280) and the device's
completion step (45_device R232); and the machine's step, which runs a fetched instruction or one clk edge. -/

namespace Sys2Proof.Machine

/-- The action list of a command as a function of its latches and of cs_n (10_state R35, R38). A device frame is no
command. -/
def commandSeq (c : Env) : Instr → Latches → Bool → List Action
  | .reserved => seqReserved
  | .readByte => seqReadByte
  | .writeByte => seqWriteByte c
  | .eraseChip => seqEraseChip c
  | .eraseSector => seqEraseSector c
  | .eraseBlock32 => seqEraseBlock32 c
  | .eraseBlock64 => seqEraseBlock64 c
  | .readSr => seqReadSr
  | .writeSr => seqWriteSr
  | .ewsr => seqEwsr
  | .wren => seqWren
  | .wrdi => seqWrdi
  | .readId => seqReadId
  | .csAssert => seqCsAssert
  | .csDeassert => seqCsDeassert
  | .xfer => seqXfer
  | .spiRead _ _ => seqReserved
  | .spiProgram _ _ => seqReserved
  | .spiWren => seqReserved
  | .spiWrdi => seqReserved
  | .spiEwsr => seqReserved
  | .spiWrsr _ => seqReserved
  | .spiRdsr _ => seqReserved
  | .spiRdid _ _ _ _ => seqReserved
  | .spiSectorErase _ => seqReserved
  | .spiBlockErase32 _ => seqReserved
  | .spiBlockErase64 _ => seqReserved
  | .spiChipErase => seqReserved

/-- The latency of a command accepted now, from its accept edge to its publish edge (40_transport R130, 70_reset
R296). -/
def latency (c : Env) (code : Code) (s : State) : Nat :=
  1 + seqCycles c (commandSeq c (decodeCode code) (latch code s) s.bus.csN)

/-! ## The transport at an edge -/

/-- A byte's exchange starts: SCK low, MOSI carries bit 7 (40_transport R131). That tx_sh holds the
whole byte then is an encoding R131 leaves open (log entry 3). -/
def startByte (c : Env) (b : Byte) (s : State) : State :=
  let s := answer c s
  { s with bus := { s.bus with
      sck := false, mosi := b.getLsbD 7, txSh := b, bitCtr := 7#3, half := false, divCtr := 0 } }

/-- The frame of an action opens (40_transport R133, R134). -/
def openFrame (c : Env) (bs : List Byte) (s : State) : State :=
  let s := csFall s
  match bs with
  | [] => { s with bus := { s.bus with gapCtr := 0 }, sq := { s.sq with phase := .hold, byteIdx := 0 } }
  | b :: _ => startByte c b { s with sq := { s.sq with phase := .shift, byteIdx := 0 } }

/-- An action's start edge (40_transport R130 to R139). -/
def startAction (c : Env) (a : Action) (s : State) : State :=
  match a with
  | .frame bs _ => openFrame c bs s
  | .check => openFrame c (frameR .rdsr) s
  | .wait n => { s with sq := { s.sq with waitCtr := n, phase := .wait } }
  | .csLow => csFall s
  | .csHigh =>
    let s := csRise c s
    { s with bus := { s.bus with gapCtr := 0 }, sq := { s.sq with phase := .gap } }
  | .xfer b => startByte c b { s with sq := { s.sq with phase := .shift, byteIdx := 0 } }

/-- The action completes at its start edge. -/
def Action.instant : Action → Bool
  | .frame _ _ => false
  | .wait n => n == 0
  | .csLow => true
  | .csHigh => false
  | .xfer _ => false
  | .check => false

/-- The actions from index k on start at this edge; with none left this is the publish edge (10_state R37). -/
def beginActions (c : Env) : List Action → Nat → State → State
  | [], _, s => publish c s
  | a :: as, k, s =>
    let s := startAction c a { s with sq := { s.sq with step := .run k } }
    if a.instant then beginActions c as (k + 1) s else s

/-- The rising SCK edge of a bit: MISO is sampled, and a selected device shifts in MOSI. At bit 0 the byte stands in
rx_hold, the action's capture register takes it, and the device has the byte it received (40_transport R131, 10_state
R32, 45_device R221). -/
def risingEdge (a : Action) (s : State) : State :=
  let rx : Byte := s.bus.rxSh.extractLsb' 0 7 ++ BitVec.ofBool s.miso
  let sh : Byte := if s.bus.csN then s.dev.sh else s.dev.sh.extractLsb' 0 7 ++ BitVec.ofBool s.bus.mosi
  let s1 := { s with
    bus := { s.bus with sck := true, rxSh := rx, half := true, divCtr := 0 }
    dev := { s.dev with sh := sh } }
  if s.bus.bitCtr = 0#3 then
    storeByte a s.sq.byteIdx { s1 with
      bus := { s1.bus with rxHold := rx }
      dev := { s1.dev with rx := if s.bus.csN then s.dev.rx else s.dev.rx ++ [sh] } }
  else s1

/-- The falling SCK edge into the next bit (40_transport R131). tx_sh shifts left with 0 filled in, so that MOSI is its top
bit: an encoding R131 leaves open (log entry 3). -/
def nextBit (s : State) : State :=
  { s with bus := { s.bus with
      sck := false
      mosi := (s.bus.txSh <<< 1).getLsbD 7
      txSh := s.bus.txSh <<< 1
      bitCtr := s.bus.bitCtr - 1#3
      half := false
      divCtr := 0 } }

/-- The action has a chip-select frame of its own, whose hold follows its last byte (40_transport R133). -/
def Action.framed : Action → Bool
  | .frame _ _ => true
  | .wait _ => false
  | .csLow => false
  | .csHigh => false
  | .xfer _ => false
  | .check => true

/-- The last edge of a byte: the next byte starts, or the frame's hold, or the action is complete (40_transport R131,
R133, R134). The second component says that the action completes at this edge. -/
def byteEnd (c : Env) (a : Action) (s : State) : State × Bool :=
  match a.bytes[s.sq.byteIdx + 1]? with
  | some b => (startByte c b { s with sq := { s.sq with byteIdx := s.sq.byteIdx + 1 } }, false)
  | none =>
    let s := { s with bus := { s.bus with sck := false, half := false, divCtr := 0 } }
    if a.framed then
      ({ s with bus := { s.bus with gapCtr := 0 }, sq := { s.sq with phase := .hold } }, false)
    else (s, true)

/-- An edge within an exchange (40_transport R131). -/
def shiftEdge (c : Env) (a : Action) (s : State) : State × Bool :=
  if s.bus.divCtr + 1 < sckHalf c then ({ s with bus := { s.bus with divCtr := s.bus.divCtr + 1 } }, false)
  else if !s.bus.half then (risingEdge a s, false)
  else if s.bus.bitCtr ≠ 0#3 then (nextBit s, false)
  else byteEnd c a s

/-- An edge within chip-select hold: after H cycles cs_n rises (40_transport R133). -/
def holdEdge (c : Env) (s : State) : State × Bool :=
  if s.bus.gapCtr + 1 < sckHalf c then ({ s with bus := { s.bus with gapCtr := s.bus.gapCtr + 1 } }, false)
  else
    let s := csRise c s
    ({ s with bus := { s.bus with gapCtr := 0 }, sq := { s.sq with phase := .gap } }, false)

/-- An edge within the chip-select gap: after C cycles the action completes (40_transport R133). -/
def gapEdge (c : Env) (s : State) : State × Bool :=
  if s.bus.gapCtr + 1 < cshCycles c then ({ s with bus := { s.bus with gapCtr := s.bus.gapCtr + 1 } }, false)
  else ({ s with bus := { s.bus with gapCtr := 0 } }, true)

/-- An edge within the idle wait: it completes when wait_ctr reaches 0 (40_transport R135). -/
def waitEdge (s : State) : State × Bool :=
  ({ s with sq := { s.sq with waitCtr := s.sq.waitCtr - 1 } }, decide (s.sq.waitCtr ≤ 1))

/-- An edge of a running action. -/
def actionEdge (c : Env) (a : Action) (s : State) : State × Bool :=
  match s.sq.phase with
  | .start => (s, true)
  | .shift => shiftEdge c a s
  | .hold => holdEdge c s
  | .gap => gapEdge c s
  | .wait => waitEdge s

/-- An edge of a running command (10_state R37). -/
def progress (c : Env) (s : State) : Host.Outcome State Fault Refusal :=
  match s.sq.step with
  | .idle => .next s
  | .fin => .next (publish c s)
  | .run k =>
    match s.sq.seq[k]? with
    | none => .fault .stepOutOfRange
    | some a =>
      if s.sq.phase = .start then .next (beginActions c (s.sq.seq.drop k) k s)
      else
        let r := actionEdge c a s
        if r.2 then .next (beginActions c (s.sq.seq.drop (k + 1)) (k + 1) r.1) else .next r.1

/-! ## The register port at an edge -/

/-- A host write (10_state R21 to R29, R38, R41, R42). -/
def writeReg (c : Env) (a : BitVec 3) (v : Word) (s : State) : State :=
  if a = 0#3 then writeCtrl v s
  else if a = 1#3 then writeStatus v s
  else if a = 2#3 then
    if s.busy then overrun s else accept (cmdCode v) (commandSeq c (decodeCmd v)) s
  else if a = 3#3 then writeAddr v s
  else if a = 4#3 then writeWdata v s
  else s

/-- h_rdata in a cycle (10_state R21). -/
def readData (acc : Access) (s : State) : Word :=
  match acc with
  | .none => 0x00000000#32
  | .read a => readReg a s
  | .write _ _ => 0x00000000#32

/-- The host's access in a cycle, at the edge that ends it. -/
def portAccess (c : Env) (acc : Access) (s : State) : State :=
  let s := { s with hRdata := readData acc s }
  match acc with
  | .none => s
  | .read _ => s
  | .write a v => writeReg c a v s

/-- A cycle in which the host does nothing. -/
def Cycle.idle : Cycle where
  acc := .none
  rstN := true
  power := false

/-- The cycle in which the host writes `v` to register word `a`. -/
def Cycle.write (a : BitVec 3) (v : Word) : Cycle := { Cycle.idle with acc := .write a v }

/-- The cycle in which the host reads register word `a`. -/
def Cycle.read (a : BitVec 3) : Cycle := { Cycle.idle with acc := .read a }

/-- A cycle with rst_n = 0. -/
def Cycle.reset : Cycle := { Cycle.idle with rstN := false }

/-- The cycle in which power is lost and returns. -/
def Cycle.powerLoss : Cycle := { Cycle.idle with power := true }

/-- A high-level frame is open and no byte of it is complete yet: one that ends here has fewer bytes than its opcode
needs, although dev.rx holds none (70_reset R280). -/
def inFirstByte (s : State) : Bool :=
  !s.bus.csN && s.dev.rx.isEmpty &&
    match s.sq.step with
    | .idle => false
    | .run k => s.sq.seq[k]?.any Action.framed
    | .fin => false

/-- One rising edge of clk. The device's completion step, if due with cs_n = 1, comes before everything else at the edge
(45_device R232, 60_exceptions R258.5); one held up by an open frame comes at its rising cs_n edge (`csRise`). Reset wins
over everything the FCS would do (R258.4), and where it ends a frame cs_n rises at this edge. A high-level frame that reset
cuts inside its first byte is refused at this edge (70_reset R280); a raw frame of no complete byte is a zero-byte frame,
which has no effect (log entry 21); a frame with bytes is judged at the device's turn, so that one whose bytes are all
complete (reset in the last SCK high half or in chip-select hold) is acted on, not refused (log entry 21). The host's
access is applied before the running command goes on, so a publish at the same edge wins over a clear of DONE (10_state
R42). In a cycle of power loss the access is ignored and h_rdata is a free value (log entry 20). -/
def clockEdge (c : Env) (s : State) : Host.Outcome State Fault Refusal :=
  let cy := s.port.headD Cycle.idle
  let s0 := { s with port := s.port.tail }
  if cy.power then .next (powerCycle c s0)
  else
    let s1 := elapse c 1 s0
    if cy.rstN then
      let s2 := portAccess c cy.acc s1
      if s.busy then progress c s2 else .next s2
    else if inFirstByte s then .refused .wrongLength
    else .next (fcsReset (csRise c { s1 with hRdata := readData cy.acc s1 }))

/-- n clk edges one by one, the device acting before an edge wherever a frame has ended. -/
def clockRun (c : Env) : Nat → State → Host.Outcome State Fault Refusal
  | 0, s => .next s
  | n + 1, s =>
    andThen (if turnDue s then deviceTurn c s else .next s)
      (fun s => andThen (clockEdge c s) (clockRun c n))

/-! ## The step -/

/-- The next n cycles of the port are idle. -/
def quiet : List Cycle → Nat → Bool
  | [] => fun _ => true
  | cy :: p => fun n =>
    match n with
    | 0 => true
    | n + 1 => decide (cy = Cycle.idle) && quiet p n

/-- The CODE of a CMD write that is accepted at the next edge (10_state R38): the FCS is idle, reset is not asserted and
the host writes CMD. -/
def fetchCode (s : State) : Option Code :=
  if s.busy then none
  else
    match s.port with
    | [] => none
    | cy :: _ =>
      if cy.rstN && !cy.power then
        match cy.acc with
        | .none => none
        | .read _ => none
        | .write a v => if a = 2#3 then some (cmdCode v) else none
      else none

/-- One step of the machine. The device acts first where a frame has ended. A CMD write is fetched and run as one
instruction, up to its publish edge, where the host leaves the port alone until then (log entry 2); any other clk edge
is a step of its own. `run` gives an instruction its meaning. -/
def stepBy (c : Env) (run : Instr → State → Host.Outcome State Fault Refusal) (s : State) :
    Host.Outcome State Fault Refusal :=
  if turnDue s then deviceTurnBy c run s
  else
    match fetchCode s with
    | none => clockEdge c s
    | some code =>
      let n := latency c code s
      if quiet s.port.tail n then
        run (decodeCode code) { s with port := s.port.tail.drop n, hRdata := 0x00000000#32 }
      else clockEdge c s

/-- `s` with the instruction of a table row placed where the next step fetches it (log entry 9): an ended frame in
dev.rx, or the host's CMD write at the head of the port with the FCS idle. -/
def placeWord (s : State) (nbits w : Nat) : State :=
  match tableEncoding nbits w with
  | .spiFrame bs => { s with bus := { s.bus with csN := true }, dev := { s.dev with rx := bs } }
  | .cmdWord v =>
    { s with
      sq := { s.sq with step := .idle }
      dev := { s.dev with rx := if s.bus.csN then [] else s.dev.rx }
      port := [Cycle.write 2#3 v] }

end Sys2Proof.Machine
end

