-- ==== Sys2Proof/Machine/Dispatch.lean ====
section
/-! DEFINITION. One arm for each instruction: the call of its meaning. -/

namespace Sys2Proof.Machine

def exec (i : Instr) (s : State) : Host.Outcome State Fault Refusal :=
  match i with
  | .reserved => Sys2Proof.Machine.execReserved s
  | .readByte => Sys2Proof.Machine.execReadByte s
  | .writeByte => Sys2Proof.Machine.execWriteByte s
  | .eraseChip => Sys2Proof.Machine.execEraseChip s
  | .eraseSector => Sys2Proof.Machine.execEraseSector s
  | .eraseBlock32 => Sys2Proof.Machine.execEraseBlock32 s
  | .eraseBlock64 => Sys2Proof.Machine.execEraseBlock64 s
  | .readSr => Sys2Proof.Machine.execReadSr s
  | .writeSr => Sys2Proof.Machine.execWriteSr s
  | .ewsr => Sys2Proof.Machine.execEwsr s
  | .wren => Sys2Proof.Machine.execWren s
  | .wrdi => Sys2Proof.Machine.execWrdi s
  | .readId => Sys2Proof.Machine.execReadId s
  | .csAssert => Sys2Proof.Machine.execCsAssert s
  | .csDeassert => Sys2Proof.Machine.execCsDeassert s
  | .xfer => Sys2Proof.Machine.execXfer s
  | .spiRead a _ => Sys2Proof.Machine.execSpiRead a s
  | .spiProgram a d => Sys2Proof.Machine.execSpiProgram a d s
  | .spiWren => Sys2Proof.Machine.execSpiWren s
  | .spiWrdi => Sys2Proof.Machine.execSpiWrdi s
  | .spiEwsr => Sys2Proof.Machine.execSpiEwsr s
  | .spiWrsr d => Sys2Proof.Machine.execSpiWrsr d s
  | .spiRdsr _ => Sys2Proof.Machine.execSpiRdsr s
  | .spiRdid _ _ sel _ => Sys2Proof.Machine.execSpiRdid sel s
  | .spiSectorErase a => Sys2Proof.Machine.execSpiSectorErase a s
  | .spiBlockErase32 a => Sys2Proof.Machine.execSpiBlockErase32 a s
  | .spiBlockErase64 a => Sys2Proof.Machine.execSpiBlockErase64 a s
  | .spiChipErase => Sys2Proof.Machine.execSpiChipErase s

end Sys2Proof.Machine
end

