-- ==== Sys2Proof/Machine/Step.lean ====
section
/-! DEFINITION. The step of the machine, and the placing of an instruction where it is fetched. -/

namespace Sys2Proof.Machine

/-- One step under the implementation's environment, with `exec` as the meaning of an instruction. -/
def step (s : State) : Host.Outcome State Fault Refusal := stepBy Config.env exec s

/-- `s` with the instruction of a table row placed where `step` fetches its next instruction. -/
def State.withFetchWord (s : State) (nbits w : Nat) : State := placeWord s nbits w

end Sys2Proof.Machine
end

