-- ==== Sys2Proof/Machine/HostProgram.lean ====
section
/-! DEFINITION. The host's side of the port in the notation of 30_encoding R115 and R116: host operations, their bus
transactions, the pseudo-instructions, and a host that runs a program of them against the machine. The host is an agent
outside the block; the machine's step knows of it only the cycles in `State.port`. -/

namespace Sys2Proof.Machine

/-- REG (30_encoding R115). -/
inductive HostReg where
  | ctrl | status | cmd | addr | wdata | rdata
  deriving DecidableEq, Repr

/-- The register indices (30_encoding R115). -/
def HostReg.index : HostReg → BitVec 3
  | .ctrl => 0#3
  | .status => 1#3
  | .cmd => 2#3
  | .addr => 3#3
  | .wdata => 4#3
  | .rdata => 5#3

/-- FIELD: a field name of 10_state R23 to R28. -/
inductive HostField where
  | autoPrime | ie | busy | done | ovr | csActive | result | lastCode | addr | wdata | rdata
  deriving DecidableEq, Repr

/-- The value of a field in the word its register reads as (10_state R23 to R28). -/
def HostField.value (f : HostField) (w : Word) : Nat :=
  match f with
  | .autoPrime => (w.extractLsb' 0 1).toNat
  | .ie => (w.extractLsb' 1 1).toNat
  | .busy => (w.extractLsb' 0 1).toNat
  | .done => (w.extractLsb' 1 1).toNat
  | .ovr => (w.extractLsb' 2 1).toNat
  | .csActive => (w.extractLsb' 3 1).toNat
  | .result => (w.extractLsb' 8 3).toNat
  | .lastCode => (w.extractLsb' 0 4).toNat
  | .addr => (w.extractLsb' 0 24).toNat
  | .wdata => (w.extractLsb' 0 8).toNat
  | .rdata => (w.extractLsb' 0 8).toNat

/-- A host operation (30_encoding R115), a label being the index of an operation in the program. -/
inductive HostOp where
  | sw (r : HostReg) (v : Word)
  | lw (r : HostReg)
  | poll (r : HostReg) (f : HostField) (v : Nat)
  | brbit (r : HostReg) (n : Nat) (v : Bool) (label : Nat)
  deriving DecidableEq, Repr

/-- The bus cycle of an operation; `poll` makes it one or more times (30_encoding R115). -/
def HostOp.cycle : HostOp → Cycle
  | .sw r v => Cycle.write r.index v
  | .lw r => Cycle.read r.index
  | .poll r _ _ => Cycle.read r.index
  | .brbit r _ _ _ => Cycle.read r.index

/-- A digit of a hexadecimal literal, in capitals. -/
def hexDigit (n : Nat) : Char := if n < 10 then Char.ofNat (48 + n) else Char.ofNat (55 + n)

/-- A word as 8 hexadecimal digits (30_encoding R115). -/
def hexWord (w : Word) : String :=
  String.ofList ((List.range 8).map (fun k => hexDigit (w.toNat / 16 ^ (7 - k) % 16)))

/-- The spelling of a bus transaction, `W <index> <hex>` or `R <index>` (30_encoding R115). -/
def Access.spelling : Access → String
  | .none => ""
  | .read a => "R " ++ toString a.toNat
  | .write a v => "W " ++ toString a.toNat ++ " " ++ hexWord v

/-- The operation after the one at `pc`, given the value its cycle read (30_encoding R115). -/
def HostOp.target (o : HostOp) (pc : Nat) (read : Word) : Nat :=
  match o with
  | .sw _ _ => pc + 1
  | .lw _ => pc + 1
  | .poll _ f v => if f.value read = v then pc + 1 else pc
  | .brbit _ n v label => if read.getLsbD n = v then label else pc + 1

/-- `wait` (30_encoding R116). -/
def hostWait : HostOp := .poll .status .done 1

/-- The CMD write of a command (30_encoding R100, R116). -/
def swCmd (code : Code) : HostOp := .sw .cmd (code.zeroExtend 32)

/-- The CMD write, then the wait. -/
def hostRunCmd (code : Code) : List HostOp := [swCmd code, hostWait]

/-- A pseudo-instruction (30_encoding R116). -/
inductive Pseudo where
  | read (a : Addr)
  | write (a : Addr) (d : Byte)
  | eraseChip
  | eraseSector (a : Addr)
  | eraseBlock32 (a : Addr)
  | eraseBlock64 (a : Addr)
  | rdsr
  | wrsr (d : Byte)
  | ewsr
  | wren
  | wrdi
  | rdid (sel : Byte)
  | select
  | deselect
  | xfer (d : Byte)
  deriving DecidableEq, Repr

/-- `sw ADDR, a`. -/
def swAddr (a : Addr) : HostOp := .sw .addr (a.zeroExtend 32)

/-- `sw WDATA, d`. -/
def swWdata (d : Byte) : HostOp := .sw .wdata (d.zeroExtend 32)

/-- The expansion of a pseudo-instruction (30_encoding R116). -/
def Pseudo.expand : Pseudo → List HostOp
  | .read a => swAddr a :: hostRunCmd 0x1#4 ++ [.lw .rdata]
  | .write a d => swAddr a :: swWdata d :: hostRunCmd 0x2#4 ++ [.lw .status]
  | .eraseChip => hostRunCmd 0x3#4 ++ [.lw .status]
  | .eraseSector a => swAddr a :: hostRunCmd 0x4#4 ++ [.lw .status]
  | .eraseBlock32 a => swAddr a :: hostRunCmd 0x5#4 ++ [.lw .status]
  | .eraseBlock64 a => swAddr a :: hostRunCmd 0x6#4 ++ [.lw .status]
  | .rdsr => hostRunCmd 0x7#4 ++ [.lw .rdata]
  | .wrsr d => swWdata d :: hostRunCmd 0x8#4
  | .ewsr => hostRunCmd 0x9#4
  | .wren => hostRunCmd 0xA#4
  | .wrdi => hostRunCmd 0xB#4
  | .rdid sel => swWdata sel :: hostRunCmd 0xC#4 ++ [.lw .rdata]
  | .select => hostRunCmd 0xD#4
  | .deselect => hostRunCmd 0xE#4
  | .xfer d => swWdata d :: hostRunCmd 0xF#4 ++ [.lw .rdata]

/-- A host at operation `pc` of program `prog`, and the machine it drives. -/
structure HostRun where
  prog : List HostOp
  pc : Nat
  machine : State
  deriving DecidableEq, Repr

/-- What the host does on the port in the next clk cycle: past its last operation, nothing. -/
def HostRun.cycle (h : HostRun) : Cycle :=
  match h.prog[h.pc]? with
  | none => Cycle.idle
  | some o => o.cycle

/-- The operation to go on with, given the value the cycle read. -/
def HostRun.target (h : HostRun) (read : Word) : Nat :=
  match h.prog[h.pc]? with
  | none => h.pc
  | some o => o.target h.pc read

/-- One clk cycle of the host and the machine. -/
def hostStep (c : Env) (h : HostRun) : Host.Outcome HostRun Fault Refusal :=
  match clockRun c 1 { h.machine with port := [h.cycle] } with
  | .next t => .next { h with pc := h.target t.hRdata, machine := t }
  | .fault r => .fault r
  | .refused r => .refused r

/-- `n` clk cycles of the host and the machine. -/
def hostRun (c : Env) : Nat → HostRun → Host.Outcome HostRun Fault Refusal
  | 0, h => .next h
  | n + 1, h =>
    match hostStep c h with
    | .next t => hostRun c n t
    | .fault r => .fault r
    | .refused r => .refused r

end Sys2Proof.Machine
end

