-- ==== Sys2Proof/Safety.lean ====
section
/-! DEFINITION. The terms claims are stated in: when the FCS can take a command, what a published command leaves, what a
frame leaves, the premises on the device that the spec names (meets budget, no completion meanwhile), the end of a run,
and the invariant every step keeps. -/

namespace Sys2Proof.Machine

/-! ## Hosts and commands -/

/-- The FCS is idle and no ended frame waits for the device: the next step looks at the port. -/
structure Ready (s : State) : Prop where
  idle : s.sq.step = .idle
  noTurn : turnDue s = false

/-- From `s` to `t` a whole command of code `code` has been accepted and has published `r` with RDATA = `d` (10_state
R38, R40): LAST_CODE, DONE, RESULT and RDATA are written, every other host register is as before, the operands are
latched, the FCS is idle, and the command's latency has passed since the accept edge (70_reset R296). -/
structure Published (code : Code) (r : Result) (d : Byte) (s t : State) : Prop where
  regs : t.regs = { s.regs with lastCode := code, done := true, result := r, rdata := d }
  idle : t.sq.step = .idle
  latches : t.sq.w = latch code s
  now : t.now = s.now + 1 + latency Config.env code s
  port : t.port = s.port
  hRdata : t.hRdata = s.hRdata

/-- The check register and the wait counter are as before. -/
structure CheckKept (s t : State) : Prop where
  chk : t.sq.chk = s.sq.chk
  waitCtr : t.sq.waitCtr = s.sq.waitCtr

/-- The same, and the capture register. -/
structure CapturesKept (s t : State) : Prop extends CheckKept s t where
  cap : t.sq.cap = s.sq.cap

/-! ## The device -/

/-- The array byte at an address. -/
def arrayByte (s : State) (a : Nat) : Byte := Memory.read Config.env.d.array s.dev.array a

/-- Every part of the FCS, and the port, is as before: a device frame touches none of them. -/
structure FcsKept (s t : State) : Prop where
  regs : t.regs = s.regs
  bus : t.bus = s.bus
  sq : t.sq = s.sq
  port : t.port = s.port
  hRdata : t.hRdata = s.hRdata
  now : t.now = s.now

/-- The array, the operation in progress and the status bits other than WEL are as before. -/
structure ArrayKept (s t : State) : Prop where
  array : t.dev.array = s.dev.array
  busy : t.dev.busy = s.dev.busy
  pending : t.dev.pending = s.dev.pending
  srOther : t.dev.srOther = s.dev.srOther

/-- The same, and WEL. -/
structure DevKept (s t : State) : Prop extends ArrayKept s t where
  wel : t.dev.wel = s.dev.wel

/-- The operation `op` has started since `s` and has not completed in `t`: WEL is still set, and the array is as it was
(45_device R226, R227, R231). -/
structure OperationInProgress (op : Pending) (s t : State) : Prop where
  busy : t.dev.busy = true
  wel : t.dev.wel = true
  pending : t.dev.pending = some op
  array : t.dev.array = s.dev.array

/-- The operation `op`, in progress in `s` or started since, has been applied in `t` and nothing else (45_device R226, R227, R231, R232): the
device is idle, WEL is cleared, and the array has changed in the bytes of `op` alone. -/
structure OperationApplied (op : Pending) (s t : State) : Prop where
  busy : t.dev.busy = false
  wel : t.dev.wel = false
  pending : t.dev.pending = none
  program : ∀ a d, op = .program a d → ∀ y, arrayByte t y =
    if y = a then (if Config.env.p.programMode = .replace then d else arrayByte s a &&& d) else arrayByte s y
  erase : ∀ lo hi, op = .erase lo hi → ∀ y, arrayByte t y = if lo ≤ y ∧ y < hi then 0xFF#8 else arrayByte s y

/-- The device does not complete an operation within `n` clk edges. -/
def Steady (n : Nat) (s : State) : Prop := s.dev.busy = true → ∀ k, s.dev.left = some k → n < k

/-- *Meets budget* (45_device R232): the operation the device starts next completes within `n` clk edges of the rising
cs_n edge of its frame. A fact about the chip, on which a claim splits and which no claim assumes (70_reset R297). -/
def meetsBudget (c : Env) (n : Nat) (s : State) : Bool := (c.d.delay s.free.delay).any (fun k => decide (k ≤ n))

/-- A program or erase command accepted now finds WEL set at its main frame on an idle device: it is primed, or the host
has primed (41_data R154, 70_reset R290). -/
def enabled (s : State) : Bool := s.regs.autoPrime || s.dev.wel

/-- The status byte an idle device shows with WEL as given. -/
def idleSr (s : State) (wel : Bool) : Byte := srByte Config.env { s.dev with busy := false, wel := wel }

/-! ## The end of a run -/

/-- The machine's side of the end of a run (70_reset R300): no access is left on the port (what is left of it, idle cycles
among them, is no access), the FCS is idle, cs_n = 1 with no frame waiting, and the device has no operation in progress.
Where a host program decides the accesses, `HostRun.Over` is the end of its run. -/
structure RunOver (s : State) : Prop where
  port : ∀ cy ∈ s.port, cy.acc = .none
  idle : s.sq.step = .idle
  csN : s.bus.csN = true
  noTurn : turnDue s = false
  busy : s.dev.busy = false
  pending : s.dev.pending = none

/-- A run of a host program is over (70_reset R300): the program has issued its last access, and the machine's side is
over. -/
structure HostRun.Over (h : HostRun) : Prop where
  program : h.prog.length ≤ h.pc
  machine : RunOver h.machine

/-! ## The invariant -/

/-- The pending operation lies in the array. -/
def Pending.inRange (n : Nat) : Pending → Prop
  | .program a _ => a < n
  | .erase _ hi => hi ≤ n

/-- RUN(k) points into the action list, and FIN has none (10_state R37). -/
def Sequencer.stepLegal (q : Sequencer) : Prop :=
  match q.step with
  | .idle => True
  | .run k => k < q.seq.length
  | .fin => q.seq = []

/-- What every run keeps: the array is in canonical form and within FLASH_SIZE, busy says that an operation is pending
(10_state R45), the pending operation lies in the array, RESULT is one of the five produced codes (60_exceptions R251),
and the step state points into a list of at most five actions (10_state R35, R37). -/
structure Inv (s : State) : Prop where
  arrayWf : Memory.wf Config.env.d.array s.dev.array
  arrayInRange : ∀ p ∈ s.dev.array, p.1 < flashSize Config.env
  busyPending : s.dev.busy = s.dev.pending.isSome
  pendingInRange : ∀ p ∈ s.dev.pending, p.inRange (flashSize Config.env)
  resultLegal : s.regs.result.code ≤ 4#3
  seqLength : s.sq.seq.length ≤ 5
  stepLegal : s.sq.stepLegal

end Sys2Proof.Machine
end

