-- ==== Sys2Proof/Certificates/Slice0/Obligations.lean ====
section
/-! DEFINITION. The statements for the provers. Each says in its docstring which rule of spec/ it formalises. Free values
and parameters are opaque, so each statement holds for every value of them. -/

open Sys2Proof Sys2Proof.Machine

/-! ## Fetching and stepping -/

/-- 10_state R38, 40_transport R130: a CMD write to an idle FCS, which the host leaves alone until the command publishes,
is one step (the model's choice, log entry 2): `exec` of the decoded command, with the write and the idle cycles taken
off the port. -/
def Obligations.StepRunsTheFetchedCommand : Prop :=
  ∀ (s : State) (v : Word) (p : List Cycle), Ready s → s.port = Cycle.write 2#3 v :: p →
    quiet p (latency Config.env (cmdCode v) s) = true →
    step s = exec (decodeCmd v)
      { s with port := p.drop (latency Config.env (cmdCode v) s), hRdata := 0x00000000#32 }

/-- 45_device R221, R232: at the rising edge of cs_n the frame ends, the device takes it and acts on it, and after that an
operation due by then (one that fell due inside the frame, or one the frame has started with a delay of 0) completes. That
an operation in progress is due when dev.left is 0 is the model's encoding, and that a delay of 0 falls at this edge is
deduced (log entry 5). -/
def Obligations.StepRunsTheEndedFrame : Prop :=
  ∀ (s : State) (i : Instr), s.bus.csN = true → decodeFrame s.dev.rx = .ok i →
    step s = andThen (exec i { s with dev := { s.dev with rx := [] } }) (fun t =>
      .next { t with dev :=
        if t.dev.busy = true ∧ t.dev.left = some 0 then complete Config.env t.dev else t.dev })

/-- 30_encoding R113: an ended frame whose opcode is not one of the twelve, or whose length is not the one its opcode
sets, is refused. -/
def Obligations.UndefinedFramesAreRefused : Prop :=
  ∀ (s : State) (op : Byte) (xs : List Byte), s.bus.csN = true → s.dev.rx = op :: xs →
    (opOfByte op = none → step s = .refused .unknownOpcode) ∧
    (∀ o, opOfByte op = some o → xs.length + 1 ≠ o.length → step s = .refused .wrongLength)

/-! ## Encoding -/

/-- 30_encoding R100, R102, R103: words written out from the spec decode to the instruction they stand for. -/
def Obligations.SpecWordsDecodeToTheirInstruction : Prop :=
  decodeCmd 0x00000001#32 = .readByte ∧ decodeCmd 0xFFFFFFF1#32 = .readByte ∧ decodeCmd 0x00000006#32 = .eraseBlock64 ∧
  decodeCmd 0x00000008#32 = .writeSr ∧ decodeCmd 0x0000000C#32 = .readId ∧ decodeCmd 0x0000000F#32 = .xfer ∧
  decodeFrame [0x03#8, 0x01#8, 0x23#8, 0x45#8, 0x00#8] = .ok (.spiRead 0x012345#24 0x00#8) ∧
  decodeFrame [0x20#8, 0x00#8, 0x12#8, 0x34#8] = .ok (.spiSectorErase 0x001234#24) ∧
  decodeFrame [0x90#8, 0x00#8, 0x00#8, 0x01#8, 0x00#8] = .ok (.spiRdid 0x00#8 0x00#8 0x01#8 0x00#8) ∧
  decodeFrame [0x06#8, 0x00#8] = .error .wrongLength ∧ decodeFrame [0x9F#8] = .error .unknownOpcode

/-- 30_encoding R100, R103, R105: decoding the words of an instruction gives it back, with every operand at every value
(all 2^24 addresses among them). -/
def Obligations.DecodeOfEncodeIsTheInstruction : Prop :=
  ∀ i : Instr, decode (encode i) = .ok i

/-- 30_encoding R103, R111: a frame has one reading, and encoding the instruction read gives back every byte of it. -/
def Obligations.EncodeOfADecodedFrameIsTheFrame : Prop :=
  ∀ (bs : List Byte) (i : Instr), decodeFrame bs = .ok i → encode i = .spiFrame bs

/-! ## The register port -/

/-- 10_state R21: a read returns the register as it stands before the edge and has no side effect on any state. And what
each register word is in every state (R23 to R29, R44): CTRL and STATUS bit by bit, with RESULT by its code (60_exceptions
R250), and every field of the other words at bit 0, with 0 above it and in the unmapped words. -/
def Obligations.ReadsHaveNoSideEffect : Prop :=
  (∀ (s : State) (a : BitVec 3) (p : List Cycle), turnDue s = false →
    step { s with port := Cycle.read a :: p } =
      andThen (step { s with port := Cycle.idle :: p }) (fun t => .next { t with hRdata := readReg a s })) ∧
  (∀ (s : State) (i : Nat), i < 32 →
    (readReg 0#3 s).getLsbD i = (if i = 0 then s.regs.autoPrime else if i = 1 then s.regs.ie else false) ∧
    (readReg 1#3 s).getLsbD i =
      if i = 0 then decide (s.sq.step ≠ .idle) else if i = 1 then s.regs.done else if i = 2 then s.regs.ovr
      else if i = 3 then !s.bus.csN
      else if 8 ≤ i ∧ i ≤ 10 then s.regs.result.code.getLsbD (i - 8)
      else false) ∧
  (∀ s : State, readReg 2#3 s = s.regs.lastCode.zeroExtend 32 ∧ readReg 3#3 s = s.regs.addr.zeroExtend 32 ∧
    readReg 4#3 s = s.regs.wdata.zeroExtend 32 ∧ readReg 5#3 s = s.regs.rdata.zeroExtend 32 ∧
    readReg 6#3 s = 0x00000000#32 ∧ readReg 7#3 s = 0x00000000#32) ∧
  Result.ok.code = 0#3 ∧ Result.deviceBusy.code = 1#3 ∧ Result.unknownCommand.code = 2#3 ∧
  Result.illegalState.code = 3#3 ∧ Result.verifyFail.code = 4#3

/-- 10_state R21: in a cycle without a read h_rdata is 0. The last cycle a step takes (past the end of the port an idle
one) is the one h_rdata speaks of. A cycle of power loss is left out: there it is any value (log entry 20). -/
def Obligations.ReadDataIsZeroWithoutARead : Prop :=
  ∀ s t : State, turnDue s = false → (s.port.headD Cycle.idle).power = false →
    (∀ a, (s.port.headD Cycle.idle).acc ≠ .read a) → step s = .next t → t.hRdata = 0x00000000#32

/-- 10_state R22, R23, R26 to R29: what a host write leaves and what the register then reads as; reserved bits read 0,
and a write to RDATA or to an unmapped word has no effect. The FCS and the device are otherwise as after an idle cycle. -/
def Obligations.HostWritesSetTheirRegister : Prop :=
  ∀ (s : State) (a : BitVec 3) (v : Word) (p : List Cycle), Ready s → a ≠ 1#3 → a ≠ 2#3 →
    s.port = Cycle.write a v :: p →
    ∃ t, step s = .next t ∧
      (a = 0#3 → readReg 0#3 t = v &&& 0x00000003#32 ∧
        t.regs = { s.regs with autoPrime := v.getLsbD 0, ie := v.getLsbD 1 }) ∧
      (a = 3#3 → readReg 3#3 t = v &&& 0x00FFFFFF#32 ∧ t.regs = { s.regs with addr := v.extractLsb' 0 24 }) ∧
      (a = 4#3 → readReg 4#3 t = v &&& 0x000000FF#32 ∧ t.regs = { s.regs with wdata := v.extractLsb' 0 8 }) ∧
      (5#3 ≤ a → t.regs = s.regs) ∧
      t.bus = s.bus ∧ t.sq = s.sq ∧ t.dev = elapseDev Config.env s.bus.csN 1 s.dev ∧ t.port = p

/-- 10_state R42: a STATUS write clears DONE by bit 1, except that the set wins at a publish edge (the edge at which a
running command leaves the FCS idle), and OVR by bit 2; no other bit of it has an effect. -/
def Obligations.StatusWritesClearDoneAndOvr : Prop :=
  ∀ (s : State) (v : Word) (p : List Cycle), turnDue s = false →
    step { s with port := Cycle.write 1#3 v :: p } =
      andThen (step { s with port := Cycle.idle :: p }) (fun t => .next { t with regs := { t.regs with
        done := t.regs.done && (!v.getLsbD 1 || (s.busy && !t.busy))
        ovr := t.regs.ovr && !v.getLsbD 2 } })

/-- 10_state R38: a CMD write to an idle FCS is accepted at its edge, whatever the host does next (here: it touches the
port before the command publishes, so the command goes edge by edge, log entry 2): the operands standing before the edge
are latched, LAST_CODE and BUSY are set, DONE is cleared, RESULT and RDATA keep their values and no bus line changes. -/
def Obligations.CmdWriteIsAcceptedAtItsEdge : Prop :=
  ∀ (s : State) (v : Word) (p : List Cycle), Ready s → s.port = Cycle.write 2#3 v :: p →
    quiet p (latency Config.env (cmdCode v) s) = false →
    ∃ t, step s = .next t ∧
      t.sq.w = { code := cmdCode v, addr := s.regs.addr, data := s.regs.wdata, prime := s.regs.autoPrime } ∧
      t.regs = { s.regs with lastCode := cmdCode v, done := false } ∧ t.busy = true ∧
      t.sq.seq = commandSeq Config.env (decodeCmd v) t.sq.w s.bus.csN ∧
      t.sq.step = (if t.sq.seq = [] then .fin else .run 0) ∧
      t.bus = s.bus ∧ t.port = p

/-- 10_state R41: a CMD write while BUSY = 1, the publish edge included, sets OVR and changes nothing else. -/
def Obligations.CmdWriteWhileBusyOnlySetsOvr : Prop :=
  ∀ (s : State) (v : Word) (p : List Cycle), turnDue s = false → s.busy = true →
    step { s with port := Cycle.write 2#3 v :: p } =
      andThen (step { s with port := Cycle.idle :: p }) (fun t => .next { t with regs := { t.regs with ovr := true } })

/-- 10_state R39: a host write to CTRL, ADDR or WDATA while a command runs changes that register at once and does not
change the command in flight. One to RDATA or to an unmapped word has no effect then either (R28, R29). -/
def Obligations.OperandWritesLeaveTheRunningCommandAlone : Prop :=
  ∀ (s : State) (v : Word) (p : List Cycle), turnDue s = false → s.busy = true →
    step { s with port := Cycle.write 0#3 v :: p } =
      andThen (step { s with port := Cycle.idle :: p })
        (fun t => .next { t with regs := { t.regs with autoPrime := v.getLsbD 0, ie := v.getLsbD 1 } }) ∧
    step { s with port := Cycle.write 3#3 v :: p } =
      andThen (step { s with port := Cycle.idle :: p })
        (fun t => .next { t with regs := { t.regs with addr := v.extractLsb' 0 24 } }) ∧
    step { s with port := Cycle.write 4#3 v :: p } =
      andThen (step { s with port := Cycle.idle :: p })
        (fun t => .next { t with regs := { t.regs with wdata := v.extractLsb' 0 8 } }) ∧
    ∀ a : BitVec 3, 5#3 ≤ a → step { s with port := Cycle.write a v :: p } = step { s with port := Cycle.idle :: p }

/-! ## Reset and power -/

/-- 10_state R47, 70_reset R284: the reset value of every FCS element, what each register word reads as, and the
device's power-up values, and that a reset (70_reset R280) does not touch the device. That State.reset takes the FCS
reset and the device's first power-up at one point is the model's choice, which R284 permits (log entry 8). The values of
the model's own fields are not stated. -/
def Obligations.ResetStateIsTheSpecs : Prop :=
  State.reset.regs =
    { autoPrime := true, ie := false, done := false, ovr := false, result := .ok,
      lastCode := 0#4, addr := 0#24, wdata := 0#8, rdata := 0#8 } ∧
  State.reset.bus =
    { csN := true, sck := false, mosi := false, txSh := 0#8, rxSh := 0#8,
      bitCtr := 0#3, half := false, divCtr := 0, gapCtr := 0, rxHold := 0#8 } ∧
  State.reset.sq.step = .idle ∧ State.reset.sq.seq = [] ∧ State.reset.sq.cap = 0#8 ∧ State.reset.sq.chk = 0#8 ∧
  State.reset.sq.waitCtr = 0 ∧ State.reset.sq.w = { code := 0#4, addr := 0#24, data := 0#8, prime := true } ∧
  readReg 0#3 State.reset = 0x00000001#32 ∧ (∀ a : BitVec 3, a ≠ 0#3 → readReg a State.reset = 0x00000000#32) ∧
  State.reset.irq = false ∧ State.reset.dev.busy = false ∧ State.reset.dev.wel = false ∧
  State.reset.dev.ewsrArmed = false ∧ State.reset.dev.pending = none ∧ State.reset.dev.rx = [] ∧
  State.reset.inFrame = false ∧ State.reset.dev.srOther = Config.env.p.srPowerup ∧
  (∀ a, arrayByte State.reset a = Config.freeArray a) ∧ ∀ s : State, (fcsReset s).dev = s.dev

/-- 70_reset R280: an edge with rst_n = 0 wins over everything the FCS or the host would do at it. Every FCS element
takes its reset value; the device is not touched, so its completion step goes on, and one that an open frame of no
complete byte held up is taken at the rising cs_n edge this is (R232). A read in that cycle still carries the register as
it stands before the edge, and any other cycle carries 0 (10_state R21, log entry 20). A high-level frame cut inside its
first byte is FrameCutShortByResetIsRefused's; a raw frame of no complete byte has no effect (the model's reading, log
entry 21). -/
def Obligations.ResetWinsAtItsEdge : Prop :=
  ∀ (s : State) (acc : Access) (p : List Cycle), turnDue s = false → inFirstByte s = false →
    s.port = { acc := acc, rstN := false, power := false } :: p →
    ∃ t, step s = .next t ∧ t.regs = HostRegs.reset ∧ t.bus = Bus.reset ∧ t.sq = Sequencer.reset ∧
      t.dev = (if s.bus.csN = false ∧ s.dev.rx = [] then completeHeld Config.env (elapseDev Config.env false 1 s.dev)
        else elapseDev Config.env s.bus.csN 1 s.dev) ∧ t.irq = false ∧ t.port = p ∧
      (∀ a, acc = .read a → t.hRdata = readReg a s) ∧ ((∀ a, acc ≠ .read a) → t.hRdata = 0x00000000#32)

/-- 70_reset R280: where reset cuts a frame short, cs_n rises at the reset edge, the device sees the frame end there with
the bytes it has, and the reference device model refuses it (30_encoding R113): a frame with bytes at the device's turn, a
high-level frame of which no byte is complete at the reset edge itself. That the second refusal falls at the reset edge,
and that only a command's frame is refused with no byte complete, is the model's choice (log entry 21). A cut raw frame of
unknown opcode is UndefinedFramesAreRefused's, at the device's turn; one whose bytes are all complete is not cut short, and
StepRunsTheEndedFrame has the device act on it (log entry 21). -/
def Obligations.FrameCutShortByResetIsRefused : Prop :=
  (∀ (s : State) (op : Byte) (xs : List Byte) (o : DevOp) (acc : Access) (p : List Cycle), s.bus.csN = false →
    s.dev.rx = op :: xs → opOfByte op = some o → xs.length + 1 ≠ o.length →
    s.port = { acc := acc, rstN := false, power := false } :: p →
    andThen (step s) step = .refused .wrongLength) ∧
  ∀ (s : State) (k : Nat) (a : Machine.Action) (acc : Access) (p : List Cycle), s.bus.csN = false → s.dev.rx = [] →
    s.sq.step = .run k → s.sq.seq[k]? = some a → (a = .check ∨ ∃ bs cap, a = .frame bs cap) →
    s.port = { acc := acc, rstN := false, power := false } :: p →
    step s = .refused .wrongLength

/-- 70_reset R284, 60_exceptions R269: a loss of power leaves the array as it was outside the region of an operation then
pending, and the device's volatile state at its power-up values. That power returns within the same cycle, with
reset held, so that every FCS element is then at its reset value whatever the host does in that cycle, is the model's
choice (log entry 12). -/
def Obligations.PowerLossKeepsTheArrayOutsideThePendingRegion : Prop :=
  ∀ (s : State) (acc : Access) (r : Bool) (p : List Cycle), turnDue s = false →
    Memory.wf Config.env.d.array s.dev.array → s.port = { acc := acc, rstN := r, power := true } :: p →
    ∃ t, step s = .next t ∧ t.dev.busy = false ∧ t.dev.wel = false ∧ t.dev.ewsrArmed = false ∧ t.dev.pending = none ∧
      t.dev.rx = [] ∧ t.dev.srOther = Config.env.p.srPowerup ∧ t.regs = HostRegs.reset ∧ t.bus = Bus.reset ∧
      t.sq = Sequencer.reset ∧ t.irq = false ∧ t.port = p ∧
      ∀ a, (∀ d, s.dev.pending ≠ some (.program a d)) →
        (∀ lo hi, s.dev.pending = some (.erase lo hi) → a < lo ∨ hi ≤ a) → arrayByte t a = arrayByte s a

/-! ## The device's frames -/

/-- 45_device R230, R220: READ on a device that has the address answers with the array byte, and changes no state except
EWSR arming; on a busy device the answer is any value (R233), whatever the address: that a busy device ignores an address
beyond FLASH_SIZE too is deduced (log entry 13). -/
def Obligations.ReadFrameAnswersWithTheArrayByte : Prop :=
  ∀ (s : State) (a : Addr) (dummy : Byte) (x : Nat), (s.dev.busy = false → locate Config.env a = some x) →
    ∃ t, exec (.spiRead a dummy) s = .next t ∧ FcsKept s t ∧ DevKept s t ∧ t.dev.rx = s.dev.rx ∧
      t.dev.ewsrArmed = false ∧ (s.dev.busy = false → t.dev.out = arrayByte s x)

/-- 45_device R226: PROGRAM on an idle device that has the address: without WEL no effect; protected, only WEL may
change; else the operation starts, and the array changes only at its completion. -/
def Obligations.ProgramFrameStartsTheProgram : Prop :=
  ∀ (s : State) (a : Addr) (d : Byte) (x : Nat), s.dev.busy = false → locate Config.env a = some x →
    ∃ t, exec (.spiProgram a d) s = .next t ∧ FcsKept s t ∧ t.dev.array = s.dev.array ∧
      t.dev.srOther = s.dev.srOther ∧ t.dev.rx = s.dev.rx ∧ t.dev.ewsrArmed = false ∧
      if s.dev.wel = false then t.dev.busy = false ∧ t.dev.pending = s.dev.pending ∧ t.dev.wel = false
      else if protectedAt Config.env (srByte Config.env s.dev) x = true then
        t.dev.busy = false ∧ t.dev.pending = s.dev.pending
      else t.dev.busy = true ∧ t.dev.pending = some (.program x d) ∧ t.dev.wel = true ∧
        t.dev.left = Config.env.d.delay s.free.delay

/-- 45_device R227: the region of an erase frame is the naturally aligned one that holds the address. -/
def Obligations.EraseFramesStartTheErase : Prop :=
  ∀ (s : State) (a : Addr) (x : Nat), s.dev.busy = false → locate Config.env a = some x →
    ∀ f ∈ [(Instr.spiSectorErase a, sectorSize Config.env), (Instr.spiBlockErase32 a, 32768),
        (Instr.spiBlockErase64 a, 65536)],
      ∃ t, exec f.1 s = .next t ∧ FcsKept s t ∧ t.dev.array = s.dev.array ∧ t.dev.srOther = s.dev.srOther ∧
        t.dev.rx = s.dev.rx ∧ t.dev.ewsrArmed = false ∧
        if s.dev.wel = false then t.dev.busy = false ∧ t.dev.pending = s.dev.pending ∧ t.dev.wel = false
        else if protectedRegion Config.env (srByte Config.env s.dev) (x - x % f.2) f.2 = true then
          t.dev.busy = false ∧ t.dev.pending = s.dev.pending
        else t.dev.busy = true ∧ t.dev.wel = true ∧ t.dev.left = Config.env.d.delay s.free.delay ∧
          t.dev.pending = some (.erase (x - x % f.2) (min (x - x % f.2 + f.2) (flashSize Config.env)))

/-- 45_device R231: CHIP ERASE on an idle device. -/
def Obligations.ChipEraseFrameStartsTheErase : Prop :=
  ∀ s : State, s.dev.busy = false →
    ∃ t, exec .spiChipErase s = .next t ∧ FcsKept s t ∧ t.dev.array = s.dev.array ∧
      t.dev.srOther = s.dev.srOther ∧ t.dev.rx = s.dev.rx ∧ t.dev.ewsrArmed = false ∧
      if s.dev.wel = false then t.dev.busy = false ∧ t.dev.pending = s.dev.pending ∧ t.dev.wel = false
      else if protectedChip Config.env (srByte Config.env s.dev) = true then
        t.dev.busy = false ∧ t.dev.pending = s.dev.pending
      else t.dev.busy = true ∧ t.dev.pending = some (.erase 0 (flashSize Config.env)) ∧ t.dev.wel = true ∧
        t.dev.left = Config.env.d.delay s.free.delay

/-- 45_device R227, R229: a region is protected exactly when one of its addresses is, and with every writable bit of
dev.sr_other 0 nothing is protected. In every environment, since no single one shows every case. -/
def Obligations.ProtectionMeetsItsLaw : Prop :=
  ∀ (c : Env) (v : Device) (lo e : Nat),
    (protectedRegion c (srByte c v) lo e = true ↔
      ∃ a, lo ≤ a ∧ a < lo + e ∧ protectedAt c (srByte c v) a = true) ∧
    (v.srOther &&& c.p.srWritable = 0x00#8 →
      (∀ a, protectedAt c (srByte c v) a = false) ∧ protectedChip c (srByte c v) = false)

/-- 45_device R224, R225, R233: WREN sets WEL, WRDI clears it, EWSR arms the next frame only; each only on a device that is
not busy, and a busy one ignores all three and is disarmed. Nothing else of the device changes. -/
def Obligations.LatchFramesSetWelAndArming : Prop :=
  ∀ s : State,
    (∃ t, exec .spiWren s = .next t ∧ FcsKept s t ∧ ArrayKept s t ∧ t.dev.rx = s.dev.rx ∧ t.dev.ewsrArmed = false ∧
      t.dev.wel = (!s.dev.busy || s.dev.wel)) ∧
    (∃ t, exec .spiWrdi s = .next t ∧ FcsKept s t ∧ ArrayKept s t ∧ t.dev.rx = s.dev.rx ∧ t.dev.ewsrArmed = false ∧
      t.dev.wel = (s.dev.busy && s.dev.wel)) ∧
    (∃ t, exec .spiEwsr s = .next t ∧ FcsKept s t ∧ DevKept s t ∧ t.dev.rx = s.dev.rx ∧
      t.dev.ewsrArmed = !s.dev.busy)

/-- 45_device R223: WRSR, armed on a device that is not busy (or with WEL where that arms it), writes the writable bits
and no other; else it has no effect. BUSY and WEL are never written from its byte (10_state R46). That "not busy" binds
both alternatives is deduced (log entry 14). -/
def Obligations.WrsrFrameWritesTheWritableBits : Prop :=
  ∀ (s : State) (d : Byte),
    ∃ t, exec (.spiWrsr d) s = .next t ∧ FcsKept s t ∧ t.dev.array = s.dev.array ∧ t.dev.busy = s.dev.busy ∧
      t.dev.pending = s.dev.pending ∧ t.dev.rx = s.dev.rx ∧ t.dev.ewsrArmed = false ∧
      (if s.dev.busy = false ∧
          (s.dev.ewsrArmed = true ∨ Config.env.p.wrenEnablesWrsr = true ∧ s.dev.wel = true) then
        (∀ i, i < 8 → t.dev.srOther.getLsbD i =
          if Config.env.p.srWritable.getLsbD i = true ∧ i ≠ Config.env.p.busyBit.val ∧ i ≠ welBit Config.env then
            d.getLsbD i
          else s.dev.srOther.getLsbD i) ∧
        t.dev.wel = (!Config.env.p.wrsrClearsWel && s.dev.wel)
      else t.dev.srOther = s.dev.srOther ∧ t.dev.wel = s.dev.wel)

/-- 45_device R222, 10_state R46: RDSR answers with the status byte, busy or not: BUSY and WEL in their places, and
dev.sr_other elsewhere. -/
def Obligations.RdsrFrameAnswersWithTheStatusByte : Prop :=
  ∀ (s : State) (dummy : Byte),
    ∃ t, exec (.spiRdsr dummy) s = .next t ∧ FcsKept s t ∧ DevKept s t ∧ t.dev.rx = s.dev.rx ∧
      t.dev.ewsrArmed = false ∧
      ∀ i, i < 8 → t.dev.out.getLsbD i =
        if i = Config.env.p.busyBit.val then s.dev.busy
        else if i = welBit Config.env then s.dev.wel
        else s.dev.srOther.getLsbD i

/-- 45_device R228: RDID with selector 0x00 or 0x01 on an idle device answers with the identification byte, whatever the
reserved bytes. -/
def Obligations.RdidFrameAnswersWithTheIdentification : Prop :=
  ∀ (s : State) (zero0 zero1 sel dummy : Byte),
    ∃ t, exec (.spiRdid zero0 zero1 sel dummy) s = .next t ∧ FcsKept s t ∧ DevKept s t ∧ t.dev.rx = s.dev.rx ∧
      t.dev.ewsrArmed = false ∧
      (s.dev.busy = false → sel = 0x00#8 → t.dev.out = Config.env.p.mfrId) ∧
      (s.dev.busy = false → sel = 0x01#8 → t.dev.out = Config.env.p.devId)

/-- 45_device R233: on a busy device every frame other than RDSR is ignored: it changes no state except clearing EWSR
arming. That this covers an address beyond FLASH_SIZE under REFUSE (R220) and a WRSR with WEL set (R223) is deduced (log
entries 13 and 14). -/
def Obligations.BusyDeviceIgnoresEveryFrameButRdsr : Prop :=
  ∀ (s : State) (bs : List Byte) (i : Instr), s.dev.busy = true → decodeFrame bs = .ok i →
    bs.head? ≠ some DevOp.rdsr.code →
    ∃ t, exec i s = .next t ∧ FcsKept s t ∧ DevKept s t ∧ t.dev.rx = s.dev.rx ∧ t.dev.left = s.dev.left ∧
      t.dev.ewsrArmed = false

/-- 45_device R220: an address below FLASH_SIZE is used as is, the last one, FLASH_SIZE - 1, among them; under ADDR_POLICY
= REFUSE a frame with an address at or beyond FLASH_SIZE is refused by an idle device (a busy one ignores it, deduced, log
entry 13), and under WRAP the address is taken modulo FLASH_SIZE. In every environment, since no single one shows both;
the instructions' meanings are those of the implementation's environment. -/
def Obligations.AddressesBeyondTheArrayFollowThePolicy : Prop :=
  (∀ (c : Env) (a : Addr), a.toNat < flashSize c → locate c a = some a.toNat) ∧
  (∀ c : Env, locate c (BitVec.ofNat 24 (flashSize c - 1)) = some (flashSize c - 1)) ∧
  ∀ (c : Env) (a : Addr) (d : Byte) (s : State), s.dev.busy = false → flashSize c ≤ a.toNat →
    ∀ i ∈ [Instr.spiRead a d, .spiProgram a d, .spiSectorErase a, .spiBlockErase32 a, .spiBlockErase64 a],
      exec i s = deviceAct Config.env i s ∧
      match c.p.addrPolicy with
      | .refuse => deviceAct c i s = .refused .addressOutOfRange
      | .wrap => locate c a = some (a.toNat % flashSize c) ∧ ∃ t, deviceAct c i s = .next t

/-- 41_data R150, 42_erase R166, 45_device R220: the FCS sends every address unchanged, so a command whose address the
device refuses ends the run with that refusal. In every environment. -/
def Obligations.CommandsToAbsentAddressesAreRefused : Prop :=
  ∀ (c : Env) (s : State), s.sq.step = .idle → s.bus.csN = true → s.dev.busy = false →
    flashSize c ≤ s.regs.addr.toNat → c.p.addrPolicy = .refuse →
    ∀ code ∈ [0x1#4, 0x2#4, 0x4#4, 0x5#4, 0x6#4],
      exec (decodeCode code) s = runCommand Config.env code (commandSeq Config.env (decodeCode code)) s ∧
      runCommand c code (commandSeq c (decodeCode code)) s = .refused .addressOutOfRange

/-- 45_device R226, R227, R232, 70_reset R284: no frame changes the array; it changes only at a completion step or a loss
of power. At a clk edge that changes it, power is lost, or cs_n = 1 before or after it (at its rising edge among them) and
the operation in progress was due, and is what changed it. A step that changes it (a whole command and the device's turn
among them) has a loss of power, or outlasts the delay of the operation that was in progress, or of the one an idle device
starts in it. The delay still to pass is the model's dev.left (log entry 5). -/
def Obligations.NoFrameChangesTheArray : Prop :=
  (∀ (s t : State) (bs : List Byte) (i : Instr), decodeFrame bs = .ok i → exec i s = .next t →
    t.dev.array = s.dev.array) ∧
  (∀ s t : State, clockEdge Config.env s = .next t → t.dev.array ≠ s.dev.array →
    (∃ cy p, s.port = cy :: p ∧ cy.power = true) ∨
    ((s.bus.csN = true ∨ t.bus.csN = true) ∧ s.dev.busy = true ∧ (∃ k, s.dev.left = some k ∧ k ≤ 1) ∧
      t.dev.array = applyPending Config.env s.dev.array s.dev.pending)) ∧
  ∀ s t : State, step s = .next t → t.dev.array ≠ s.dev.array →
    (∃ cy p, s.port = cy :: p ∧ cy.power = true) ∨
    ∃ k, s.now + k ≤ t.now ∧ (if s.dev.busy then s.dev.left = some k else Config.env.d.delay s.free.delay = some k)

/-- 45_device R232: the completion step. With cs_n = 1 an operation due at the edge is applied at it: WEL and BUSY fall,
and a program or an erase has changed its own bytes and no other. With cs_n = 0 nothing completes until cs_n rises: where
it rises at this edge on a frame of no bytes, which has no rule of its own (R234), the operation is applied at it; on a
frame with bytes it is applied after that frame's rule, which is HeldUpOperationsCompleteWithTheirFrame's. Whether the FCS
is idle or runs a command (whose step state is legal, 10_state R37): a running command goes on at the same edge, and
changes no register but by its publish. That an operation is due where dev.left is 0 or 1 before the edge is the model's
encoding of its drawn delay (log entry 5). -/
def Obligations.CompletionAppliesThePendingOperation : Prop :=
  ∀ (s : State) (p : List Cycle) (op : Pending) (k : Nat), turnDue s = false → s.sq.stepLegal →
    Memory.wf Config.env.d.array s.dev.array →
    s.port = Cycle.idle :: p → s.dev.busy = true → s.dev.pending = some op → s.dev.left = some k → k ≤ 1 →
    ∃ t, step s = .next t ∧ (s.busy = false ∨ t.busy = true → t.regs = s.regs) ∧ t.dev.srOther = s.dev.srOther ∧
      (s.bus.csN = true → OperationApplied op s t) ∧
      (s.bus.csN = false → t.bus.csN = false → DevKept s t) ∧
      (s.bus.csN = false → t.bus.csN = true → if t.dev.rx = [] then OperationApplied op s t else DevKept s t)

/-- 45_device R232: a completion that would fall inside a frame falls at that frame's rising cs_n edge, after the frame's
own rule: a frame that meets the operation in progress, due by now (dev.left is 0: the model's encoding, log entry 5), is
answered or ignored by the busy device (RDSR still shows BUSY), and then the operation is applied, with no clk edge in
between. So is an operation that the frame itself starts with a delay of 0 cycles; with any other it is in progress. That
a busy device ignores a frame whose address lies beyond FLASH_SIZE under REFUSE (R220), and a WRSR with WEL set (R223), is
deduced (log entries 13 and 14), and so is that a delay of 0 cycles falls at the rising cs_n edge itself (log entry 5). -/
def Obligations.HeldUpOperationsCompleteWithTheirFrame : Prop :=
  (∀ (s : State) (i : Instr) (op : Pending), s.bus.csN = true → decodeFrame s.dev.rx = .ok i →
    Memory.wf Config.env.d.array s.dev.array → s.dev.busy = true → s.dev.pending = some op → s.dev.left = some 0 →
    ∃ t, step s = .next t ∧ FcsKept s t ∧ OperationApplied op s t ∧ t.dev.srOther = s.dev.srOther ∧
      t.dev.ewsrArmed = false ∧ t.dev.rx = [] ∧
      (s.dev.rx.head? = some DevOp.rdsr.code → t.dev.out = srByte Config.env s.dev)) ∧
  ∀ (s t : State) (i : Instr) (op : Pending), s.bus.csN = true → decodeFrame s.dev.rx = .ok i →
    Memory.wf Config.env.d.array s.dev.array → s.dev.busy = false →
    exec i { s with dev := { s.dev with rx := [] } } = .next t → t.dev.busy = true → t.dev.pending = some op →
    ∃ u, step s = .next u ∧ FcsKept s u ∧ u.dev.srOther = s.dev.srOther ∧ u.dev.rx = [] ∧
      if Config.env.d.delay s.free.delay = some 0 then OperationApplied op s u
      else OperationInProgress op s u ∧ u.dev.left = Config.env.d.delay s.free.delay

/-! ## Commands -/

/-- 41_data R150: READ_BYTE on an idle device publishes OK with the array byte in RDATA. While the device is busy it still
publishes OK, with a byte of any value, whatever the address (that a busy device ignores one beyond FLASH_SIZE is deduced,
log entry 13). It changes nothing of the device but EWSR arming. A device that completes an operation by the accept is
OperationsThatEndDuringACommandShowInItsCheck's. -/
def Obligations.ReadBytePublishesTheArrayByte : Prop :=
  ∀ (s : State) (x : Nat), s.sq.step = .idle → s.bus.csN = true →
    Steady (1 + latency Config.env 0x1#4 s) s → (s.dev.busy = false → locate Config.env s.regs.addr = some x) →
    ∃ t d, exec .readByte s = .next t ∧ Published 0x1#4 .ok d s t ∧ CheckKept s t ∧ DevKept s t ∧
      t.dev.ewsrArmed = false ∧ t.bus.csN = true ∧ (s.dev.busy = false → d = arrayByte s x)

/-- 41_data R153, 45_device R226: WRITE_BYTE on an idle device that has the address. Without write-enable or to a
protected byte the array is as before, RDATA is the unchanged byte, and RESULT is OK exactly when it equals WDATA, else
VERIFY_FAIL. Else, if the device meets the budget, the byte is programmed as PROGRAM_MODE says, RDATA is the byte read
back, and RESULT is OK exactly when that is the byte written; if it does not, RESULT is DEVICE_BUSY, and the
program is still in progress, with WEL set and the array as it was, or has completed after the check frame began. No other
byte changes. -/
def Obligations.WriteByteProgramsChecksAndVerifies : Prop :=
  ∀ (s : State) (x : Nat), s.sq.step = .idle → s.bus.csN = true → s.dev.busy = false →
    Memory.wf Config.env.d.array s.dev.array → locate Config.env s.regs.addr = some x →
    ∃ t, exec .writeByte s = .next t ∧ t.bus.csN = true ∧ t.dev.srOther = s.dev.srOther ∧ t.dev.ewsrArmed = false ∧
      t.sq.cap = t.regs.rdata ∧ t.sq.waitCtr = 0 ∧ (∀ y, y ≠ x → arrayByte t y = arrayByte s y) ∧
      if enabled s = false then
        Published 0x2#4 (if arrayByte s x = s.regs.wdata then .ok else .verifyFail) (arrayByte s x) s t ∧
          t.dev.array = s.dev.array ∧ t.dev.busy = false ∧ t.dev.wel = false
      else if protectedAt Config.env (idleSr s true) x = true then
        Published 0x2#4 (if arrayByte s x = s.regs.wdata then .ok else .verifyFail) (arrayByte s x) s t ∧
          t.dev.array = s.dev.array ∧ t.dev.busy = false
      else if meetsBudget Config.env (cshCycles Config.env + waitBP Config.env) s = true then
        ∃ b, b = (if Config.env.p.programMode = .replace then s.regs.wdata else arrayByte s x &&& s.regs.wdata) ∧
          Published 0x2#4 (if b = s.regs.wdata then .ok else .verifyFail) b s t ∧ arrayByte t x = b ∧
          t.dev.busy = false ∧ t.dev.wel = false
      else (∃ d, Published 0x2#4 .deviceBusy d s t) ∧
        (OperationInProgress (.program x s.regs.wdata) s t ∨ OperationApplied (.program x s.regs.wdata) s t)

/-- 42_erase R166 to R169, 45_device R227: an erase command on an idle device that has the address. Without write-enable,
or with a protected address in the region, the array is as before and RESULT is OK. Else, if the device meets the budget,
every byte of the region that exists reads 0xFF and RESULT is OK; if it does not, RESULT is DEVICE_BUSY, and the erase is
still in progress, with WEL set and the array as it was, or has completed after the check frame began. RDATA is the status
byte of the check, and no byte outside the region changes. That the region tested for protection may reach beyond
FLASH_SIZE is deduced (log entry 16). -/
def Obligations.EraseCommandsEraseTheirRegion : Prop :=
  ∀ (s : State) (x : Nat), s.sq.step = .idle → s.bus.csN = true → s.dev.busy = false →
    Memory.wf Config.env.d.array s.dev.array → locate Config.env s.regs.addr = some x →
    ∀ f ∈ [(Instr.eraseSector, 0x4#4, sectorSize Config.env, waitSE Config.env),
        (Instr.eraseBlock32, 0x5#4, 32768, waitBE32 Config.env),
        (Instr.eraseBlock64, 0x6#4, 65536, waitBE64 Config.env)],
      ∃ t, exec f.1 s = .next t ∧ t.bus.csN = true ∧ t.dev.srOther = s.dev.srOther ∧ t.dev.ewsrArmed = false ∧
        t.sq.cap = s.sq.cap ∧ t.sq.chk = t.regs.rdata ∧ t.sq.waitCtr = 0 ∧
        (∀ y, y < x - x % f.2.2.1 ∨ x - x % f.2.2.1 + f.2.2.1 ≤ y ∨ flashSize Config.env ≤ y →
          arrayByte t y = arrayByte s y) ∧
        if enabled s = false then
          Published f.2.1 .ok (idleSr s false) s t ∧ t.dev.array = s.dev.array ∧ t.dev.busy = false ∧
            t.dev.wel = false
        else if protectedRegion Config.env (idleSr s true) (x - x % f.2.2.1) f.2.2.1 = true then
          Published f.2.1 .ok (idleSr s t.dev.wel) s t ∧ t.dev.array = s.dev.array ∧ t.dev.busy = false
        else if meetsBudget Config.env (cshCycles Config.env + f.2.2.2) s = true then
          Published f.2.1 .ok (idleSr s false) s t ∧ t.dev.busy = false ∧ t.dev.wel = false ∧
            ∀ y, x - x % f.2.2.1 ≤ y → y < x - x % f.2.2.1 + f.2.2.1 → y < flashSize Config.env →
              arrayByte t y = 0xFF#8
        else Published f.2.1 .deviceBusy (srByte Config.env { s.dev with busy := true, wel := true }) s t ∧
          let op := Pending.erase (x - x % f.2.2.1) (min (x - x % f.2.2.1 + f.2.2.1) (flashSize Config.env))
          OperationInProgress op s t ∨ OperationApplied op s t

/-- 42_erase R165, R169, 45_device R231: ERASE_CHIP likewise, over the whole array; ADDR is not used. -/
def Obligations.EraseChipErasesEveryByte : Prop :=
  ∀ s : State, s.sq.step = .idle → s.bus.csN = true → s.dev.busy = false →
    Memory.wf Config.env.d.array s.dev.array →
    ∃ t, exec .eraseChip s = .next t ∧ t.bus.csN = true ∧ t.dev.srOther = s.dev.srOther ∧ t.dev.ewsrArmed = false ∧
      t.sq.cap = s.sq.cap ∧ t.sq.chk = t.regs.rdata ∧ t.sq.waitCtr = 0 ∧
      (∀ y, flashSize Config.env ≤ y → arrayByte t y = arrayByte s y) ∧
      if enabled s = false then
        Published 0x3#4 .ok (idleSr s false) s t ∧ t.dev.array = s.dev.array ∧ t.dev.busy = false ∧
          t.dev.wel = false
      else if protectedChip Config.env (idleSr s true) = true then
        Published 0x3#4 .ok (idleSr s t.dev.wel) s t ∧ t.dev.array = s.dev.array ∧ t.dev.busy = false
      else if meetsBudget Config.env (cshCycles Config.env + waitCE Config.env) s = true then
        Published 0x3#4 .ok (idleSr s false) s t ∧ t.dev.busy = false ∧ t.dev.wel = false ∧
          ∀ y, y < flashSize Config.env → arrayByte t y = 0xFF#8
      else Published 0x3#4 .deviceBusy (srByte Config.env { s.dev with busy := true, wel := true }) s t ∧
        (OperationInProgress (.erase 0 (flashSize Config.env)) s t ∨ OperationApplied (.erase 0 (flashSize Config.env)) s t)

/-- 60_exceptions R252, 45_device R233, 41_data R153: a program or erase command whose device is busy from its accept to
its check frame is ignored by the device and publishes DEVICE_BUSY; an erase gives the device's status byte in RDATA. The
operation in progress goes on, or completes after the check frame began, and no other is started. `tail` is the time from the start of the check frame to
the publish. That the device ignores an address beyond FLASH_SIZE too is deduced (log entry 13); where the operation may
complete before WRITE_BYTE's read-back frame, the device must have the address
(AbsentAddressesAfterAnEarlierOperation has the other case). -/
def Obligations.CommandsOnABusyDevicePublishDeviceBusy : Prop :=
  ∀ (s : State) (code : Code), s.sq.step = .idle → s.bus.csN = true → s.dev.busy = true →
    0x2#4 ≤ code → code ≤ 0x6#4 →
    let tail := frameCycles Config.env 2 + if code = 0x2#4 then frameCycles Config.env 5 else 0
    (∀ k, s.dev.left = some k → 1 + latency Config.env code s < k + tail) →
    (code ≠ 0x2#4 ∨ (∃ x, locate Config.env s.regs.addr = some x) ∨
      ∀ k, s.dev.left = some k → 1 + latency Config.env code s < k + frameCycles Config.env 5) →
    ∃ t d, exec (decodeCode code) s = .next t ∧ Published code .deviceBusy d s t ∧
      t.dev.srOther = s.dev.srOther ∧ t.dev.ewsrArmed = false ∧ t.bus.csN = true ∧
      (0x3#4 ≤ code → d = srByte Config.env s.dev) ∧
      (Steady (1 + latency Config.env code s) s → DevKept s t) ∧
      (DevKept s t ∨
        t.dev.busy = false ∧ t.dev.wel = false ∧ t.dev.pending = none ∧
          t.dev.array = applyPending Config.env s.dev.array s.dev.pending)

/-- 41_data R153 ("Device already busy at accept"), 42_erase R169, 45_device R232, R233: an earlier operation that
completes while a command runs. One that completes by the edge of the first frame (2 cycles from the CMD write) leaves any
command as on a device that had completed it before. One that completes later, but by the start of the check frame of a
program or erase command, or at any such time where the command does not prime, is applied; the command's own frame has
had no effect (ignored while busy, or taken without WEL, which the completion cleared); the check shows BUSY = 0, so an
erase publishes OK with that status byte, and for WRITE_BYTE the read-back decides. The delay still to pass is the model's
dev.left (log entry 5). An address the device does not have is AbsentAddressesAfterAnEarlierOperation's. -/
def Obligations.OperationsThatEndDuringACommandShowInItsCheck : Prop :=
  ∀ (s : State) (code : Code) (op : Pending) (k : Nat), s.sq.step = .idle → s.bus.csN = true →
    Memory.wf Config.env.d.array s.dev.array → s.dev.busy = true → s.dev.pending = some op → s.dev.left = some k →
    (k ≤ 2 → exec (decodeCode code) s = exec (decodeCode code) { s with dev := complete Config.env s.dev }) ∧
    ∀ x, 0x2#4 ≤ code → code ≤ 0x6#4 → (code = 0x3#4 ∨ locate Config.env s.regs.addr = some x) →
      (s.regs.autoPrime = true → 2 < k) →
      k + frameCycles Config.env 2 + (if code = 0x2#4 then frameCycles Config.env 5 else 0) ≤
        1 + latency Config.env code s →
      ∃ t, exec (decodeCode code) s = .next t ∧ t.bus.csN = true ∧ OperationApplied op s t ∧
        t.dev.srOther = s.dev.srOther ∧ t.dev.ewsrArmed = false ∧
        (0x3#4 ≤ code → Published code .ok (idleSr s false) s t) ∧
        (code = 0x2#4 →
          Published 0x2#4 (if arrayByte t x = s.regs.wdata then .ok else .verifyFail) (arrayByte t x) s t)

/-- 41_data R153, 42_erase R169, 45_device R220, R232, R233: a program or erase command with an address the device does
not have under ADDR_POLICY = REFUSE, on a device whose earlier operation completes during it. A frame with the address
that meets the device idle again is refused, and the command with it: the main frame, where the operation has completed by
its start, or WRITE_BYTE's read-back. An erase whose main frame met the device busy is ignored (deduced, log entry 13),
and where its check finds the device idle it publishes OK, with the earlier operation applied. In every environment, as
CommandsToAbsentAddressesAreRefused. `start` is the time from the CMD write to the main frame. -/
def Obligations.AbsentAddressesAfterAnEarlierOperation : Prop :=
  ∀ (c : Env) (s : State) (k : Nat), s.sq.step = .idle → s.bus.csN = true → s.dev.busy = true → s.dev.left = some k →
    flashSize c ≤ s.regs.addr.toNat → c.p.addrPolicy = .refuse →
    let start := 2 + if s.regs.autoPrime then frameCycles c 1 else 0
    ∀ code ∈ [0x2#4, 0x4#4, 0x5#4, 0x6#4],
      exec (decodeCode code) s = runCommand Config.env code (commandSeq Config.env (decodeCode code)) s ∧
      (k ≤ start ∨ code = 0x2#4 ∧ k + frameCycles c 5 ≤ 1 + latency c code s →
        runCommand c code (commandSeq c (decodeCode code)) s = .refused .addressOutOfRange) ∧
      (code ≠ 0x2#4 → start < k → k + frameCycles c 2 ≤ 1 + latency c code s →
        ∃ t, runCommand c code (commandSeq c (decodeCode code)) s = .next t ∧
          t.regs = { s.regs with
            lastCode := code, done := true, result := .ok, rdata := srByte c { s.dev with busy := false, wel := false } } ∧
          t.now = s.now + 1 + latency c code s ∧ t.bus.csN = true ∧ t.dev.busy = false ∧ t.dev.wel = false ∧
          t.dev.pending = none ∧ t.dev.srOther = s.dev.srOther ∧ t.dev.ewsrArmed = false ∧
          t.dev.array = applyPending c s.dev.array s.dev.pending)

/-- 41_data R150, 43_status_register R180 to R184, 44_identification R200, 40_transport R139, 45_device R232, R233: an
earlier operation that completes during READ_BYTE, READ_SR, WRITE_SR, EWSR, WREN, WRDI, READ_ID or, on a deselected chip,
XFER, after the edge of the first frame (as of a host that polls READ_SR). The command meets a busy device: it publishes
OK, READ_SR with the status byte of the busy device, WRITE_SR to WRDI with RDATA unchanged, READ_BYTE, READ_ID and XFER
with a byte of any value. It has no effect of its own on the device but on arming (a WRSR after the completion is neither
armed nor finds WEL), and the operation is applied by the publish. That a busy device ignores an address beyond
FLASH_SIZE, and a WRSR although WEL is set, is deduced (log entries 13 and 14). The delay still to pass is the model's
dev.left (log entry 5). -/
def Obligations.OperationsThatEndDuringAnyOtherCommandAreApplied : Prop :=
  ∀ (s : State) (code : Code) (op : Pending) (k : Nat), s.sq.step = .idle → s.bus.csN = true →
    Memory.wf Config.env.d.array s.dev.array → s.dev.busy = true → s.dev.pending = some op → s.dev.left = some k →
    2 < k → k ≤ 1 + latency Config.env code s → code ∈ [0x1#4, 0x7#4, 0x8#4, 0x9#4, 0xA#4, 0xB#4, 0xC#4, 0xF#4] →
    ∃ t d, exec (decodeCode code) s = .next t ∧ Published code .ok d s t ∧ CheckKept s t ∧ t.bus.csN = true ∧
      OperationApplied op s t ∧ t.dev.srOther = s.dev.srOther ∧
      t.dev.ewsrArmed = (decide (code = 0xF#4) && s.dev.ewsrArmed) ∧
      (code = 0xF#4 → t.dev.rx = s.dev.rx) ∧
      (code = 0x7#4 → d = srByte Config.env s.dev) ∧
      (0x8#4 ≤ code → code ≤ 0xB#4 → d = s.regs.rdata ∧ CapturesKept s t)

/-- 45_device R226, R227, R231, R237: nothing changes the array of an idle device without a write-enable: with AUTO_PRIME
and WEL 0, no instruction does, host command or frame. -/
def Obligations.NoInstructionChangesAnUnprimedArray : Prop :=
  ∀ (s t : State) (i : Instr), s.regs.autoPrime = false → s.dev.wel = false → s.dev.busy = false →
    exec i s = .next t → t.dev.array = s.dev.array

/-- 43_status_register R180: READ_SR publishes OK with the device's status byte, busy or not. -/
def Obligations.ReadSrPublishesTheStatusByte : Prop :=
  ∀ s : State, s.sq.step = .idle → s.bus.csN = true → Steady (1 + latency Config.env 0x7#4 s) s →
    ∃ t, exec .readSr s = .next t ∧ Published 0x7#4 .ok (srByte Config.env s.dev) s t ∧ CheckKept s t ∧ DevKept s t ∧
      t.dev.ewsrArmed = false ∧ t.bus.csN = true

/-- 43_status_register R181, R186, 45_device R223: WRITE_SR publishes OK with RDATA unchanged. The device takes the
writable bits of WDATA if it is not busy and is armed, by the priming frame, by an EWSR frame just before, or by WEL where
that arms it; else it ignores the frame. That a busy device ignores it although WEL is set where WEL arms it is deduced
(log entry 14). -/
def Obligations.WriteSrWritesTheWritableBits : Prop :=
  ∀ s : State, s.sq.step = .idle → s.bus.csN = true → Steady (1 + latency Config.env 0x8#4 s) s →
    ∃ t, exec .writeSr s = .next t ∧ Published 0x8#4 .ok s.regs.rdata s t ∧ CapturesKept s t ∧ t.bus.csN = true ∧
      t.dev.array = s.dev.array ∧ t.dev.busy = s.dev.busy ∧ t.dev.pending = s.dev.pending ∧ t.dev.ewsrArmed = false ∧
      (if s.dev.busy = false ∧ (s.regs.autoPrime = true ∨ s.dev.ewsrArmed = true ∨
          Config.env.p.wrenEnablesWrsr = true ∧ s.dev.wel = true) then
        t.dev.srOther = (s.dev.srOther &&& ~~~(writableMask Config.env)) ||| (s.regs.wdata &&& writableMask Config.env) ∧
        t.dev.wel = (!Config.env.p.wrsrClearsWel && s.dev.wel)
      else t.dev.srOther = s.dev.srOther ∧ t.dev.wel = s.dev.wel)

/-- 43_status_register R182 to R184: EWSR, WREN and WRDI publish OK with RDATA unchanged, and set arming, set WEL and
clear WEL on a device that is not busy. -/
def Obligations.LatchCommandsSetWelAndArming : Prop :=
  ∀ s : State, s.sq.step = .idle → s.bus.csN = true → Steady (1 + latency Config.env 0xA#4 s) s →
    (∃ t, exec .ewsr s = .next t ∧ Published 0x9#4 .ok s.regs.rdata s t ∧ CapturesKept s t ∧ DevKept s t ∧
      t.bus.csN = true ∧
      t.dev.ewsrArmed = !s.dev.busy) ∧
    (∃ t, exec .wren s = .next t ∧ Published 0xA#4 .ok s.regs.rdata s t ∧ CapturesKept s t ∧ ArrayKept s t ∧
      t.bus.csN = true ∧
      t.dev.ewsrArmed = false ∧ t.dev.wel = (!s.dev.busy || s.dev.wel)) ∧
    (∃ t, exec .wrdi s = .next t ∧ Published 0xB#4 .ok s.regs.rdata s t ∧ CapturesKept s t ∧ ArrayKept s t ∧
      t.bus.csN = true ∧
      t.dev.ewsrArmed = false ∧ t.dev.wel = (s.dev.busy && s.dev.wel))

/-- 44_identification R200: READ_ID publishes OK with the identification byte for selector 0x00 or 0x01 (WDATA) on an
idle device, and with any byte otherwise. ADDR is not used. -/
def Obligations.ReadIdPublishesTheIdentification : Prop :=
  ∀ s : State, s.sq.step = .idle → s.bus.csN = true → Steady (1 + latency Config.env 0xC#4 s) s →
    ∃ t d, exec .readId s = .next t ∧ Published 0xC#4 .ok d s t ∧ CheckKept s t ∧ DevKept s t ∧
      t.dev.ewsrArmed = false ∧ t.bus.csN = true ∧
      (s.dev.busy = false → s.regs.wdata = 0x00#8 → d = Config.env.p.mfrId) ∧
      (s.dev.busy = false → s.regs.wdata = 0x01#8 → d = Config.env.p.devId)

/-- 60_exceptions R255: a high-level command accepted while cs_n = 0 publishes ILLEGAL_STATE at the next edge, with RDATA
unchanged, cs_n still 0, no byte exchanged, and the open frame as it was. Nothing but a CS_ASSERT leaves a deselected chip
selected, so a high-level command leaves cs_n = 1. -/
def Obligations.HighLevelCommandsWhileSelectedAreIllegal : Prop :=
  (∀ (s : State) (code : Code), s.sq.step = .idle → s.bus.csN = false → 0x1#4 ≤ code → code ≤ 0xC#4 →
    ∃ t, exec (decodeCode code) s = .next t ∧ Published code .illegalState s.regs.rdata s t ∧ t.now = s.now + 2 ∧
      CapturesKept s t ∧ t.bus = s.bus ∧ t.dev.rx = s.dev.rx ∧ DevKept s t ∧ t.dev.ewsrArmed = s.dev.ewsrArmed) ∧
  ∀ (s t : State) (i : Instr), s.bus.csN = true → i ≠ .csAssert → exec i s = .next t → t.bus.csN = true

/-- 60_exceptions R254: code 0x0 publishes UNKNOWN_COMMAND at the next edge and clears nothing: no bus activity, no
effect on the device, ADDR, WDATA and RDATA as before, LAST_CODE 0. -/
def Obligations.ReservedCodePublishesUnknownCommand : Prop :=
  ∀ s : State, s.sq.step = .idle →
    ∃ t, exec .reserved s = .next t ∧ Published 0x0#4 .unknownCommand s.regs.rdata s t ∧ t.now = s.now + 2 ∧
      CapturesKept s t ∧ t.bus = s.bus ∧ t.dev = elapseDev Config.env s.bus.csN 2 s.dev

/-- 40_transport R137: CS_ASSERT selects the chip and publishes OK one cycle after accept; on a selected chip it changes
nothing. -/
def Obligations.CsAssertSelectsTheChip : Prop :=
  ∀ s : State, s.sq.step = .idle →
    ∃ t, exec .csAssert s = .next t ∧ Published 0xD#4 .ok s.regs.rdata s t ∧ t.now = s.now + 2 ∧
      CapturesKept s t ∧ t.bus = { s.bus with csN := false } ∧ t.csActive = true ∧
      t.dev = { elapseDev Config.env s.bus.csN 2 s.dev with rx := if s.bus.csN then [] else s.dev.rx }

/-- 40_transport R138, 45_device R221, R234: CS_DEASSERT on a deselected chip changes nothing; on a selected one cs_n
rises, the bytes exchanged since CS_ASSERT are the frame the device acts on (none of them: no effect), and the command
publishes OK C cycles later. A frame the device does not define (30_encoding R113), or that its act refuses, refuses the
command. -/
def Obligations.CsDeassertEndsTheFrame : Prop :=
  ∀ s : State, s.sq.step = .idle →
    (s.bus.csN = true → ∃ t, exec .csDeassert s = .next t ∧ Published 0xE#4 .ok s.regs.rdata s t ∧ CapturesKept s t ∧
      t.bus = s.bus ∧
      t.dev = elapseDev Config.env true 2 s.dev) ∧
    (s.bus.csN = false → s.dev.rx = [] → ∃ t, exec .csDeassert s = .next t ∧
      Published 0xE#4 .ok s.regs.rdata s t ∧ CapturesKept s t ∧ t.bus.csN = true ∧ t.csActive = false ∧
      t.dev = elapseDev Config.env true (cshCycles Config.env) (elapseDev Config.env false 2 s.dev)) ∧
    (∀ (i : Instr) (u : State), s.bus.csN = false → decodeFrame s.dev.rx = .ok i →
      exec i { s with
        dev := { elapseDev Config.env false 2 s.dev with rx := [] }
        bus := { s.bus with csN := true } } = .next u →
      ∃ t, exec .csDeassert s = .next t ∧ Published 0xE#4 .ok s.regs.rdata s t ∧ CapturesKept s t ∧ t.bus.csN = true ∧
        t.dev = elapseDev Config.env true (cshCycles Config.env) u.dev) ∧
    (∀ (i : Instr) (r : Refusal), s.bus.csN = false → decodeFrame s.dev.rx = .ok i →
      exec i { s with
        dev := { elapseDev Config.env false 2 s.dev with rx := [] }
        bus := { s.bus with csN := true } } = .refused r →
      exec .csDeassert s = .refused r) ∧
    ∀ (op : Byte) (xs : List Byte), s.bus.csN = false → s.dev.rx = op :: xs →
      (opOfByte op = none → exec .csDeassert s = .refused .unknownOpcode) ∧
      (∀ o, opOfByte op = some o → xs.length + 1 ≠ o.length → exec .csDeassert s = .refused .wrongLength)

/-- 40_transport R139: XFER publishes OK with the received byte in RDATA and does not touch cs_n. With cs_n = 0 the byte
sent is the next byte of the open frame, and the byte received is the one the device drives there, where a rule defines
one (45_device R235); no operation completes within the frame, however long due (R232). With cs_n = 1 the device ignores
the byte (R236). The byte received stands in rx_hold and in the receive shift register (10_state R32, 40_transport R131),
and SCK is low. With cs_n = 1 the premise is that it completes no operation meanwhile:
OperationsThatEndDuringAnyOtherCommandAreApplied has the other case. -/
def Obligations.XferExchangesOneByte : Prop :=
  ∀ s : State, s.sq.step = .idle → (s.bus.csN = true → Steady (1 + latency Config.env 0xF#4 s) s) →
    ∃ t d, exec .xfer s = .next t ∧ Published 0xF#4 .ok d s t ∧ CheckKept s t ∧ DevKept s t ∧
      t.dev.ewsrArmed = s.dev.ewsrArmed ∧
      t.bus.csN = s.bus.csN ∧ t.bus.rxHold = d ∧ t.bus.rxSh = d ∧ t.bus.sck = false ∧
      t.dev.rx = (if s.bus.csN then s.dev.rx else s.dev.rx ++ [s.regs.wdata]) ∧
      (∀ b, s.bus.csN = false → response Config.env s.dev = some b → d = b)

/-! ## Rules about the whole machine -/

/-- 10_state R37, R45, 60_exceptions R251: every step keeps the invariant. -/
def Obligations.EveryStepKeepsTheInvariant : Prop :=
  ∀ s t : State, Inv s → step s = .next t → Inv t

/-- The invariant holds at reset. -/
def Obligations.ResetMeetsTheInvariant : Prop := Inv State.reset

/-- 00_scope R6, 40_transport R130 to R136: the cycle level implements the transaction level. A command whose clk edges
are taken one by one, from its CMD write on, reaches after its latency exactly the state (or the refusal) of the
transaction. -/
def Obligations.ClockEdgesReachTheTransaction : Prop :=
  ∀ (s : State) (v : Word), Ready s →
    clockRun Config.env (1 + latency Config.env (cmdCode v) s) { s with port := [Cycle.write 2#3 v] } =
      exec (decodeCmd v) { s with port := [], hRdata := 0x00000000#32 }

/-- 70_reset R296: every command that publishes does so its latency after accept, and the latency is the table's, with
cs_n = 1 and with cs_n = 0 at accept: Dframe(n) = 16nH + H + C (40_transport R134), and every wait W_x is the least number
of cycles not shorter than T_x, ceil(T_x * F_CLK) (00_scope R8). -/
def Obligations.CommandsTakeTheirLatency : Prop :=
  (∀ (s t : State) (code : Code), s.sq.step = .idle → exec (decodeCode code) s = .next t →
    t.now = s.now + 1 + latency Config.env code s) ∧
  ∀ s : State,
    let H := sckHalf Config.env
    let C := cshCycles Config.env
    let D := fun n : Nat => 16 * n * H + H + C
    let P := fun n : Nat => if s.regs.autoPrime then n else 0
    let L := fun code : Code => latency Config.env code s
    L 0x0#4 = 1 ∧ L 0xD#4 = 1 ∧ L 0xF#4 = 1 + 16 * H ∧
    (∀ f ∈ [(waitBP Config.env, Config.env.p.tBP), (waitCE Config.env, Config.env.p.tCE),
        (waitSE Config.env, Config.env.p.tSE), (waitBE32 Config.env, Config.env.p.tBE32),
        (waitBE64 Config.env, Config.env.p.tBE64)],
      ∀ n, f.1 ≤ n ↔ f.2.num * Config.env.p.fClk ≤ n * (f.2.denPred + 1)) ∧
    (if s.bus.csN then
      L 0x1#4 = 1 + D 5 ∧
      L 0x2#4 = 1 + P (D 1) + D 5 + waitBP Config.env + D 2 + D 5 ∧
      L 0x3#4 = 1 + P (D 1) + D 1 + waitCE Config.env + D 2 ∧
      L 0x4#4 = 1 + P (D 1) + D 4 + waitSE Config.env + D 2 ∧
      L 0x5#4 = 1 + P (D 1) + D 4 + waitBE32 Config.env + D 2 ∧
      L 0x6#4 = 1 + P (D 1) + D 4 + waitBE64 Config.env + D 2 ∧
      L 0x7#4 = 1 + D 2 ∧ L 0x8#4 = 1 + P (D 1) + D 2 ∧
      L 0x9#4 = 1 + D 1 ∧ L 0xA#4 = 1 + D 1 ∧ L 0xB#4 = 1 + D 1 ∧ L 0xC#4 = 1 + D 5 ∧ L 0xE#4 = 1
    else L 0xE#4 = 1 + C ∧ ∀ code, 0x1#4 ≤ code → code ≤ 0xC#4 → L code = 1)

/-- 60_exceptions R262: irq is IE AND DONE; every command that publishes, whatever its RESULT, leaves it at IE; and it is
low after reset. -/
def Obligations.InterruptFollowsCompletion : Prop :=
  (∀ s : State, s.irq = (s.regs.ie && s.regs.done)) ∧
  (∀ (s t : State) (code : Code), s.sq.step = .idle → exec (decodeCode code) s = .next t →
    t.irq = s.regs.ie ∧ t.regs.done = true ∧ t.regs.ovr = s.regs.ovr) ∧
  State.reset.irq = false

/-- 20_memory R81: a program or erase command that publishes OK has seen the device idle: no operation is in progress at
its publish, so its effect is in the array. -/
def Obligations.OkFromAProgramOrEraseMeansTheDeviceIsIdle : Prop :=
  ∀ (s t : State) (code : Code), s.sq.step = .idle → s.bus.csN = true → 0x2#4 ≤ code → code ≤ 0x6#4 →
    exec (decodeCode code) s = .next t → t.regs.result = .ok → t.dev.busy = false

/-- 45_device R237, 44_identification R201: two READ_ID commands with the same selector 0x00 or 0x01, both on an idle
device, publish the same RDATA, whatever lies between them. -/
def Obligations.ReadIdIsRepeatable : Prop :=
  ∀ s s' t t' : State, s.sq.step = .idle → s.bus.csN = true → s.dev.busy = false →
    s'.sq.step = .idle → s'.bus.csN = true → s'.dev.busy = false →
    s.regs.wdata = s'.regs.wdata → (s.regs.wdata = 0x00#8 ∨ s.regs.wdata = 0x01#8) →
    exec .readId s = .next t → exec .readId s' = .next t' → t.regs.rdata = t'.regs.rdata

/-- 70_reset R300: a run that is over stays over, whatever else happens than an access (idle cycles, resets, losses of
power), and the array keeps its bytes. Across a loss of power this rests on the model's choice that power returns in the
same cycle with reset held (log entry 12). -/
def Obligations.RunsThatAreOverStayOver : Prop :=
  ∀ s : State, RunOver s → ∃ t, step s = .next t ∧ RunOver t ∧ t.dev.array = s.dev.array ∧ t.port = s.port.tail

/-- 40_transport R131, 20_memory R73: after the start of a byte's exchange and i further bits, MOSI carries bit 7 - i of
it: the most significant bit goes first. -/
def Obligations.MosiCarriesTheByteMostSignificantBitFirst : Prop :=
  ∀ (c : Env) (b : Byte) (s : State) (i : Nat), i < 8 →
    (nextBit^[i] (startByte c b s)).bus.mosi = b.getLsbD (7 - i) ∧
    (nextBit^[i] (startByte c b s)).bus.sck = false ∧
    (nextBit^[i] (startByte c b s)).bus.bitCtr = BitVec.ofNat 3 (7 - i)
end

