-- ==== Sys2Proof/Laws/Memory.lean ====
section
/-! SUPPORT. The laws of the array operations: a read after a write or a fill, and that both keep the canonical form and
the range of addresses. -/

namespace Sys2Proof.Machine

variable {base g : Nat → Byte} {m : List Host.Cell}

/-- A canonical list has a canonical tail, and its first address lies below the rest. -/
theorem Memory.wf_cons {p : Host.Cell} (h : Memory.wf base (p :: m)) :
    Memory.wf base m ∧ (∀ q ∈ m, p.1 < q.1) ∧ p.2 ≠ base p.1 := by
  obtain ⟨hp, hne⟩ := h
  rw [List.pairwise_cons] at hp
  exact ⟨⟨hp.2, fun q hq => hne q (List.mem_cons_of_mem _ hq)⟩, hp.1, hne p List.mem_cons_self⟩

/-- An address below every listed one reads as an unlisted address. -/
theorem Memory.read_of_lt {a : Nat} (h : ∀ q ∈ m, a < q.1) : Memory.read base m a = base a := by
  induction m with
  | nil => rfl
  | cons q m ih =>
    have h1 : q.1 ≠ a := (h q List.mem_cons_self).ne'
    simp only [Memory.read, h1, if_false]
    exact ih fun r hr => h r (List.mem_cons_of_mem _ hr)

/-- Every address a write lists is the one written or was listed before. -/
theorem Memory.mem_write {a : Nat} {v : Byte} {p : Host.Cell} (h : p ∈ Memory.write base m a v) :
    p = (a, v) ∨ p ∈ m := by
  induction m with
  | nil =>
    simp only [Memory.write] at h
    split at h <;> simp_all
  | cons q m ih =>
    obtain ⟨b, w⟩ := q
    simp only [Memory.write] at h
    split at h
    · split at h <;> simp_all
    · split at h
      · split at h
        · exact .inr (List.mem_cons_of_mem _ h)
        · simp only [List.mem_cons] at h ⊢
          tauto
      · simp only [List.mem_cons] at h ⊢
        rcases h with h | h
        · exact .inr (.inl h)
        · rcases ih h with h | h
          · exact .inl h
          · exact .inr (.inr h)

/-- A write keeps the canonical form. -/
theorem Memory.wf_write (h : Memory.wf base m) (a : Nat) (v : Byte) : Memory.wf base (Memory.write base m a v) := by
  induction m with
  | nil =>
    simp only [Memory.write]
    split
    · exact h
    · rename_i hv
      exact ⟨List.pairwise_singleton _ _, by simpa using hv⟩
  | cons q m ih =>
    obtain ⟨b, w⟩ := q
    obtain ⟨hm, hlt, hne⟩ := Memory.wf_cons h
    simp only [Memory.write]
    split
    · rename_i hab
      split
      · exact h
      · rename_i hv
        refine ⟨List.pairwise_cons.2 ⟨?_, h.1⟩, ?_⟩
        · intro r hr
          rcases List.mem_cons.1 hr with rfl | hr
          · exact hab
          · exact hab.trans (hlt r hr)
        · intro r hr
          rcases List.mem_cons.1 hr with rfl | hr
          · exact hv
          · exact h.2 r hr
    · split
      · rename_i hab
        subst hab
        split
        · exact hm
        · rename_i hv
          refine ⟨List.pairwise_cons.2 ⟨hlt, hm.1⟩, ?_⟩
          intro r hr
          rcases List.mem_cons.1 hr with rfl | hr
          · exact hv
          · exact hm.2 r hr
      · rename_i h1 h2
        have hw := ih hm
        refine ⟨List.pairwise_cons.2 ⟨?_, hw.1⟩, ?_⟩
        · intro r hr
          rcases Memory.mem_write hr with rfl | hr
          · simp only; omega
          · exact hlt r hr
        · intro r hr
          rcases List.mem_cons.1 hr with rfl | hr
          · exact hne
          · exact hw.2 r hr

/-- A read after a write: the byte written at its address, and every other byte as before. -/
theorem Memory.read_write (h : Memory.wf base m) (a b : Nat) (v : Byte) :
    Memory.read base (Memory.write base m a v) b = if b = a then v else Memory.read base m b := by
  induction m with
  | nil =>
    simp only [Memory.write]
    split <;> simp only [Memory.read] <;> split <;> simp_all
    omega
  | cons q m ih =>
    obtain ⟨x, w⟩ := q
    obtain ⟨hm, hlt, hne⟩ := Memory.wf_cons h
    have ih := ih hm
    simp only [Memory.write]
    split
    · rename_i hax
      have hb : b = a → Memory.read base ((x, w) :: m) b = base a := by
        rintro rfl
        exact Memory.read_of_lt fun r hr => by
          rcases List.mem_cons.1 hr with rfl | hr
          · exact hax
          · exact hax.trans (hlt r hr)
      split
      · rename_i hv
        split
        · rename_i hba; rw [hb hba, hv]
        · rfl
      · conv_lhs => unfold Memory.read
        by_cases hba : b = a
        · simp [hba]
        · simp [hba, Ne.symm hba]
    · split
      · rename_i hax
        subst hax
        split
        · rename_i hv
          by_cases hba : b = a
          · subst hba; simp [Memory.read_of_lt hlt, hv]
          · simp [Memory.read, hba, Ne.symm hba]
        · by_cases hba : b = a
          · simp [Memory.read, hba]
          · simp [Memory.read, hba, Ne.symm hba]
      · rename_i h1 h2
        simp only [Memory.read, ih]
        by_cases hxb : x = b
        · subst hxb; simp [Ne.symm h2]
        · simp [hxb]

/-- What an address of a cell list made for `[lo, lo + n)` is. -/
theorem Memory.mem_cells {lo n : Nat} {p : Host.Cell} :
    p ∈ Memory.cells base g lo n ↔ lo ≤ p.1 ∧ p.1 < lo + n ∧ p.2 = g p.1 ∧ g p.1 ≠ base p.1 := by
  obtain ⟨x, v⟩ := p
  simp only [Memory.cells, List.mem_filterMap, List.mem_range'_1]
  constructor
  · rintro ⟨y, ⟨h1, h2⟩, h3⟩
    split at h3
    · cases h3
    · rename_i hne
      cases h3
      exact ⟨h1, h2, rfl, hne⟩
  · rintro ⟨h1, h2, h3, h4⟩
    exact ⟨x, ⟨h1, h2⟩, by simp_all⟩

/-- The cells of a range are in canonical form. -/
theorem Memory.wf_cells (lo n : Nat) : Memory.wf base (Memory.cells base g lo n) := by
  constructor
  · unfold Memory.cells
    rw [List.pairwise_filterMap]
    refine (List.pairwise_lt_range' (s := lo) (n := n)).imp ?_
    intro x y hxy p hp q hq
    split at hp
    · cases hp
    · split at hq
      · cases hq
      · cases hp; cases hq; exact hxy
  · intro p hp
    obtain ⟨-, -, h3, h4⟩ := Memory.mem_cells.1 hp
    rw [h3]; exact h4

/-- Every address a fill lists lies in the range or was listed before. -/
theorem Memory.mem_fill {lo hi : Nat} {p : Host.Cell} :
    p ∈ Memory.fill base g m lo hi ↔
      (p ∈ m ∧ (p.1 < lo ∨ hi ≤ p.1)) ∨ (lo ≤ p.1 ∧ p.1 < hi ∧ p.2 = g p.1 ∧ g p.1 ≠ base p.1) := by
  simp only [Memory.fill, List.mem_append, List.mem_filter, Memory.mem_cells, Bool.and_eq_true, decide_eq_true_eq]
  constructor
  · rintro ((⟨h1, h2⟩ | ⟨h1, h2, h3⟩) | ⟨h1, h2, h3⟩)
    · exact .inl ⟨h1, .inl h2⟩
    · exact .inr ⟨h1, by omega, h3⟩
    · exact .inl ⟨h1, .inr h3⟩
  · rintro (⟨h1, h2⟩ | ⟨h1, h2, h3⟩)
    · by_cases h : p.1 < lo
      · exact .inl (.inl ⟨h1, h⟩)
      · exact .inr ⟨h1, by omega, by omega⟩
    · exact .inl (.inr ⟨h1, by omega, h3⟩)

/-- A fill keeps the canonical form. -/
theorem Memory.wf_fill (h : Memory.wf base m) (lo hi : Nat) : Memory.wf base (Memory.fill base g m lo hi) := by
  constructor
  · unfold Memory.fill
    rw [List.pairwise_append, List.pairwise_append]
    refine ⟨⟨h.1.filter _, (Memory.wf_cells lo (hi - lo)).1, ?_⟩, h.1.filter _, ?_⟩
    · intro p hp q hq
      have h1 := (List.mem_filter.1 hp).2
      have h2 := (Memory.mem_cells.1 hq).1
      simp only [decide_eq_true_eq] at h1
      omega
    · intro p hp q hq
      have h2 := (List.mem_filter.1 hq).2
      simp only [Bool.and_eq_true, decide_eq_true_eq] at h2
      rcases List.mem_append.1 hp with hp | hp
      · have h1 := (List.mem_filter.1 hp).2
        simp only [decide_eq_true_eq] at h1
        omega
      · obtain ⟨h3, h4, -⟩ := Memory.mem_cells.1 hp
        omega
  · intro p hp
    rcases Memory.mem_fill.1 hp with ⟨h1, -⟩ | ⟨-, -, h3, h4⟩
    · exact h.2 p h1
    · rw [h3]; exact h4

/-- A canonical list reads as the cell it lists. -/
theorem Memory.read_of_mem (h : Memory.wf base m) {p : Host.Cell} (hp : p ∈ m) : Memory.read base m p.1 = p.2 := by
  induction m with
  | nil => cases hp
  | cons q m ih =>
    obtain ⟨hm, hlt, -⟩ := Memory.wf_cons h
    rcases List.mem_cons.1 hp with rfl | hp
    · simp [Memory.read]
    · simp only [Memory.read, (hlt p hp).ne, if_false]
      exact ih hm hp

/-- An address a list does not list reads as an unlisted one. -/
theorem Memory.read_of_not_mem {a : Nat} (h : ∀ p ∈ m, p.1 ≠ a) : Memory.read base m a = base a := by
  induction m with
  | nil => rfl
  | cons q m ih =>
    simp only [Memory.read, h q List.mem_cons_self, if_false]
    exact ih fun p hp => h p (List.mem_cons_of_mem _ hp)

/-- A byte a canonical list reads as is listed, or is what an unlisted address reads as. -/
theorem Memory.mem_or_unlisted (base : Nat → Byte) (m : List Host.Cell) (a : Nat) :
    (a, Memory.read base m a) ∈ m ∨ ((∀ p ∈ m, p.1 ≠ a) ∧ Memory.read base m a = base a) := by
  induction m with
  | nil => exact .inr ⟨by simp, rfl⟩
  | cons q m ih =>
    obtain ⟨b, w⟩ := q
    by_cases hba : b = a
    · subst hba; exact .inl (by simp [Memory.read])
    · simp only [Memory.read, hba, if_false]
      rcases ih with h | ⟨h1, h2⟩
      · exact .inl (List.mem_cons_of_mem _ h)
      · refine .inr ⟨?_, h2⟩
        intro p hp
        rcases List.mem_cons.1 hp with rfl | hp
        · exact hba
        · exact h1 p hp

/-- A read after a fill: `g` within the range, and every other byte as before. -/
theorem Memory.read_fill (h : Memory.wf base m) (lo hi b : Nat) :
    Memory.read base (Memory.fill base g m lo hi) b =
      if lo ≤ b ∧ b < hi then g b else Memory.read base m b := by
  have hw := Memory.wf_fill (g := g) h lo hi
  split
  · rename_i hb
    by_cases hg : g b = base b
    · rw [hg]
      refine Memory.read_of_not_mem fun p hp hpb => ?_
      rcases Memory.mem_fill.1 hp with ⟨-, h2⟩ | ⟨-, -, -, h4⟩
      · omega
      · exact h4 (by rw [hpb]; exact hg)
    · exact Memory.read_of_mem hw (p := (b, g b)) (Memory.mem_fill.2 (.inr ⟨hb.1, hb.2, rfl, hg⟩))
  · rename_i hb
    rcases Memory.mem_or_unlisted base m b with h1 | ⟨h1, h2⟩
    · exact Memory.read_of_mem hw (p := (b, Memory.read base m b))
        (Memory.mem_fill.2 (.inl ⟨h1, by simp only; omega⟩))
    · rw [h2]
      refine Memory.read_of_not_mem fun p hp hpb => ?_
      rcases Memory.mem_fill.1 hp with ⟨h3, -⟩ | ⟨h3, h4, -⟩
      · exact h1 p h3 hpb
      · omega

end Sys2Proof.Machine
end

