-- ==== Sys2Proof/Laws/State.lean ====
section
/-! SUPPORT. What each named operation leaves of each part of the state: one lemma for a part and an operation, so that no
later proof unfolds a record update. -/

namespace Sys2Proof.Machine

variable (s : State)

@[simp] theorem drive_regs (c : Env) (r : Option Byte) : (drive c r s).regs = s.regs := rfl
@[simp] theorem drive_bus (c : Env) (r : Option Byte) : (drive c r s).bus = s.bus := rfl
@[simp] theorem drive_sq (c : Env) (r : Option Byte) : (drive c r s).sq = s.sq := rfl
@[simp] theorem drive_port (c : Env) (r : Option Byte) : (drive c r s).port = s.port := rfl
@[simp] theorem drive_hRdata (c : Env) (r : Option Byte) : (drive c r s).hRdata = s.hRdata := rfl
@[simp] theorem drive_now (c : Env) (r : Option Byte) : (drive c r s).now = s.now := rfl

@[simp] theorem freeWel_regs (c : Env) : (freeWel c s).regs = s.regs := rfl
@[simp] theorem freeWel_bus (c : Env) : (freeWel c s).bus = s.bus := rfl
@[simp] theorem freeWel_sq (c : Env) : (freeWel c s).sq = s.sq := rfl
@[simp] theorem freeWel_port (c : Env) : (freeWel c s).port = s.port := rfl
@[simp] theorem freeWel_hRdata (c : Env) : (freeWel c s).hRdata = s.hRdata := rfl
@[simp] theorem freeWel_now (c : Env) : (freeWel c s).now = s.now := rfl

@[simp] theorem elapse_regs (c : Env) (n : Nat) : (elapse c n s).regs = s.regs := rfl
@[simp] theorem elapse_bus (c : Env) (n : Nat) : (elapse c n s).bus = s.bus := rfl
@[simp] theorem elapse_sq (c : Env) (n : Nat) : (elapse c n s).sq = s.sq := rfl
@[simp] theorem elapse_port (c : Env) (n : Nat) : (elapse c n s).port = s.port := rfl
@[simp] theorem elapse_hRdata (c : Env) (n : Nat) : (elapse c n s).hRdata = s.hRdata := rfl
@[simp] theorem elapse_free (c : Env) (n : Nat) : (elapse c n s).free = s.free := rfl

@[simp] theorem csFall_regs : (csFall s).regs = s.regs := rfl
@[simp] theorem csFall_sq : (csFall s).sq = s.sq := rfl
@[simp] theorem csFall_port : (csFall s).port = s.port := rfl
@[simp] theorem csFall_hRdata : (csFall s).hRdata = s.hRdata := rfl
@[simp] theorem csFall_now : (csFall s).now = s.now := rfl
@[simp] theorem csFall_free : (csFall s).free = s.free := rfl

@[simp] theorem csRise_regs (c : Env) : (csRise c s).regs = s.regs := rfl
@[simp] theorem csRise_sq (c : Env) : (csRise c s).sq = s.sq := rfl
@[simp] theorem csRise_port (c : Env) : (csRise c s).port = s.port := rfl
@[simp] theorem csRise_hRdata (c : Env) : (csRise c s).hRdata = s.hRdata := rfl
@[simp] theorem csRise_now (c : Env) : (csRise c s).now = s.now := rfl
@[simp] theorem csRise_free (c : Env) : (csRise c s).free = s.free := rfl

@[simp] theorem releaseHeld_regs (c : Env) : (releaseHeld c s).regs = s.regs := rfl
@[simp] theorem releaseHeld_bus (c : Env) : (releaseHeld c s).bus = s.bus := rfl
@[simp] theorem releaseHeld_sq (c : Env) : (releaseHeld c s).sq = s.sq := rfl
@[simp] theorem releaseHeld_port (c : Env) : (releaseHeld c s).port = s.port := rfl
@[simp] theorem releaseHeld_hRdata (c : Env) : (releaseHeld c s).hRdata = s.hRdata := rfl
@[simp] theorem releaseHeld_now (c : Env) : (releaseHeld c s).now = s.now := rfl
@[simp] theorem releaseHeld_free (c : Env) : (releaseHeld c s).free = s.free := rfl

@[simp] theorem takeFrame_regs : (takeFrame s).regs = s.regs := rfl
@[simp] theorem takeFrame_bus : (takeFrame s).bus = s.bus := rfl
@[simp] theorem takeFrame_sq : (takeFrame s).sq = s.sq := rfl
@[simp] theorem takeFrame_port : (takeFrame s).port = s.port := rfl
@[simp] theorem takeFrame_hRdata : (takeFrame s).hRdata = s.hRdata := rfl
@[simp] theorem takeFrame_now : (takeFrame s).now = s.now := rfl
@[simp] theorem takeFrame_free : (takeFrame s).free = s.free := rfl

@[simp] theorem answer_regs (c : Env) : (answer c s).regs = s.regs := rfl
@[simp] theorem answer_bus (c : Env) : (answer c s).bus = s.bus := rfl
@[simp] theorem answer_sq (c : Env) : (answer c s).sq = s.sq := rfl
@[simp] theorem answer_port (c : Env) : (answer c s).port = s.port := rfl
@[simp] theorem answer_hRdata (c : Env) : (answer c s).hRdata = s.hRdata := rfl
@[simp] theorem answer_now (c : Env) : (answer c s).now = s.now := rfl

@[simp] theorem accept_bus (code : Code) (q : Latches → Bool → List Action) : (accept code q s).bus = s.bus := rfl
@[simp] theorem accept_dev (code : Code) (q : Latches → Bool → List Action) : (accept code q s).dev = s.dev := rfl
@[simp] theorem accept_port (code : Code) (q : Latches → Bool → List Action) : (accept code q s).port = s.port := rfl
@[simp] theorem accept_hRdata (code : Code) (q : Latches → Bool → List Action) : (accept code q s).hRdata = s.hRdata := rfl
@[simp] theorem accept_now (code : Code) (q : Latches → Bool → List Action) : (accept code q s).now = s.now := rfl
@[simp] theorem accept_free (code : Code) (q : Latches → Bool → List Action) : (accept code q s).free = s.free := rfl

@[simp] theorem overrun_bus : (overrun s).bus = s.bus := rfl
@[simp] theorem overrun_sq : (overrun s).sq = s.sq := rfl
@[simp] theorem overrun_dev : (overrun s).dev = s.dev := rfl
@[simp] theorem overrun_port : (overrun s).port = s.port := rfl
@[simp] theorem overrun_hRdata : (overrun s).hRdata = s.hRdata := rfl
@[simp] theorem overrun_now : (overrun s).now = s.now := rfl
@[simp] theorem overrun_free : (overrun s).free = s.free := rfl

@[simp] theorem publish_bus (c : Env) : (publish c s).bus = s.bus := rfl
@[simp] theorem publish_dev (c : Env) : (publish c s).dev = s.dev := rfl
@[simp] theorem publish_port (c : Env) : (publish c s).port = s.port := rfl
@[simp] theorem publish_hRdata (c : Env) : (publish c s).hRdata = s.hRdata := rfl
@[simp] theorem publish_now (c : Env) : (publish c s).now = s.now := rfl
@[simp] theorem publish_free (c : Env) : (publish c s).free = s.free := rfl

@[simp] theorem writeCtrl_bus (v : Word) : (writeCtrl v s).bus = s.bus := rfl
@[simp] theorem writeCtrl_sq (v : Word) : (writeCtrl v s).sq = s.sq := rfl
@[simp] theorem writeCtrl_dev (v : Word) : (writeCtrl v s).dev = s.dev := rfl
@[simp] theorem writeCtrl_port (v : Word) : (writeCtrl v s).port = s.port := rfl
@[simp] theorem writeCtrl_hRdata (v : Word) : (writeCtrl v s).hRdata = s.hRdata := rfl
@[simp] theorem writeCtrl_now (v : Word) : (writeCtrl v s).now = s.now := rfl
@[simp] theorem writeCtrl_free (v : Word) : (writeCtrl v s).free = s.free := rfl

@[simp] theorem writeStatus_bus (v : Word) : (writeStatus v s).bus = s.bus := rfl
@[simp] theorem writeStatus_sq (v : Word) : (writeStatus v s).sq = s.sq := rfl
@[simp] theorem writeStatus_dev (v : Word) : (writeStatus v s).dev = s.dev := rfl
@[simp] theorem writeStatus_port (v : Word) : (writeStatus v s).port = s.port := rfl
@[simp] theorem writeStatus_hRdata (v : Word) : (writeStatus v s).hRdata = s.hRdata := rfl
@[simp] theorem writeStatus_now (v : Word) : (writeStatus v s).now = s.now := rfl
@[simp] theorem writeStatus_free (v : Word) : (writeStatus v s).free = s.free := rfl

@[simp] theorem writeAddr_bus (v : Word) : (writeAddr v s).bus = s.bus := rfl
@[simp] theorem writeAddr_sq (v : Word) : (writeAddr v s).sq = s.sq := rfl
@[simp] theorem writeAddr_dev (v : Word) : (writeAddr v s).dev = s.dev := rfl
@[simp] theorem writeAddr_port (v : Word) : (writeAddr v s).port = s.port := rfl
@[simp] theorem writeAddr_hRdata (v : Word) : (writeAddr v s).hRdata = s.hRdata := rfl
@[simp] theorem writeAddr_now (v : Word) : (writeAddr v s).now = s.now := rfl
@[simp] theorem writeAddr_free (v : Word) : (writeAddr v s).free = s.free := rfl

@[simp] theorem writeWdata_bus (v : Word) : (writeWdata v s).bus = s.bus := rfl
@[simp] theorem writeWdata_sq (v : Word) : (writeWdata v s).sq = s.sq := rfl
@[simp] theorem writeWdata_dev (v : Word) : (writeWdata v s).dev = s.dev := rfl
@[simp] theorem writeWdata_port (v : Word) : (writeWdata v s).port = s.port := rfl
@[simp] theorem writeWdata_hRdata (v : Word) : (writeWdata v s).hRdata = s.hRdata := rfl
@[simp] theorem writeWdata_now (v : Word) : (writeWdata v s).now = s.now := rfl
@[simp] theorem writeWdata_free (v : Word) : (writeWdata v s).free = s.free := rfl

@[simp] theorem powerCycle_regs (c : Env) : (powerCycle c s).regs = HostRegs.reset := rfl
@[simp] theorem powerCycle_bus (c : Env) : (powerCycle c s).bus = Bus.reset := rfl
@[simp] theorem powerCycle_sq (c : Env) : (powerCycle c s).sq = Sequencer.reset := rfl
@[simp] theorem powerCycle_port (c : Env) : (powerCycle c s).port = s.port := rfl
@[simp] theorem powerCycle_hRdata (c : Env) : (powerCycle c s).hRdata = c.d.rdata s.free.power := rfl
@[simp] theorem powerCycle_now (c : Env) : (powerCycle c s).now = s.now + 1 := rfl

@[simp] theorem fcsReset_dev : (fcsReset s).dev = s.dev := rfl
@[simp] theorem fcsReset_port : (fcsReset s).port = s.port := rfl
@[simp] theorem fcsReset_hRdata : (fcsReset s).hRdata = s.hRdata := rfl
@[simp] theorem fcsReset_now : (fcsReset s).now = s.now := rfl
@[simp] theorem fcsReset_free : (fcsReset s).free = s.free := rfl

@[simp] theorem endFrame_regs (b : Bool) : (endFrame b s).regs = s.regs := rfl
@[simp] theorem endFrame_bus (b : Bool) : (endFrame b s).bus = s.bus := rfl
@[simp] theorem endFrame_sq (b : Bool) : (endFrame b s).sq = s.sq := rfl
@[simp] theorem endFrame_port (b : Bool) : (endFrame b s).port = s.port := rfl
@[simp] theorem endFrame_hRdata (b : Bool) : (endFrame b s).hRdata = s.hRdata := rfl
@[simp] theorem endFrame_now (b : Bool) : (endFrame b s).now = s.now := rfl
@[simp] theorem endFrame_free (b : Bool) : (endFrame b s).free = s.free := rfl

@[simp] theorem setWel_regs (b : Bool) : (setWel b s).regs = s.regs := rfl
@[simp] theorem setWel_bus (b : Bool) : (setWel b s).bus = s.bus := rfl
@[simp] theorem setWel_sq (b : Bool) : (setWel b s).sq = s.sq := rfl
@[simp] theorem setWel_port (b : Bool) : (setWel b s).port = s.port := rfl
@[simp] theorem setWel_hRdata (b : Bool) : (setWel b s).hRdata = s.hRdata := rfl
@[simp] theorem setWel_now (b : Bool) : (setWel b s).now = s.now := rfl
@[simp] theorem setWel_free (b : Bool) : (setWel b s).free = s.free := rfl

@[simp] theorem startOp_regs (c : Env) (p : Pending) : (startOp c p s).regs = s.regs := rfl
@[simp] theorem startOp_bus (c : Env) (p : Pending) : (startOp c p s).bus = s.bus := rfl
@[simp] theorem startOp_sq (c : Env) (p : Pending) : (startOp c p s).sq = s.sq := rfl
@[simp] theorem startOp_port (c : Env) (p : Pending) : (startOp c p s).port = s.port := rfl
@[simp] theorem startOp_hRdata (c : Env) (p : Pending) : (startOp c p s).hRdata = s.hRdata := rfl
@[simp] theorem startOp_now (c : Env) (p : Pending) : (startOp c p s).now = s.now := rfl

@[simp] theorem ignoreFrame_regs (c : Env) : (ignoreFrame c s).regs = s.regs := rfl
@[simp] theorem ignoreFrame_bus (c : Env) : (ignoreFrame c s).bus = s.bus := rfl
@[simp] theorem ignoreFrame_sq (c : Env) : (ignoreFrame c s).sq = s.sq := rfl
@[simp] theorem ignoreFrame_port (c : Env) : (ignoreFrame c s).port = s.port := rfl
@[simp] theorem ignoreFrame_hRdata (c : Env) : (ignoreFrame c s).hRdata = s.hRdata := rfl
@[simp] theorem ignoreFrame_now (c : Env) : (ignoreFrame c s).now = s.now := rfl

@[simp] theorem elapse_now' (c : Env) (n : Nat) : (elapse c n s).now = s.now + n := rfl
@[simp] theorem elapse_dev (c : Env) (n : Nat) : (elapse c n s).dev = elapseDev c s.bus.csN n s.dev := rfl
@[simp] theorem csFall_csN : (csFall s).bus.csN = false := rfl
@[simp] theorem csFall_dev : (csFall s).dev = { s.dev with rx := [] } := rfl
@[simp] theorem csRise_csN (c : Env) : (csRise c s).bus.csN = true := rfl
@[simp] theorem csRise_dev (c : Env) :
    (csRise c s).dev = if s.dev.rx.isEmpty then completeHeld c s.dev else s.dev := rfl
@[simp] theorem releaseHeld_dev (c : Env) : (releaseHeld c s).dev = completeHeld c s.dev := rfl
@[simp] theorem takeFrame_dev : (takeFrame s).dev = { s.dev with rx := [] } := rfl
@[simp] theorem drive_dev (c : Env) (r : Option Byte) :
    (drive c r s).dev = { s.dev with out := r.getD (c.d.miso s.free.miso) } := rfl
@[simp] theorem answer_dev (c : Env) :
    (answer c s).dev =
      { s.dev with out := (if s.bus.csN then none else response c s.dev).getD (c.d.miso s.free.miso) } := rfl
@[simp] theorem endFrame_dev (b : Bool) : (endFrame b s).dev = { s.dev with ewsrArmed := b } := rfl
@[simp] theorem setWel_dev (b : Bool) : (setWel b s).dev = { s.dev with wel := b } := rfl
@[simp] theorem freeWel_dev (c : Env) : (freeWel c s).dev = { s.dev with wel := c.d.wel s.free.wel } := rfl
@[simp] theorem startOp_dev (c : Env) (p : Pending) :
    (startOp c p s).dev = { s.dev with pending := some p, busy := true, left := c.d.delay s.free.delay } := rfl
@[simp] theorem ignoreFrame_dev (c : Env) :
    (ignoreFrame c s).dev = { s.dev with out := c.d.miso s.free.miso, ewsrArmed := false } := rfl
@[simp] theorem publish_idle (c : Env) : (publish c s).sq.step = .idle := rfl
@[simp] theorem publish_done (c : Env) : (publish c s).regs.done = true := rfl
@[simp] theorem overrun_ovr : (overrun s).regs.ovr = true := rfl
@[simp] theorem fcsReset_regs' : (fcsReset s).regs = HostRegs.reset := rfl
@[simp] theorem fcsReset_bus' : (fcsReset s).bus = Bus.reset := rfl
@[simp] theorem fcsReset_sq' : (fcsReset s).sq = Sequencer.reset := rfl

/-! ## Receiving and storing a byte -/

@[simp] theorem receive_regs (b : Byte) : (receive b s).regs = s.regs := by unfold receive; split <;> rfl
@[simp] theorem receive_bus (b : Byte) : (receive b s).bus = s.bus := by unfold receive; split <;> rfl
@[simp] theorem receive_sq (b : Byte) : (receive b s).sq = s.sq := by unfold receive; split <;> rfl
@[simp] theorem receive_port (b : Byte) : (receive b s).port = s.port := by unfold receive; split <;> rfl
@[simp] theorem receive_hRdata (b : Byte) : (receive b s).hRdata = s.hRdata := by unfold receive; split <;> rfl
@[simp] theorem receive_now (b : Byte) : (receive b s).now = s.now := by unfold receive; split <;> rfl
@[simp] theorem receive_free (b : Byte) : (receive b s).free = s.free := by unfold receive; split <;> rfl
@[simp] theorem receive_dev_selected (b : Byte) (h : s.bus.csN = false) :
    (receive b s).dev = { s.dev with sh := b, rx := s.dev.rx ++ [b] } := by simp [receive, h]
@[simp] theorem receive_deselected (b : Byte) (h : s.bus.csN = true) : receive b s = s := by simp [receive, h]

@[simp] theorem storeByte_regs (a : Action) (j : Nat) : (storeByte a j s).regs = s.regs := by
  unfold storeByte; split <;> [skip; split] <;> rfl
@[simp] theorem storeByte_bus (a : Action) (j : Nat) : (storeByte a j s).bus = s.bus := by
  unfold storeByte; split <;> [skip; split] <;> rfl
@[simp] theorem storeByte_dev (a : Action) (j : Nat) : (storeByte a j s).dev = s.dev := by
  unfold storeByte; split <;> [skip; split] <;> rfl
@[simp] theorem storeByte_port (a : Action) (j : Nat) : (storeByte a j s).port = s.port := by
  unfold storeByte; split <;> [skip; split] <;> rfl
@[simp] theorem storeByte_hRdata (a : Action) (j : Nat) : (storeByte a j s).hRdata = s.hRdata := by
  unfold storeByte; split <;> [skip; split] <;> rfl
@[simp] theorem storeByte_now (a : Action) (j : Nat) : (storeByte a j s).now = s.now := by
  unfold storeByte; split <;> [skip; split] <;> rfl
@[simp] theorem storeByte_free (a : Action) (j : Nat) : (storeByte a j s).free = s.free := by
  unfold storeByte; split <;> [skip; split] <;> rfl
@[simp] theorem storeByte_sq_step (a : Action) (j : Nat) : (storeByte a j s).sq.step = s.sq.step := by
  unfold storeByte; split <;> [skip; split] <;> rfl
@[simp] theorem storeByte_sq_seq (a : Action) (j : Nat) : (storeByte a j s).sq.seq = s.sq.seq := by
  unfold storeByte; split <;> [skip; split] <;> rfl
@[simp] theorem storeByte_sq_w (a : Action) (j : Nat) : (storeByte a j s).sq.w = s.sq.w := by
  unfold storeByte; split <;> [skip; split] <;> rfl
@[simp] theorem storeByte_sq_waitCtr (a : Action) (j : Nat) : (storeByte a j s).sq.waitCtr = s.sq.waitCtr := by
  unfold storeByte; split <;> [skip; split] <;> rfl
@[simp] theorem storeByte_sq_phase (a : Action) (j : Nat) : (storeByte a j s).sq.phase = s.sq.phase := by
  unfold storeByte; split <;> [skip; split] <;> rfl
@[simp] theorem storeByte_sq_byteIdx (a : Action) (j : Nat) : (storeByte a j s).sq.byteIdx = s.sq.byteIdx := by
  unfold storeByte; split <;> [skip; split] <;> rfl

@[simp] theorem exchange_regs (c : Env) (b : Byte) : (exchange c b s).regs = s.regs := by simp [exchange]
@[simp] theorem exchange_sq (c : Env) (b : Byte) : (exchange c b s).sq = s.sq := by simp [exchange]
@[simp] theorem exchange_port (c : Env) (b : Byte) : (exchange c b s).port = s.port := by simp [exchange]
@[simp] theorem exchange_hRdata (c : Env) (b : Byte) : (exchange c b s).hRdata = s.hRdata := by simp [exchange]
@[simp] theorem exchange_now (c : Env) (b : Byte) : (exchange c b s).now = s.now := by simp [exchange]
@[simp] theorem exchange_csN (c : Env) (b : Byte) : (exchange c b s).bus.csN = s.bus.csN := by simp [exchange]
@[simp] theorem exchange_gapCtr (c : Env) (b : Byte) : (exchange c b s).bus.gapCtr = s.bus.gapCtr := by simp [exchange]
@[simp] theorem exchange_rxHold (c : Env) (b : Byte) : (exchange c b s).bus.rxHold = (answer c s).dev.out := by
  simp [exchange]
theorem exchange_dev_selected (c : Env) (b : Byte) (h : s.bus.csN = false) :
    (exchange c b s).dev = { (answer c s).dev with sh := b, rx := s.dev.rx ++ [b] } := by
  simp [exchange, receive, h]
theorem exchange_dev_deselected (c : Env) (b : Byte) (h : s.bus.csN = true) :
    (exchange c b s).dev = (answer c s).dev := by
  simp [exchange, receive, h]

end Sys2Proof.Machine
end

