-- ==== Sys2Proof/Laws/Device.lean ====
section
/-! SUPPORT. What elapsing time and each frame leave of the device: one lemma for each operation. -/

namespace Sys2Proof.Machine

variable {c : Env} {s t : State} {v : Device}

/-! ## Elapsing time -/

@[simp] theorem elapseDev_rx (csN : Bool) (n : Nat) : (elapseDev c csN n v).rx = v.rx := rfl

/-- Where no completion falls due, only the countdown moves. -/
theorem elapseDev_of_not_due {csN : Bool} {n : Nat} (h : completionDue csN n v = false) :
    elapseDev c csN n v = { v with left := v.left.map (fun k => k - n) } := by
  simp [elapseDev, h]

/-- Where it falls due, the completion step is taken. -/
theorem elapseDev_of_due {csN : Bool} {n : Nat} (h : completionDue csN n v = true) :
    elapseDev c csN n v = complete c v := by
  simp [elapseDev, h, complete]

theorem elapseDev_selected (n : Nat) :
    elapseDev c false n v = { v with left := v.left.map (fun k => k - n) } :=
  elapseDev_of_not_due (by simp [completionDue])

theorem elapseDev_idle (csN : Bool) (n : Nat) (h : v.busy = false) :
    elapseDev c csN n v = { v with left := v.left.map (fun k => k - n) } :=
  elapseDev_of_not_due (by simp [completionDue, h])

theorem completionDue_steady {csN : Bool} {n : Nat} (h : v.busy = true → ∀ k, v.left = some k → n < k) :
    completionDue csN n v = false := by
  unfold completionDue
  cases hb : v.busy
  · simp
  · cases hl : v.left with
    | none => simp
    | some k =>
      have := h hb k hl
      have hk : ¬ k ≤ n := by omega
      simp [hk]

theorem elapseDev_steady (csN : Bool) (n : Nat) (h : v.busy = true → ∀ k, v.left = some k → n < k) :
    elapseDev c csN n v = { v with left := v.left.map (fun k => k - n) } :=
  elapseDev_of_not_due (completionDue_steady h)

/-- Elapsing n edges and then m more, with cs_n unchanged, is elapsing their sum. -/
theorem elapseDev_add (csN : Bool) (n m : Nat) :
    elapseDev c csN m (elapseDev c csN n v) = elapseDev c csN (n + m) v := by
  cases csN
  · simp [elapseDev_selected, Option.map_map, Function.comp_def, Nat.sub_sub]
  · cases hb : v.busy
    · rw [elapseDev_idle (n := n) true hb, elapseDev_idle (n := n + m) true hb, elapseDev_idle true m (by exact hb)]
      simp [Option.map_map, Function.comp_def, Nat.sub_sub]
    · cases hl : v.left with
      | none =>
        have hn : ∀ n, completionDue true n v = false := fun n => by simp [completionDue, hl]
        rw [elapseDev_of_not_due (hn n), elapseDev_of_not_due (hn _),
          elapseDev_of_not_due (by simp [completionDue, hl])]
        simp [hl]
      | some k =>
        by_cases h1 : 0 < n ∧ k ≤ n
        · have hd : completionDue true n v = true := by simp [completionDue, hb, hl, h1.1, h1.2]
          have hd' : completionDue true (n + m) v = true := by
            simp [completionDue, hb, hl]; omega
          rw [elapseDev_of_due hd, elapseDev_of_due hd', elapseDev_idle true m rfl]
          simp [complete]
        · have hd : completionDue true n v = false := by
            cases h : completionDue true n v
            · rfl
            · simp [completionDue, hb, hl] at h; exact absurd h h1
          rw [elapseDev_of_not_due hd]
          by_cases h2 : 0 < n + m ∧ k ≤ n + m
          · have hd2 : completionDue true (n + m) v = true := by simp [completionDue, hb, hl, h2.2]; omega
            have hd3 : completionDue true m { v with left := v.left.map (fun k => k - n) } = true := by
              simp [completionDue, hb, hl]
              omega
            rw [elapseDev_of_due hd2, elapseDev_of_due hd3]
            simp [complete]
          · have hd2 : completionDue true (n + m) v = false := by
              cases h : completionDue true (n + m) v
              · rfl
              · simp [completionDue, hb, hl] at h; omega
            have hd3 : completionDue true m { v with left := v.left.map (fun k => k - n) } = false := by
              cases h : completionDue true m { v with left := v.left.map (fun k => k - n) }
              · rfl
              · simp [completionDue, hb, hl] at h; omega
            rw [elapseDev_of_not_due hd2, elapseDev_of_not_due hd3]
            simp [hl, Nat.sub_sub]

theorem elapse_add (n m : Nat) : elapse c m (elapse c n s) = elapse c (n + m) s := by
  simp [elapse, elapseDev_add, Nat.add_assoc]

@[simp] theorem elapseDev_srOther (csN : Bool) (n : Nat) : (elapseDev c csN n v).srOther = v.srOther := by
  unfold elapseDev; split <;> rfl
@[simp] theorem elapseDev_ewsrArmed (csN : Bool) (n : Nat) : (elapseDev c csN n v).ewsrArmed = v.ewsrArmed := by
  unfold elapseDev; split <;> rfl
@[simp] theorem elapseDev_out (csN : Bool) (n : Nat) : (elapseDev c csN n v).out = v.out := by
  unfold elapseDev; split <;> rfl
@[simp] theorem elapseDev_sh (csN : Bool) (n : Nat) : (elapseDev c csN n v).sh = v.sh := by
  unfold elapseDev; split <;> rfl

/-! ## An operation held up to a rising cs_n edge (45_device R232) -/

/-- Where one is, the completion step is taken. -/
theorem completeHeld_of_held (hb : v.busy = true) (hl : v.left = some 0) : completeHeld c v = complete c v :=
  if_pos ⟨hb, hl⟩

/-- Where none is, the device is as before. -/
theorem completeHeld_of_not (h : ¬(v.busy = true ∧ v.left = some 0)) : completeHeld c v = v := if_neg h

@[simp] theorem completeHeld_rx : (completeHeld c v).rx = v.rx := by unfold completeHeld; split <;> rfl
@[simp] theorem completeHeld_srOther : (completeHeld c v).srOther = v.srOther := by unfold completeHeld; split <;> rfl
@[simp] theorem completeHeld_ewsrArmed : (completeHeld c v).ewsrArmed = v.ewsrArmed := by
  unfold completeHeld; split <;> rfl
@[simp] theorem completeHeld_out : (completeHeld c v).out = v.out := by unfold completeHeld; split <;> rfl
@[simp] theorem completeHeld_sh : (completeHeld c v).sh = v.sh := by unfold completeHeld; split <;> rfl

/-- The edges after it, with cs_n = 1, find the same device whether or not it has completed the held operation. -/
theorem elapseDev_completeHeld {n : Nat} (hn : 0 < n) : elapseDev c true n (completeHeld c v) = elapseDev c true n v := by
  by_cases h : v.busy = true ∧ v.left = some 0
  · have hd : completionDue true n v = true := by simp [completionDue, h.1, h.2, hn]
    rw [completeHeld_of_held h.1 h.2, elapseDev_of_due hd, elapseDev_idle true n rfl]
    rfl
  · rw [completeHeld_of_not h]

/-- An edge with cs_n = 1 holds no operation up. -/
theorem completeHeld_elapseDev {n : Nat} (hn : 0 < n) : completeHeld c (elapseDev c true n v) = elapseDev c true n v := by
  cases hd : completionDue true n v
  · apply completeHeld_of_not
    rw [elapseDev_of_not_due hd]
    rintro ⟨hb, hl⟩
    obtain ⟨k, hk, hkn⟩ := Option.map_eq_some_iff.1 hl
    have : completionDue true n v = true := by
      simp only at hb
      simp [completionDue, hb, hk, hn]
      omega
    rw [hd] at this
    cases this
  · rw [elapseDev_of_due hd]
    exact completeHeld_of_not (by simp [complete])

@[simp] theorem csRise_rx : (csRise c s).dev.rx = s.dev.rx := by
  rw [csRise_dev]; split <;> simp

/-! ## The status byte -/

theorem welBit_ne_busyBit (c : Env) : welBit c ≠ c.p.busyBit.val := by
  unfold welBit
  have := c.p.busyBit.isLt
  have := c.p.welGap.isLt
  omega

theorem welBit_lt (c : Env) : welBit c < 8 := Nat.mod_lt _ (by decide)

/-- The bits of a byte with one bit set. -/
theorem one_shift_bit {b i : Nat} (hb : b < 8) (hi : i < 8) : (1#8 <<< b).getLsbD i = decide (i = b) := by
  interval_cases b <;> interval_cases i <;> rfl

theorem busyMask_bit (c : Env) {i : Nat} (hi : i < 8) : (busyMask c).getLsbD i = decide (i = c.p.busyBit.val) :=
  one_shift_bit c.p.busyBit.isLt hi

theorem welMask_bit (c : Env) {i : Nat} (hi : i < 8) : (welMask c).getLsbD i = decide (i = welBit c) :=
  one_shift_bit (welBit_lt c) hi

/-- The status byte bit by bit (10_state R46). -/
theorem srByte_bit (c : Env) (v : Device) {i : Nat} (hi : i < 8) :
    (srByte c v).getLsbD i =
      if i = c.p.busyBit.val then v.busy else if i = welBit c then v.wel else v.srOther.getLsbD i := by
  have hne := welBit_ne_busyBit c
  have h1 := busyMask_bit c hi
  have h2 := welMask_bit c hi
  unfold srByte
  by_cases hb : i = c.p.busyBit.val <;> by_cases hw : i = welBit c <;> cases hv : v.busy <;> cases hw' : v.wel <;>
    simp_all

theorem busyVerdict_srByte (c : Env) (v : Device) : busyVerdict c (srByte c v) = v.busy := by
  rw [busyVerdict, srByte_bit c v c.p.busyBit.isLt, if_pos rfl]

theorem writableMask_bit (c : Env) {i : Nat} (hi : i < 8) :
    (writableMask c).getLsbD i = (c.p.srWritable.getLsbD i && decide (i ≠ c.p.busyBit.val) && decide (i ≠ welBit c)) := by
  have h1 := busyMask_bit c hi
  have h2 := welMask_bit c hi
  unfold writableMask
  rw [BitVec.getLsbD_and, BitVec.getLsbD_not, BitVec.getLsbD_or, h1, h2]
  simp [hi, Bool.and_assoc]

/-- The bits of the status byte that WRSR can write are those of dev.sr_other. -/
theorem srByte_and_writableMask (c : Env) (v : Device) : srByte c v &&& writableMask c = v.srOther &&& writableMask c := by
  apply BitVec.eq_of_getLsbD_eq
  intro i hi
  rw [BitVec.getLsbD_and, BitVec.getLsbD_and, srByte_bit c v hi, writableMask_bit c hi]
  by_cases hb : i = c.p.busyBit.val <;> by_cases hw : i = welBit c <;> simp [hb, hw]

theorem srByte_congr {w : Device} (h1 : v.srOther = w.srOther) (h2 : v.busy = w.busy) (h3 : v.wel = w.wel) :
    srByte c v = srByte c w := by
  simp [srByte, h1, h2, h3]

end Sys2Proof.Machine
end

