-- ==== Sys2Proof/Laws/Frames.lean ====
section
/-! SUPPORT. What the device's act on a frame can do: the parts it never touches, the operation it may start, what it
does on a busy device, and that it depends on the device's own state alone. -/

namespace Sys2Proof.Machine

variable {c : Env} {s t : State}

/-! ## Addresses -/

theorem flashSize_pos (c : Env) : 0 < flashSize c := Nat.two_pow_pos _

/-- An address the device has lies in the array. -/
theorem locate_lt {a : Addr} {x : Nat} (h : locate c a = some x) : x < flashSize c := by
  unfold locate at h
  split at h
  · rename_i ha
    cases h
    rcases ha with rfl | ha
    · exact flashSize_pos c
    · exact ha
  · split at h
    · cases h
      exact Nat.mod_lt _ (flashSize_pos c)
    · cases h

theorem locate_zero (c : Env) : locate c 0x000000#24 = some 0 := by simp [locate]

/-- The address bytes a frame carries are those of the address (30_encoding R105). -/
theorem addrOf_bytes (a : Addr) : addrOf (addrA2 a) (addrA1 a) (addrA0 a) = a := by
  apply BitVec.eq_of_getLsbD_eq
  intro i hi
  simp only [addrOf, addrA2, addrA1, addrA0, BitVec.getLsbD_append, BitVec.getLsbD_extractLsb']
  by_cases h1 : i < 8
  · simp [h1]
  · by_cases h2 : i < 16
    · have h3 : i - 8 < 8 := by omega
      have h4 : 8 + (i - 8) = i := by omega
      simp [h1, h3, h4]
    · have h3 : ¬ i - 8 < 8 := by omega
      have h5 : i - 8 - 8 < 8 := by omega
      have h4 : 16 + (i - 8 - 8) = i := by omega
      simp [h1, h3, h5, h4]

theorem protectedRegion_iff {sr : Byte} {lo e : Nat} :
    protectedRegion c sr lo e = true ↔ ∃ a, lo ≤ a ∧ a < lo + e ∧ protectedAt c sr a = true := by
  simp [protectedRegion, and_assoc]

/-! ## The parts no frame touches -/

/-- Everything but the device's flags, operation and MISO byte is as before. -/
structure FrameKept (s t : State) : Prop extends FcsKept s t where
  array : t.dev.array = s.dev.array
  rx : t.dev.rx = s.dev.rx
  sh : t.dev.sh = s.dev.sh

theorem FrameKept.refl (s : State) : FrameKept s s := ⟨⟨rfl, rfl, rfl, rfl, rfl, rfl⟩, rfl, rfl, rfl⟩

theorem FrameKept.trans {s t u : State} (h : FrameKept s t) (k : FrameKept t u) : FrameKept s u :=
  ⟨⟨k.regs.trans h.regs, k.bus.trans h.bus, k.sq.trans h.sq, k.port.trans h.port, k.hRdata.trans h.hRdata,
    k.now.trans h.now⟩, k.array.trans h.array, k.rx.trans h.rx, k.sh.trans h.sh⟩

theorem drive_kept (r : Option Byte) : FrameKept s (drive c r s) := ⟨⟨rfl, rfl, rfl, rfl, rfl, rfl⟩, rfl, rfl, rfl⟩
theorem freeWel_kept : FrameKept s (freeWel c s) := ⟨⟨rfl, rfl, rfl, rfl, rfl, rfl⟩, rfl, rfl, rfl⟩
theorem startOp_kept (p : Pending) : FrameKept s (startOp c p s) := ⟨⟨rfl, rfl, rfl, rfl, rfl, rfl⟩, rfl, rfl, rfl⟩
theorem endFrame_kept (b : Bool) : FrameKept s (endFrame b s) := ⟨⟨rfl, rfl, rfl, rfl, rfl, rfl⟩, rfl, rfl, rfl⟩
theorem setWel_kept (b : Bool) : FrameKept s (setWel b s) := ⟨⟨rfl, rfl, rfl, rfl, rfl, rfl⟩, rfl, rfl, rfl⟩
theorem writeSrOther_kept (d : Byte) : FrameKept s (writeSrOther c d s) := by
  unfold writeSrOther
  split
  · exact ⟨⟨rfl, rfl, rfl, rfl, rfl, rfl⟩, rfl, rfl, rfl⟩
  · exact .refl s
theorem arrayOp_kept (prot : Bool) (p : Pending) : FrameKept s (arrayOp c prot p s) := by
  unfold arrayOp
  split
  · split
    · exact freeWel_kept
    · exact startOp_kept p
  · exact .refl s

/-! ## What a frame can do -/

/-- The operation in progress: as before, or started on an idle device with WEL, within the array, and with the status bits
other than BUSY as they were. -/
def OpStarted (c : Env) (s t : State) : Prop :=
  (t.dev.busy = s.dev.busy ∧ t.dev.pending = s.dev.pending ∧ t.dev.left = s.dev.left) ∨
  (s.dev.busy = false ∧ s.dev.wel = true ∧ t.dev.busy = true ∧ t.dev.wel = true ∧ t.dev.srOther = s.dev.srOther ∧
    ∃ p, t.dev.pending = some p ∧ p.inRange (flashSize c))

/-- What the device's turn can do. -/
structure TurnTaken (c : Env) (s t : State) : Prop extends FrameKept s t where
  op : OpStarted c s t
  ignored : s.dev.busy = true →
    t.dev.wel = s.dev.wel ∧ t.dev.srOther = s.dev.srOther ∧ t.dev.left = s.dev.left

/-- What the act on a frame can do. -/
structure FrameActed (c : Env) (s t : State) : Prop extends TurnTaken c s t where
  disarmed : s.dev.busy = true → t.dev.ewsrArmed = false

theorem ignoreFrame_acted : FrameActed c s (ignoreFrame c s) :=
  ⟨⟨(drive_kept none).trans (endFrame_kept false), .inl ⟨rfl, rfl, rfl⟩, fun _ => ⟨rfl, rfl, rfl⟩⟩, fun _ => rfl⟩

theorem whenIdle_acted {f : State → State} (hk : FrameKept s (f s)) (ho : s.dev.busy = false → OpStarted c s (f s)) :
    FrameActed c s (whenIdle c f s) := by
  unfold whenIdle
  split
  · exact ignoreFrame_acted
  · rename_i hb
    exact ⟨⟨hk, ho (by simpa using hb), fun h => absurd h hb⟩, fun h => absurd h hb⟩

theorem addressed_acted {a : Addr} {f : Nat → State → State} (h : addressed c a f s = .next t)
    (hk : ∀ x, FrameKept s (f x s)) (ho : ∀ x, locate c a = some x → s.dev.busy = false → OpStarted c s (f x s)) :
    FrameActed c s t := by
  unfold addressed at h
  split at h
  · rename_i x hx
    cases h
    exact whenIdle_acted (hk x) (ho x hx)
  · split at h
    · cases h
      exact ignoreFrame_acted
    · cases h

theorem arrayOp_started {prot : Bool} {p : Pending} (hb : s.dev.busy = false) (hp : p.inRange (flashSize c)) :
    OpStarted c s (arrayOp c prot p s) := by
  unfold arrayOp
  split
  · rename_i hw
    split
    · exact .inl ⟨rfl, rfl, rfl⟩
    · exact .inr ⟨hb, hw, rfl, hw, rfl, p, rfl, hp⟩
  · exact .inl ⟨rfl, rfl, rfl⟩

/-- What the act on any frame can do, once and for all of them. -/
theorem deviceAct_next {i : Instr} (h : deviceAct c i s = .next t) : FrameActed c s t := by
  have same : ∀ u : State, u.dev.busy = s.dev.busy → u.dev.pending = s.dev.pending → u.dev.left = s.dev.left →
      OpStarted c s u := fun u h1 h2 h3 => .inl ⟨h1, h2, h3⟩
  cases i <;> simp only [deviceAct, reduceCtorEq] at h
  case spiRead a dummy =>
    exact addressed_acted h (fun x => (drive_kept _).trans (endFrame_kept _)) (fun x _ _ => same _ rfl rfl rfl)
  case spiProgram a d =>
    refine addressed_acted h (fun x => ((drive_kept _).trans (arrayOp_kept _ _)).trans (endFrame_kept _)) ?_
    intro x hx hb
    exact arrayOp_started (s := drive c none s) hb (locate_lt hx)
  case spiWren => cases h; exact whenIdle_acted (((drive_kept _).trans (setWel_kept _)).trans (endFrame_kept _))
                    (fun _ => same _ rfl rfl rfl)
  case spiWrdi => cases h; exact whenIdle_acted (((drive_kept _).trans (setWel_kept _)).trans (endFrame_kept _))
                    (fun _ => same _ rfl rfl rfl)
  case spiEwsr => cases h; exact whenIdle_acted ((drive_kept _).trans (endFrame_kept _)) (fun _ => same _ rfl rfl rfl)
  case spiWrsr d =>
    cases h
    refine whenIdle_acted (((drive_kept _).trans (writeSrOther_kept _)).trans (endFrame_kept _)) (fun _ => ?_)
    refine same _ ?_ ?_ ?_ <;> simp only [endFrame_dev, writeSrOther] <;> split <;> rfl
  case spiRdsr dummy =>
    cases h
    exact ⟨⟨(drive_kept _).trans (endFrame_kept _), same _ rfl rfl rfl, fun _ => ⟨rfl, rfl, rfl⟩⟩, fun _ => rfl⟩
  case spiRdid z0 z1 sel dummy =>
    cases h; exact whenIdle_acted ((drive_kept _).trans (endFrame_kept _)) (fun _ => same _ rfl rfl rfl)
  case spiSectorErase a =>
    refine addressed_acted h (fun x => ((drive_kept _).trans (arrayOp_kept _ _)).trans (endFrame_kept _)) ?_
    intro x hx hb
    exact arrayOp_started (s := drive c none s) hb (Nat.min_le_right _ _)
  case spiBlockErase32 a =>
    refine addressed_acted h (fun x => ((drive_kept _).trans (arrayOp_kept _ _)).trans (endFrame_kept _)) ?_
    intro x hx hb
    exact arrayOp_started (s := drive c none s) hb (Nat.min_le_right _ _)
  case spiBlockErase64 a =>
    refine addressed_acted h (fun x => ((drive_kept _).trans (arrayOp_kept _ _)).trans (endFrame_kept _)) ?_
    intro x hx hb
    exact arrayOp_started (s := drive c none s) hb (Nat.min_le_right _ _)
  case spiChipErase =>
    cases h
    refine whenIdle_acted (((drive_kept _).trans (arrayOp_kept _ _)).trans (endFrame_kept _)) (fun hb => ?_)
    exact arrayOp_started (s := drive c none s) hb (Nat.le_refl _)

/-- What the rule of an ended frame can do. -/
theorem frameRule_taken (h : frameRule (deviceAct c) s = .next t) : TurnTaken c (takeFrame s) t := by
  unfold frameRule at h
  split at h
  · exact (deviceAct_next h).toTurnTaken
  · cases h
    exact ⟨.refl _, .inl ⟨rfl, rfl, rfl⟩, fun _ => ⟨rfl, rfl, rfl⟩⟩
  · cases h
  · cases h

/-- `exec` of an instruction that a frame decodes to is the device's act in the implementation's environment. -/
theorem exec_of_frame {bs : List Byte} {i : Instr} (hi : decodeFrame bs = .ok i) : exec i s = deviceAct Config.env i s := by
  cases bs with
  | nil => cases hi
  | cons op xs =>
    simp only [decodeFrame] at hi
    split at hi
    · cases hi
    · rename_i o _
      split at hi
      · cases hi
        cases o <;> rfl
      · cases hi

/-- Where an ended frame waits, the step is the device's turn. -/
theorem step_of_turnDue (h : turnDue s = true) : step s = deviceTurn Config.env s := by
  have hr : frameRule exec s = frameRule (deviceAct Config.env) s := by
    unfold frameRule
    split
    · rename_i hi
      exact exec_of_frame hi
    · rfl
    · rfl
    · rfl
  simp only [step, stepBy, h, if_true, deviceTurn, deviceTurnBy, hr]

/-- The completion delay: as before, or the next draw, taken by an operation started on an idle device. -/
def DelayDrawn (c : Env) (s t : State) : Prop :=
  (t.dev.busy = s.dev.busy ∧ t.dev.left = s.dev.left ∧ t.free.delay = s.free.delay) ∨
  (s.dev.busy = false ∧ t.dev.busy = true ∧ t.dev.left = c.d.delay s.free.delay)

theorem whenIdle_delay {f : State → State} (h : s.dev.busy = false → DelayDrawn c s (f s)) :
    DelayDrawn c s (whenIdle c f s) := by
  unfold whenIdle
  split
  · exact .inl ⟨rfl, rfl, rfl⟩
  · rename_i hb
    exact h (by simpa using hb)

theorem addressed_delay {a : Addr} {f : Nat → State → State} (h : addressed c a f s = .next t)
    (hf : ∀ x, s.dev.busy = false → DelayDrawn c s (f x s)) : DelayDrawn c s t := by
  unfold addressed at h
  split at h
  · cases h
    exact whenIdle_delay (hf _)
  · split at h
    · cases h
      exact .inl ⟨rfl, rfl, rfl⟩
    · cases h

theorem arrayOp_delay (prot : Bool) (p : Pending) (hb : s.dev.busy = false) :
    DelayDrawn c s (arrayOp c prot p (drive c none s)) := by
  unfold arrayOp
  split
  · split
    · exact .inl ⟨rfl, rfl, rfl⟩
    · exact .inr ⟨hb, rfl, rfl⟩
  · exact .inl ⟨rfl, rfl, rfl⟩

/-- What the act on any frame does to the completion delay. -/
theorem deviceAct_delay {i : Instr} (h : deviceAct c i s = .next t) : DelayDrawn c s t := by
  cases i <;> simp only [deviceAct, reduceCtorEq] at h
  case spiRead a dummy => exact addressed_delay h (fun _ _ => .inl ⟨rfl, rfl, rfl⟩)
  case spiProgram a d => exact addressed_delay h (fun _ hb => arrayOp_delay _ _ hb)
  case spiWren => cases h; exact whenIdle_delay (fun _ => .inl ⟨rfl, rfl, rfl⟩)
  case spiWrdi => cases h; exact whenIdle_delay (fun _ => .inl ⟨rfl, rfl, rfl⟩)
  case spiEwsr => cases h; exact whenIdle_delay (fun _ => .inl ⟨rfl, rfl, rfl⟩)
  case spiWrsr d =>
    cases h
    refine whenIdle_delay (fun _ => .inl ⟨?_, ?_, ?_⟩) <;> simp only [endFrame, writeSrOther] <;> split <;> rfl
  case spiRdsr dummy => cases h; exact .inl ⟨rfl, rfl, rfl⟩
  case spiRdid z0 z1 sel dummy =>
    cases h
    refine whenIdle_delay (fun _ => .inl ⟨rfl, rfl, rfl⟩)
  case spiSectorErase a => exact addressed_delay h (fun _ hb => arrayOp_delay _ _ hb)
  case spiBlockErase32 a => exact addressed_delay h (fun _ hb => arrayOp_delay _ _ hb)
  case spiBlockErase64 a => exact addressed_delay h (fun _ hb => arrayOp_delay _ _ hb)
  case spiChipErase => cases h; exact whenIdle_delay (fun hb => arrayOp_delay _ _ hb)

/-- On a busy device no decoded frame is refused, whatever its address. -/
theorem deviceAct_busy {bs : List Byte} {i : Instr} (hi : decodeFrame bs = .ok i) (hb : s.dev.busy = true) :
    ∃ t, deviceAct c i s = .next t := by
  have had : ∀ (a : Addr) (f : Nat → State → State), ∃ t, addressed c a f s = .next t := by
    intro a f
    unfold addressed
    split
    · exact ⟨_, rfl⟩
    · rw [if_pos hb]; exact ⟨_, rfl⟩
  cases bs with
  | nil => cases hi
  | cons op xs =>
    simp only [decodeFrame] at hi
    split at hi
    · cases hi
    · rename_i o _
      split at hi
      · cases hi
        cases o <;> first | exact had _ _ | exact ⟨_, rfl⟩
      · cases hi

/-- The act reads and writes the device and the free values alone: on another state with the same ones it is the same. -/
theorem deviceAct_local {i : Instr} {s' : State} (h : deviceAct c i s = .next t) (hd : s'.dev = s.dev)
    (hf : s'.free = s.free) : deviceAct c i s' = .next { s' with dev := t.dev, free := t.free } := by
  obtain ⟨regs, bus, sq, dev, port, hRdata, now, free⟩ := s
  obtain ⟨regs', bus', sq', dev', port', hRdata', now', free'⟩ := s'
  cases hd
  cases hf
  have had : ∀ (a : Addr) (f : Nat → State → State),
      addressed c a f ⟨regs, bus, sq, dev, port, hRdata, now, free⟩ = .next t →
      (∀ x, f x ⟨regs', bus', sq', dev, port', hRdata', now', free⟩ =
        ⟨regs', bus', sq', (f x ⟨regs, bus, sq, dev, port, hRdata, now, free⟩).dev, port', hRdata', now',
          (f x ⟨regs, bus, sq, dev, port, hRdata, now, free⟩).free⟩) →
      addressed c a f ⟨regs', bus', sq', dev, port', hRdata', now', free⟩ =
        .next ⟨regs', bus', sq', t.dev, port', hRdata', now', t.free⟩ := by
    intro a f h hl
    unfold addressed at h ⊢
    split
    · rename_i x hx
      rw [hx] at h
      cases h
      unfold whenIdle
      simp only
      split
      · rfl
      · rw [hl x]
    · rename_i hx
      rw [hx] at h
      simp only at h ⊢
      split at h
      · rename_i hb
        cases h
        rw [if_pos hb]
        rfl
      · cases h
  have har : ∀ (prot : Bool) (p : Pending) (o : Byte) (fr : FreeCount),
      arrayOp c prot p ⟨regs', bus', sq', { dev with out := o }, port', hRdata', now', fr⟩ =
        ⟨regs', bus', sq', (arrayOp c prot p ⟨regs, bus, sq, { dev with out := o }, port, hRdata, now, fr⟩).dev, port',
          hRdata', now', (arrayOp c prot p ⟨regs, bus, sq, { dev with out := o }, port, hRdata, now, fr⟩).free⟩ := by
    intro prot p o fr
    unfold arrayOp
    simp only
    split
    · split <;> rfl
    · rfl
  cases i <;> simp only [deviceAct, reduceCtorEq] at h ⊢
  case spiRead a dummy => exact had _ _ h (fun _ => rfl)
  case spiProgram a d => exact had _ _ h (fun x => by simp only [endFrame, drive, har])
  case spiWren => cases h; simp only [devWren, whenIdle]; split <;> rfl
  case spiWrdi => cases h; simp only [devWrdi, whenIdle]; split <;> rfl
  case spiEwsr => cases h; simp only [devEwsr, whenIdle]; split <;> rfl
  case spiWrsr d =>
    cases h
    simp only [devWrsr, whenIdle]
    split
    · rfl
    · simp only [endFrame, drive, writeSrOther]
      split <;> rfl
  case spiRdsr dummy => cases h; rfl
  case spiRdid z0 z1 sel dummy => cases h; simp only [devRdid, whenIdle]; split <;> rfl
  case spiSectorErase a => exact had _ _ h (fun x => by simp only [endFrame, drive, eraseRegion, har])
  case spiBlockErase32 a => exact had _ _ h (fun x => by simp only [endFrame, drive, eraseRegion, har])
  case spiBlockErase64 a => exact had _ _ h (fun x => by simp only [endFrame, drive, eraseRegion, har])
  case spiChipErase =>
    cases h
    simp only [devChipErase, whenIdle]
    split
    · rfl
    · simp only [endFrame, drive, har]

end Sys2Proof.Machine
end

