-- ==== Sys2Proof/Laws/Transaction.lean ====
section
/-! SUPPORT. What the exchanges of a frame, a frame, an action, a list of actions and a whole command leave: one lemma for
each operation. -/

namespace Sys2Proof.Machine

variable {c : Env} {s t : State}

theorem andThen_next {o : Host.Outcome State Fault Refusal} {f : State → Host.Outcome State Fault Refusal}
    (h : andThen o f = .next t) : ∃ u, o = .next u ∧ f u = .next t := by
  cases o with
  | next u => exact ⟨u, rfl, h⟩
  | fault r => cases h
  | refused r => cases h

theorem andThen_assoc (o : Host.Outcome State Fault Refusal) (f g : State → Host.Outcome State Fault Refusal) :
    andThen (andThen o f) g = andThen o (fun s => andThen (f s) g) := by
  cases o <;> rfl

@[simp] theorem andThen_of_next (s : State) (f : State → Host.Outcome State Fault Refusal) : andThen (.next s) f = f s := rfl
@[simp] theorem andThen_of_refused (r : Refusal) (f : State → Host.Outcome State Fault Refusal) :
    andThen (.refused r) f = .refused r := rfl
@[simp] theorem andThen_of_fault (r : Fault) (f : State → Host.Outcome State Fault Refusal) :
    andThen (.fault r) f = .fault r := rfl

/-! ## The exchanges of an action -/

/-- What the exchanges of the bytes `bs`, the first being byte `j` of action `a`, leave. -/
structure Exchanged (c : Env) (a : Action) (j : Nat) (bs : List Byte) (s t : State) : Prop where
  regs : t.regs = s.regs
  port : t.port = s.port
  hRdata : t.hRdata = s.hRdata
  now : t.now = s.now
  csN : t.bus.csN = s.bus.csN
  gapCtr : t.bus.gapCtr = s.bus.gapCtr
  dev : t.dev = { s.dev with rx := t.dev.rx, out := t.dev.out, sh := t.dev.sh }
  free : t.free = { s.free with miso := t.free.miso }
  sq : t.sq = { s.sq with cap := t.sq.cap, chk := t.sq.chk }
  rx : t.dev.rx = if s.bus.csN then s.dev.rx else s.dev.rx ++ bs
  capKept : (∀ k, a.capIdx = some k → k < j ∨ j + bs.length ≤ k) → t.sq.cap = s.sq.cap
  chkKept : (∀ k, a.chkIdx = some k → k < j ∨ j + bs.length ≤ k) → t.sq.chk = s.sq.chk
  captured : s.bus.csN = false → ∀ k b, a.capIdx = some k → j ≤ k → k < j + bs.length →
    response c { s.dev with rx := s.dev.rx ++ bs.take (k - j) } = some b → t.sq.cap = b
  checked : s.bus.csN = false → a.capIdx = none → ∀ k b, a.chkIdx = some k → j ≤ k → k < j + bs.length →
    response c { s.dev with rx := s.dev.rx ++ bs.take (k - j) } = some b → t.sq.chk = b

theorem response_out_sh (v : Device) (o h : Byte) : response c { v with out := o, sh := h } = response c v := rfl

theorem answer_out_of_response {b : Byte} (h : s.bus.csN = false) (hr : response c s.dev = some b) :
    (answer c s).dev.out = b := by
  simp [h, hr]

/-- The exchange and storing of one byte. -/
theorem exchange_step (a : Action) (j : Nat) (b : Byte) : Exchanged c a j [b] s (storeByte a j (exchange c b s)) := by
  have hout : ∀ r, s.bus.csN = false → response c { s.dev with rx := s.dev.rx ++ [] } = some r →
      (exchange c b s).bus.rxHold = r := by
    intro r h1 h2
    rw [List.append_nil] at h2
    rw [exchange_rxHold]
    exact answer_out_of_response h1 h2
  refine ⟨by simp, by simp, by simp, by simp, by simp, by simp, ?_, ?_, ?_, ?_, ?_, ?_, ?_, ?_⟩
  · cases h : s.bus.csN
    · simp [exchange_dev_selected, h]
    · simp [exchange_dev_deselected, h]
  · simp [exchange, answer, drive]
  · unfold storeByte
    split
    · simp
    · split <;> simp
  · cases h : s.bus.csN
    · simp [exchange_dev_selected, h]
    · simp [exchange_dev_deselected, h]
  · intro hk
    have : a.capIdx ≠ some j := fun h => by
      have := hk j h
      simp at this
    unfold storeByte
    rw [if_neg this]
    split <;> simp
  · intro hk
    have : a.chkIdx ≠ some j := fun h => by
      have := hk j h
      simp at this
    unfold storeByte
    rw [if_neg this]
    split <;> simp
  · intro hcs k r hk h1 h2 hr
    have hkj : k = j := by simp at h2; omega
    subst hkj
    simp only [Nat.sub_self, List.take_zero] at hr
    unfold storeByte
    rw [if_pos hk]
    exact hout r hcs hr
  · intro hcs hn k r hk h1 h2 hr
    have hkj : k = j := by simp at h2; omega
    subst hkj
    simp only [Nat.sub_self, List.take_zero] at hr
    unfold storeByte
    rw [if_neg (by simp [hn]), if_pos hk]
    exact hout r hcs hr

/-- The exchanges of an action's bytes. -/
theorem exchangeAll_exchanged (a : Action) (bs : List Byte) (j : Nat) (s : State) :
    Exchanged c a j bs s (exchangeAll c a j bs s) := by
  induction bs generalizing j s with
  | nil =>
    refine ⟨rfl, rfl, rfl, rfl, rfl, rfl, rfl, rfl, rfl, by simp [exchangeAll], fun _ => rfl, fun _ => rfl, ?_, ?_⟩
    · intro _ k b _ h1 h2
      simp at h2; omega
    · intro _ _ k b _ h1 h2
      simp at h2; omega
  | cons b bs ih =>
    have h1 := exchange_step (c := c) (s := s) a j b
    have h2 := ih (j + 1) (storeByte a j (exchange c b s))
    rw [exchangeAll]
    generalize storeByte a j (exchange c b s) = u at h1 h2
    generalize exchangeAll c a (j + 1) bs u = t at h2
    refine ⟨h2.regs.trans h1.regs, h2.port.trans h1.port, h2.hRdata.trans h1.hRdata, h2.now.trans h1.now,
      h2.csN.trans h1.csN, h2.gapCtr.trans h1.gapCtr, ?_, ?_, ?_, ?_, ?_, ?_, ?_, ?_⟩
    · rw [h2.dev, h1.dev]
    · rw [h2.free, h1.free]
    · rw [h2.sq, h1.sq]
    · rw [h2.rx, h1.csN, h1.rx]
      split <;> simp
    · intro hk
      rw [h2.capKept, h1.capKept]
      · intro k hk'
        have := hk k hk'
        simp at this ⊢; omega
      · intro k hk'
        have := hk k hk'
        simp at this ⊢; omega
    · intro hk
      rw [h2.chkKept, h1.chkKept]
      · intro k hk'
        have := hk k hk'
        simp at this ⊢; omega
      · intro k hk'
        have := hk k hk'
        simp at this ⊢; omega
    · intro hcs k r hk hj1 hj2 hr
      by_cases hkj : k = j
      · subst hkj
        rw [h2.capKept (by intro k' hk'; rw [hk] at hk'; cases hk'; left; omega)]
        exact h1.captured hcs k r hk (Nat.le_refl _) (by simp) (by simpa using hr)
      · have hk1 : j + 1 ≤ k := by omega
        refine h2.captured (h1.csN.trans hcs) k r hk hk1 (by simp at hj2; omega) ?_
        rw [h1.dev, h1.rx, hcs]
        have hkk : k - j = (k - (j + 1)) + 1 := by omega
        rw [hkk] at hr
        rw [List.take_succ_cons] at hr
        simpa using (response_out_sh _ _ _).trans hr
    · intro hcs hn k r hk hj1 hj2 hr
      by_cases hkj : k = j
      · subst hkj
        rw [h2.chkKept (by intro k' hk'; rw [hk] at hk'; cases hk'; left; omega)]
        exact h1.checked hcs hn k r hk (Nat.le_refl _) (by simp) (by simpa using hr)
      · have hk1 : j + 1 ≤ k := by omega
        refine h2.checked (h1.csN.trans hcs) hn k r hk hk1 (by simp at hj2; omega) ?_
        rw [h1.dev, h1.rx, hcs]
        have hkk : k - j = (k - (j + 1)) + 1 := by omega
        rw [hkk] at hr
        rw [List.take_succ_cons] at hr
        simpa using (response_out_sh _ _ _).trans hr

/-! ## A frame -/

/-- The state in which the device acts on the frame of action `a`: cs_n has just risen. -/
structure FrameEnded (c : Env) (a : Action) (s u : State) : Prop where
  regs : u.regs = s.regs
  port : u.port = s.port
  hRdata : u.hRdata = s.hRdata
  now : u.now = s.now + lowCycles c a.bytes.length
  csN : u.bus.csN = true
  dev : u.dev =
    { s.dev with
      rx := []
      left := s.dev.left.map (fun k => k - lowCycles c a.bytes.length)
      out := u.dev.out
      sh := u.dev.sh }
  free : u.free = { s.free with miso := u.free.miso }
  sq : u.sq = { s.sq with cap := u.sq.cap, chk := u.sq.chk }
  capKept : a.capIdx = none → u.sq.cap = s.sq.cap
  chkKept : a.chkIdx = none → u.sq.chk = s.sq.chk
  captured : ∀ k b, a.capIdx = some k → k < a.bytes.length →
    response c { s.dev with rx := a.bytes.take k } = some b → u.sq.cap = b
  checked : a.capIdx = none → ∀ k b, a.chkIdx = some k → k < a.bytes.length →
    response c { s.dev with rx := a.bytes.take k } = some b → u.sq.chk = b

/-- The chip-select gap after cs_n has risen finds the same device whether or not it has completed a held operation. -/
theorem gapAfter_releaseHeld (h : s.bus.csN = true) : gapAfter c (releaseHeld c s) = gapAfter c s := by
  have hC : 0 < cshCycles c := Nat.succ_pos _
  simp only [gapAfter, elapse, releaseHeld, h, elapseDev_completeHeld hC]

/-- The end of a frame and the chip-select gap: by the end of the gap a held operation has completed in either case, so that
the frame's own rule says all that is left of it. -/
theorem csRise_gap :
    andThen (deviceTurn c (csRise c s)) (fun t => .next (gapAfter c t)) =
      andThen (frameRule (deviceAct c) { s with bus := { s.bus with csN := true } })
        (fun t => .next (gapAfter c t)) := by
  have hrel : ∀ u, u.bus.csN = true → andThen (deviceTurn c u) (fun t => .next (gapAfter c t)) =
      andThen (frameRule (deviceAct c) u) (fun t => .next (gapAfter c t)) := by
    intro u hu
    simp only [deviceTurn, deviceTurnBy, andThen_assoc]
    cases ht : frameRule (deviceAct c) u with
    | next t =>
      have hb : t.bus.csN = true := (congrArg Bus.csN (frameRule_taken ht).bus).trans hu
      simp only [andThen_of_next, gapAfter_releaseHeld hb]
    | fault r => rfl
    | refused r => rfl
  rw [hrel _ rfl]
  unfold csRise
  cases hr : s.dev.rx.isEmpty
  · rfl
  · have h0 : s.dev.rx = [] := by simpa using hr
    have h1 := gapAfter_releaseHeld (c := c) (s := { s with bus := { s.bus with csN := true } }) rfl
    simp only [frameRule, if_true, completeHeld_rx, h0, decodeFrame, andThen_of_next, takeFrame]
    rw [← h0]
    have h2 : ({ completeHeld c s.dev with rx := s.dev.rx } : Device) = completeHeld c s.dev := by
      rw [← completeHeld_rx (c := c)]
    rw [h2]
    exact congrArg _ h1

/-- A frame is its exchanges, the device's act, and the chip-select gap. -/
theorem runFrame_eq (a : Action) {i : Instr} (hi : decodeFrame a.bytes = .ok i) :
    ∃ u, FrameEnded c a s u ∧ runFrame c a s = andThen (deviceAct c i u) (fun t => .next (gapAfter c t)) := by
  have h := exchangeAll_exchanged (c := c) a a.bytes 0 (csFall s)
  generalize hX : exchangeAll c a 0 a.bytes (csFall s) = x at h
  have hcs : x.bus.csN = false := h.csN
  have hrx : (elapse c (lowCycles c a.bytes.length) x).dev.rx = a.bytes := by
    have hr := h.rx
    simp only [elapse_dev, elapseDev_rx, hr]
    simp
  refine ⟨takeFrame { elapse c (lowCycles c a.bytes.length) x with bus := { x.bus with csN := true } }, ?_, ?_⟩
  · refine ⟨h.regs, h.port, h.hRdata, ?_, rfl, ?_, h.free, h.sq, ?_, ?_, ?_, ?_⟩
    · simp [h.now]
    · have hx := h.dev
      simp only [takeFrame_dev, elapse_dev, hcs, elapseDev_selected]
      rw [hx]
      simp
    · intro hn
      exact h.capKept (by simp [hn])
    · intro hn
      exact h.chkKept (by simp [hn])
    · intro k b hk hlt hr
      exact h.captured rfl k b hk (Nat.zero_le _) (by simpa using hlt) (by simpa using hr)
    · intro hn k b hk hlt hr
      exact h.checked rfl hn k b hk (Nat.zero_le _) (by simpa using hlt) (by simpa using hr)
  · simp only [runFrame, hX, csRise_gap, frameRule, hrx, hi]
    rfl

/-! ## The chip-select gap -/

@[simp] theorem gapAfter_regs : (gapAfter c s).regs = s.regs := rfl
@[simp] theorem gapAfter_sq : (gapAfter c s).sq = s.sq := rfl
@[simp] theorem gapAfter_port : (gapAfter c s).port = s.port := rfl
@[simp] theorem gapAfter_hRdata : (gapAfter c s).hRdata = s.hRdata := rfl
@[simp] theorem gapAfter_free : (gapAfter c s).free = s.free := rfl
@[simp] theorem gapAfter_now : (gapAfter c s).now = s.now + cshCycles c := rfl
@[simp] theorem gapAfter_csN : (gapAfter c s).bus.csN = s.bus.csN := rfl
@[simp] theorem gapAfter_dev : (gapAfter c s).dev = elapseDev c s.bus.csN (cshCycles c) s.dev := rfl

@[simp] theorem runWait_regs (n : Nat) : (runWait c n s).regs = s.regs := rfl
@[simp] theorem runWait_bus (n : Nat) : (runWait c n s).bus = s.bus := rfl
@[simp] theorem runWait_port (n : Nat) : (runWait c n s).port = s.port := rfl
@[simp] theorem runWait_hRdata (n : Nat) : (runWait c n s).hRdata = s.hRdata := rfl
@[simp] theorem runWait_free (n : Nat) : (runWait c n s).free = s.free := rfl
@[simp] theorem runWait_now (n : Nat) : (runWait c n s).now = s.now + n := rfl
@[simp] theorem runWait_sq (n : Nat) : (runWait c n s).sq = { s.sq with waitCtr := 0 } := rfl
@[simp] theorem runWait_dev (n : Nat) : (runWait c n s).dev = elapseDev c s.bus.csN n s.dev := rfl

/-! ## Actions -/

/-- What an action leaves alone, and the time it takes. -/
structure ActionDone (n : Nat) (s t : State) : Prop where
  regs : t.regs = s.regs
  port : t.port = s.port
  hRdata : t.hRdata = s.hRdata
  now : t.now = s.now + n
  sq : t.sq = { s.sq with cap := t.sq.cap, chk := t.sq.chk, waitCtr := t.sq.waitCtr }

/-- The device's turn on an ended frame: the frame's own rule, then a held operation's completion. -/
theorem deviceTurn_taken (h : deviceTurn c s = .next t) : ∃ u, TurnTaken c (takeFrame s) u ∧ t = releaseHeld c u := by
  obtain ⟨u, hu, ht⟩ := andThen_next h
  cases ht
  exact ⟨u, frameRule_taken hu, rfl⟩

/-- A frame that ends in the device's turn is an action done. -/
theorem runFrame_done {a : Action} (h : runFrame c a s = .next t) : ActionDone (frameCycles c a.bytes.length) s t := by
  obtain ⟨u, hu, hg⟩ := andThen_next h
  cases hg
  have hx := exchangeAll_exchanged (c := c) a a.bytes 0 (csFall s)
  obtain ⟨u, hk, rfl⟩ := deviceTurn_taken hu
  refine ⟨hk.regs.trans hx.regs, hk.port.trans hx.port, hk.hRdata.trans hx.hRdata, ?_, ?_⟩
  · have h1 : u.now = _ := hk.now
    have h2 := hx.now
    simp only [gapAfter_now, releaseHeld_now, h1, frameCycles]
    simp [h2, Nat.add_assoc]
  · have h1 : u.sq = _ := hk.sq
    have h2 := hx.sq
    simp only [gapAfter_sq, releaseHeld_sq, h1]
    simp only [takeFrame_sq, csRise_sq, elapse_sq]
    rw [h2]
    rfl

/-- Every action takes the time its rule gives it, and changes of the FCS only its lines and capture registers. -/
theorem runAction_done {a : Action} (h : runAction c a s = .next t) : ActionDone (a.cycles c) s t := by
  cases a with
  | frame bs cap => exact runFrame_done h
  | wait n => cases h; exact ⟨rfl, rfl, rfl, rfl, rfl⟩
  | csLow => cases h; exact ⟨rfl, rfl, rfl, rfl, rfl⟩
  | csHigh =>
    obtain ⟨u, hu, hg⟩ := andThen_next h
    cases hg
    obtain ⟨u, hk, rfl⟩ := deviceTurn_taken hu
    refine ⟨hk.regs, hk.port, hk.hRdata, ?_, ?_⟩
    · have h1 : u.now = _ := hk.now
      simp [h1, Action.cycles]
    · have h1 : u.sq = _ := hk.sq
      simp [h1]
  | xfer b =>
    cases h
    have hx := exchangeAll_exchanged (c := c) (.xfer b) [b] 0 s
    refine ⟨hx.regs, hx.port, hx.hRdata, ?_, ?_⟩
    · simp [hx.now, Action.cycles]
    · have h2 := hx.sq
      simp only [elapse_sq]
      rw [h2]
  | check => exact runFrame_done (a := .check) h

theorem runActions_done {as : List Action} (h : runActions c as s = .next t) : ActionDone (seqCycles c as) s t := by
  induction as generalizing s with
  | nil => cases h; exact ⟨rfl, rfl, rfl, rfl, rfl⟩
  | cons a as ih =>
    obtain ⟨u, hu, ht⟩ := andThen_next h
    have h1 := runAction_done hu
    have h2 := ih ht
    refine ⟨h2.regs.trans h1.regs, h2.port.trans h1.port, h2.hRdata.trans h1.hRdata, ?_, ?_⟩
    · rw [h2.now, h1.now]
      simp [seqCycles, Nat.add_assoc]
    · rw [h2.sq, h1.sq]

/-! ## A command -/

/-- The state in which the first action of a command starts: it has been accepted at the edge before. -/
def accepted (c : Env) (code : Code) (seqOf : Latches → Bool → List Action) (s : State) : State :=
  { s with
    regs := { s.regs with lastCode := code, done := false }
    sq := { s.sq with
      w := latch code s
      seq := seqOf (latch code s) s.bus.csN
      step := if (seqOf (latch code s) s.bus.csN).isEmpty then .fin else .run 0
      phase := .start
      byteIdx := 0 }
    dev := elapseDev c s.bus.csN 2 s.dev
    now := s.now + 2 }

theorem elapse_accept (code : Code) (seqOf : Latches → Bool → List Action) :
    elapse c 1 (accept code seqOf (elapse c 1 s)) = accepted c code seqOf s := by
  have h := elapseDev_add (c := c) (v := s.dev) s.bus.csN 1 1
  simp only [elapse, accept, accepted, latch, h]
  rfl

/-- A command on an idle FCS: accept, the actions of its list, publish. -/
theorem runCommand_idle (code : Code) (seqOf : Latches → Bool → List Action) (h : s.sq.step = .idle) :
    runCommand c code seqOf s =
      andThen (runActions c (seqOf (latch code s) s.bus.csN) (accepted c code seqOf s))
        (fun m => .next (publish c m)) := by
  have hb : s.busy = false := by simp [State.busy, h]
  simp only [runCommand, hb, Bool.false_eq_true, if_false, elapse_accept]
  rfl

/-- A command on a busy FCS only sets OVR (10_state R41). -/
theorem runCommand_busy (code : Code) (seqOf : Latches → Bool → List Action) (h : s.busy = true) :
    runCommand c code seqOf s = .next (overrun s) := by
  simp [runCommand, h]

/-- The publish of a command whose actions have left `m`. -/
theorem published_of_actions {code : Code} {seqOf : Latches → Bool → List Action} {m : State} {r : PubRule}
    (hs : commandSeq Config.env (decodeCode code) = seqOf)
    (hm : runActions Config.env (seqOf (latch code s) s.bus.csN) (accepted Config.env code seqOf s) = .next m)
    (hr : pubRule (decodeCode code) (seqOf (latch code s) s.bus.csN) = r) :
    Published code (pubResult Config.env m.sq r) (pubRdata m.sq s.regs.rdata r) s (publish Config.env m) := by
  have h := runActions_done hm
  have hw : m.sq.w = latch code s := by rw [h.sq]; rfl
  have hq : m.sq.seq = seqOf (latch code s) s.bus.csN := by rw [h.sq]; rfl
  have hrule : pubRule (decodeCode m.sq.w.code) m.sq.seq = r := by rw [hw, hq]; exact hr
  refine ⟨?_, rfl, hw, ?_, h.port, h.hRdata⟩
  · have h1 := h.regs
    simp only [publish, hrule, h1, accepted]
  · have h1 := h.now
    simp only [publish_now, h1, accepted, latency, hs]
    omega

end Sys2Proof.Machine
end

