-- ==== Sys2Proof/Laws/ClockEdge.lean ====
section
/-! SUPPORT. What a clk edge does: that a running command reads no host register (10_state R39), and where an edge leaves
the step state (R37). -/

namespace Sys2Proof.Machine

variable {c : Env} {s t : State}

/-! ## A running command and the host registers -/

/-- A change of host registers and of h_rdata. -/
def touch (g : HostRegs → HostRegs) (x : Word) (s : State) : State := { s with regs := g s.regs, hRdata := x }

/-- A change of host registers that neither publish nor RDATA sees. -/
structure Unseen (g : HostRegs → HostRegs) : Prop where
  rdata : ∀ r, (g r).rdata = r.rdata
  publish : ∀ r res rd, g { r with result := res, rdata := rd, done := true } =
    { g r with result := res, rdata := rd, done := true }

theorem publish_touch {g : HostRegs → HostRegs} (hg : Unseen g) (x : Word) :
    publish c (touch g x s) = touch g x (publish c s) := by
  simp only [publish, touch, hg.rdata, hg.publish]

theorem openFrame_touch (g : HostRegs → HostRegs) (x : Word) (bs : List Byte) :
    openFrame c bs (touch g x s) = touch g x (openFrame c bs s) := by
  cases bs <;> rfl

theorem startAction_touch (g : HostRegs → HostRegs) (x : Word) (a : Action) :
    startAction c a (touch g x s) = touch g x (startAction c a s) := by
  cases a <;> first | rfl | exact openFrame_touch g x _

theorem beginActions_touch {g : HostRegs → HostRegs} (hg : Unseen g) (x : Word) (as : List Action) (k : Nat)
    (s : State) : beginActions c as k (touch g x s) = touch g x (beginActions c as k s) := by
  induction as generalizing k s with
  | nil => exact publish_touch hg x
  | cons a as ih =>
    have h := startAction_touch (c := c) (s := { s with sq := { s.sq with step := .run k } }) g x a
    simp only [beginActions]
    have h' : startAction c a { touch g x s with sq := { (touch g x s).sq with step := .run k } } =
        touch g x (startAction c a { s with sq := { s.sq with step := .run k } }) := h
    rw [h']
    split
    · exact ih _ _
    · rfl

theorem storeByte_touch (g : HostRegs → HostRegs) (x : Word) (a : Action) (j : Nat) :
    storeByte a j (touch g x s) = touch g x (storeByte a j s) := by
  unfold storeByte
  split
  · rfl
  · split <;> rfl

theorem risingEdge_touch (g : HostRegs → HostRegs) (x : Word) (a : Action) :
    risingEdge a (touch g x s) = touch g x (risingEdge a s) := by
  unfold risingEdge
  simp only
  have h : (touch g x s).bus.bitCtr = s.bus.bitCtr := rfl
  rw [h]
  split
  · rw [← storeByte_touch]
    rfl
  · rfl

theorem byteEnd_touch (g : HostRegs → HostRegs) (x : Word) (a : Action) :
    byteEnd c a (touch g x s) = (touch g x (byteEnd c a s).1, (byteEnd c a s).2) := by
  unfold byteEnd
  have h : (touch g x s).sq.byteIdx = s.sq.byteIdx := rfl
  rw [h]
  split
  · rfl
  · simp only
    split <;> rfl

theorem actionEdge_touch (g : HostRegs → HostRegs) (x : Word) (a : Action) :
    actionEdge c a (touch g x s) = (touch g x (actionEdge c a s).1, (actionEdge c a s).2) := by
  unfold actionEdge
  have h : (touch g x s).sq.phase = s.sq.phase := rfl
  rw [h]
  split
  · rfl
  · unfold shiftEdge
    have hb : (touch g x s).bus = s.bus := rfl
    simp only [hb]
    split
    · rfl
    · split
      · rw [risingEdge_touch]
      · split
        · rfl
        · exact byteEnd_touch g x a
  · unfold holdEdge
    have hb : (touch g x s).bus = s.bus := rfl
    simp only [hb]
    split <;> rfl
  · unfold gapEdge
    have hb : (touch g x s).bus = s.bus := rfl
    simp only [hb]
    split <;> rfl
  · rfl

/-- A running command goes on alike whatever the host has written to the registers publish does not write. -/
theorem progress_touch {g : HostRegs → HostRegs} (hg : Unseen g) (x : Word) :
    progress c (touch g x s) = andThen (progress c s) (fun t => .next (touch g x t)) := by
  unfold progress
  have h : (touch g x s).sq = s.sq := rfl
  rw [h]
  split
  · rfl
  · rw [publish_touch hg]; rfl
  · split
    · rfl
    · split
      · rw [beginActions_touch hg]; rfl
      · rw [actionEdge_touch]
        simp only
        split
        · rw [beginActions_touch hg]; rfl
        · rfl

/-! ## What an edge of a running command leaves -/

/-- All but the lines, the transport counters, the step state and the capture registers is as before; of the device, the
bytes of the open frame and of MISO may change. cs_n does not rise. -/
structure EdgeKept (s t : State) : Prop where
  regs : t.regs = s.regs
  port : t.port = s.port
  hRdata : t.hRdata = s.hRdata
  now : t.now = s.now
  seq : t.sq.seq = s.sq.seq
  w : t.sq.w = s.sq.w
  dev : t.dev = { s.dev with rx := t.dev.rx, out := t.dev.out, sh := t.dev.sh }
  free : t.free = { s.free with miso := t.free.miso }
  noRise : t.bus.csN = true → s.bus.csN = true

theorem EdgeKept.refl (s : State) : EdgeKept s s := ⟨rfl, rfl, rfl, rfl, rfl, rfl, rfl, rfl, id⟩

theorem EdgeKept.trans {s t u : State} (h : EdgeKept s t) (k : EdgeKept t u) : EdgeKept s u :=
  ⟨k.regs.trans h.regs, k.port.trans h.port, k.hRdata.trans h.hRdata, k.now.trans h.now, k.seq.trans h.seq,
    k.w.trans h.w, by rw [k.dev, h.dev], by rw [k.free, h.free], h.noRise ∘ k.noRise⟩

/-- What an edge of a running action leaves: it keeps the rest, and where cs_n rises, that comes last. -/
def EdgeDone (c : Env) (s t : State) : Prop :=
  EdgeKept s t ∨ ∃ u, EdgeKept s u ∧ t.bus.csN = true ∧ t.dev.rx = u.dev.rx ∧ EdgeKept (csRise c u) t

theorem EdgeKept.trans_done {s t u : State} (h : EdgeKept s t) (k : EdgeDone c t u) : EdgeDone c s u :=
  k.imp h.trans (fun ⟨v, hv, k⟩ => ⟨v, h.trans hv, k⟩)

/-- Of all but the device, an edge keeps the same whether or not cs_n rises. -/
theorem EdgeDone.fcs (h : EdgeDone c s t) : t.regs = s.regs ∧ t.port = s.port ∧ t.hRdata = s.hRdata ∧ t.now = s.now ∧
    t.sq.seq = s.sq.seq ∧ t.sq.w = s.sq.w ∧ t.free = { s.free with miso := t.free.miso } := by
  rcases h with h | ⟨u, h, -, -, k⟩
  · exact ⟨h.regs, h.port, h.hRdata, h.now, h.seq, h.w, h.free⟩
  · exact ⟨k.regs.trans h.regs, k.port.trans h.port, k.hRdata.trans h.hRdata, k.now.trans h.now, k.seq.trans h.seq,
      k.w.trans h.w, by rw [k.free, csRise_free, h.free]⟩

theorem EdgeDone.seq (h : EdgeDone c s t) : t.sq.seq = s.sq.seq := h.fcs.2.2.2.2.1

/-- What it leaves of the device: a held operation completes where cs_n rises on a frame of no bytes, and nowhere else
(45_device R232). -/
theorem EdgeDone.dev (h : EdgeDone c s t) :
    (t.bus.csN = true → s.bus.csN = true ∨ t.dev.rx ≠ []) ∧
      t.dev = { s.dev with rx := t.dev.rx, out := t.dev.out, sh := t.dev.sh } ∨
    t.bus.csN = true ∧ t.dev.rx = [] ∧
      t.dev = { completeHeld c s.dev with rx := t.dev.rx, out := t.dev.out, sh := t.dev.sh } := by
  rcases h with h | ⟨u, h, hc, hr, k⟩
  · exact .inl ⟨.inl ∘ h.noRise, h.dev⟩
  · have hk := k.dev
    rw [csRise_dev] at hk
    cases hu : u.dev.rx.isEmpty
    · simp only [hu, Bool.false_eq_true, if_false] at hk
      rw [h.dev] at hk
      refine .inl ⟨fun _ => .inr ?_, hk⟩
      rw [hr]
      simpa using hu
    · simp only [hu, if_true] at hk
      refine .inr ⟨hc, by rw [hr]; simpa using hu, ?_⟩
      rw [h.dev] at hk
      rw [hk]
      unfold completeHeld
      by_cases hb : s.dev.busy = true ∧ s.dev.left = some 0
      · simp only [if_pos hb]; rfl
      · simp only [if_neg hb]

theorem openFrame_kept (bs : List Byte) : EdgeKept s (openFrame c bs s) := by
  cases bs <;> exact ⟨rfl, rfl, rfl, rfl, rfl, rfl, rfl, rfl, fun h => absurd h Bool.false_ne_true⟩

theorem startAction_done (a : Action) : EdgeDone c s (startAction c a s) := by
  cases a with
  | csHigh => exact .inr ⟨s, .refl s, rfl, csRise_rx, ⟨rfl, rfl, rfl, rfl, rfl, rfl, rfl, rfl, id⟩⟩
  | frame bs cap => exact .inl (openFrame_kept bs)
  | check => exact .inl (openFrame_kept (frameR .rdsr))
  | wait n => exact .inl ⟨rfl, rfl, rfl, rfl, rfl, rfl, rfl, rfl, id⟩
  | csLow => exact .inl ⟨rfl, rfl, rfl, rfl, rfl, rfl, rfl, rfl, fun h => absurd h Bool.false_ne_true⟩
  | xfer b => exact .inl ⟨rfl, rfl, rfl, rfl, rfl, rfl, rfl, rfl, id⟩

/-- An action that completes at its start edge raises no line. -/
theorem startAction_kept {a : Action} (h : a.instant = true) : EdgeKept s (startAction c a s) := by
  cases a with
  | wait n => exact ⟨rfl, rfl, rfl, rfl, rfl, rfl, rfl, rfl, id⟩
  | csLow => exact ⟨rfl, rfl, rfl, rfl, rfl, rfl, rfl, rfl, fun h => absurd h Bool.false_ne_true⟩
  | csHigh => cases h
  | frame bs cap => cases h
  | xfer b => cases h
  | check => cases h

theorem storeByte_kept (a : Action) (j : Nat) : EdgeKept s (storeByte a j s) :=
  ⟨by simp, by simp, by simp, by simp, by simp, by simp, by simp, by simp, by simp⟩

theorem risingEdge_kept (a : Action) : EdgeKept s (risingEdge a s) := by
  unfold risingEdge
  simp only
  split
  · have h : ∀ u, EdgeKept s u → EdgeKept s (storeByte a s.sq.byteIdx u) := fun u hu => hu.trans (storeByte_kept a _)
    apply h
    exact ⟨rfl, rfl, rfl, rfl, rfl, rfl, rfl, rfl, id⟩
  · exact ⟨rfl, rfl, rfl, rfl, rfl, rfl, rfl, rfl, id⟩

theorem byteEnd_kept (a : Action) : EdgeKept s (byteEnd c a s).1 := by
  unfold byteEnd
  split
  · exact ⟨rfl, rfl, rfl, rfl, rfl, rfl, rfl, rfl, id⟩
  · simp only
    split <;> exact ⟨rfl, rfl, rfl, rfl, rfl, rfl, rfl, rfl, id⟩

/-- An edge of an action, and that cs_n does not rise at one that completes the action. -/
theorem actionEdge_done (a : Action) :
    EdgeDone c s (actionEdge c a s).1 ∧ ((actionEdge c a s).2 = true → EdgeKept s (actionEdge c a s).1) := by
  have keep : ∀ {r : State × Bool}, EdgeKept s r.1 → EdgeDone c s r.1 ∧ (r.2 = true → EdgeKept s r.1) :=
    fun h => ⟨.inl h, fun _ => h⟩
  unfold actionEdge
  split
  · exact keep (.refl s)
  · unfold shiftEdge
    split
    · exact keep ⟨rfl, rfl, rfl, rfl, rfl, rfl, rfl, rfl, id⟩
    · split
      · exact keep (risingEdge_kept a)
      · split
        · exact keep ⟨rfl, rfl, rfl, rfl, rfl, rfl, rfl, rfl, id⟩
        · exact keep (byteEnd_kept a)
  · unfold holdEdge
    split
    · exact keep ⟨rfl, rfl, rfl, rfl, rfl, rfl, rfl, rfl, id⟩
    · exact ⟨.inr ⟨s, .refl s, rfl, csRise_rx, ⟨rfl, rfl, rfl, rfl, rfl, rfl, rfl, rfl, id⟩⟩, fun h => nomatch h⟩
  · unfold gapEdge
    split <;> exact keep ⟨rfl, rfl, rfl, rfl, rfl, rfl, rfl, rfl, id⟩
  · exact keep ⟨rfl, rfl, rfl, rfl, rfl, rfl, rfl, rfl, id⟩

theorem openFrame_step (bs : List Byte) : (openFrame c bs s).sq.step = s.sq.step := by
  cases bs <;> rfl

theorem startAction_step (a : Action) : (startAction c a s).sq.step = s.sq.step := by
  cases a <;> first | rfl | exact openFrame_step _

theorem risingEdge_step (a : Action) : (risingEdge a s).sq.step = s.sq.step := by
  unfold risingEdge
  simp only
  split
  · simp
  · rfl

theorem actionEdge_step (a : Action) : (actionEdge c a s).1.sq.step = s.sq.step := by
  unfold actionEdge
  split
  · rfl
  · unfold shiftEdge
    split
    · rfl
    · split
      · exact risingEdge_step a
      · split
        · rfl
        · unfold byteEnd
          split
          · rfl
          · simp only
            split <;> rfl
  · unfold holdEdge
    split <;> rfl
  · unfold gapEdge
    split <;> rfl
  · rfl

/-- What starting the actions from index k on leaves: one of them under way, or the command published. -/
theorem beginActions_cases (as : List Action) (k : Nat) (s : State) :
    (∃ u, EdgeKept s u ∧ beginActions c as k s = publish c u) ∨
    (EdgeDone c s (beginActions c as k s) ∧
      ∃ j, (beginActions c as k s).sq.step = .run (k + j) ∧ j < as.length) := by
  induction as generalizing k s with
  | nil => exact .inl ⟨s, .refl s, rfl⟩
  | cons a as ih =>
    have h0 : EdgeKept s { s with sq := { s.sq with step := .run k } } := ⟨rfl, rfl, rfl, rfl, rfl, rfl, rfl, rfl, id⟩
    have hs := startAction_step (c := c) (s := { s with sq := { s.sq with step := .run k } }) a
    simp only [beginActions]
    split
    · rename_i hi
      have hk := h0.trans (startAction_kept (c := c) hi)
      rcases ih (k + 1) (startAction c a { s with sq := { s.sq with step := .run k } }) with
        ⟨u, h1, h2⟩ | ⟨h1, j, h2, h3⟩
      · exact .inl ⟨u, hk.trans h1, h2⟩
      · exact .inr ⟨hk.trans_done h1, j + 1, by rw [h2]; congr 1; omega, by simp; omega⟩
    · exact .inr ⟨h0.trans_done (startAction_done a), 0, hs, by simp⟩

/-- What an edge of a running command leaves: an action under way, or the command published (10_state R37). -/
theorem progress_next (h : progress c s = .next t) (hb : s.busy = true) :
    (∃ u, EdgeKept s u ∧ t = publish c u) ∨
    (EdgeDone c s t ∧ ∃ k, t.sq.step = .run k ∧ k < t.sq.seq.length) := by
  have begun : ∀ (m : Nat) (v : State), EdgeKept s v →
      (∃ u, EdgeKept s u ∧ beginActions c (s.sq.seq.drop m) m v = publish c u) ∨
      (EdgeDone c s (beginActions c (s.sq.seq.drop m) m v) ∧
        ∃ k, (beginActions c (s.sq.seq.drop m) m v).sq.step = .run k ∧
          k < (beginActions c (s.sq.seq.drop m) m v).sq.seq.length) := by
    intro m v hv
    rcases beginActions_cases (c := c) (s.sq.seq.drop m) m v with ⟨u, h1, h2⟩ | ⟨h1, j, h2, h3⟩
    · exact .inl ⟨u, hv.trans h1, h2⟩
    · refine .inr ⟨hv.trans_done h1, _, h2, ?_⟩
      rw [(hv.trans_done h1).seq]
      simp at h3
      omega
  unfold progress at h
  split at h
  · rename_i hi
    simp [State.busy, hi] at hb
  · cases h
    exact .inl ⟨s, .refl s, rfl⟩
  · rename_i k hk
    split at h
    · cases h
    · rename_i a ha
      have hlt : k < s.sq.seq.length := (List.getElem?_eq_some_iff.1 ha).1
      split at h
      · cases h
        exact begun k s (.refl s)
      · obtain ⟨hk1, hk2⟩ := actionEdge_done (c := c) (s := s) a
        simp only at h
        split at h
        · rename_i h2
          cases h
          exact begun (k + 1) _ (hk2 h2)
        · cases h
          exact .inr ⟨hk1, k, (actionEdge_step a).trans hk, by rw [hk1.seq]; exact hlt⟩

/-! ## A write to STATUS at an edge (10_state R42) -/

/-- Starting the actions from index k on either publishes at once, after the same edge whatever the host has written, or
leaves an action under way. -/
theorem beginActions_touch_cases (as : List Action) (k : Nat) (s : State) :
    (∃ u, ∀ g x, beginActions c as k (touch g x s) = publish c (touch g x u)) ∨
    ((∀ g x, beginActions c as k (touch g x s) = touch g x (beginActions c as k s)) ∧
      ∃ j, (beginActions c as k s).sq.step = .run j) := by
  induction as generalizing k s with
  | nil => exact .inl ⟨s, fun _ _ => rfl⟩
  | cons a as ih =>
    have h : ∀ g x, startAction c a { touch g x s with sq := { (touch g x s).sq with step := .run k } } =
        touch g x (startAction c a { s with sq := { s.sq with step := .run k } }) :=
      fun g x => startAction_touch (c := c) (s := { s with sq := { s.sq with step := .run k } }) g x a
    have hs := startAction_step (c := c) (s := { s with sq := { s.sq with step := .run k } }) a
    simp only [beginActions, h]
    cases a.instant
    · simp only [Bool.false_eq_true, if_false]
      exact .inr ⟨by simp, k, hs⟩
    · simp only [if_true]
      exact ih _ _

/-- An edge of a running command either publishes, after the same edge whatever the host has written, or leaves the
command running. -/
theorem progress_touch_cases (hb : s.busy = true) :
    (∃ u, ∀ g x, progress c (touch g x s) = .next (publish c (touch g x u))) ∨
    ((∀ g x, progress c (touch g x s) = andThen (progress c s) (fun t => .next (touch g x t))) ∧
      ∀ t, progress c s = .next t → t.busy = true) := by
  unfold progress
  have h : ∀ g x, (touch g x s).sq = s.sq := fun _ _ => rfl
  simp only [h]
  cases hk : s.sq.step with
  | idle => simp [State.busy, hk] at hb
  | fin => exact .inl ⟨s, fun _ _ => rfl⟩
  | run k =>
    simp only
    cases ha : s.sq.seq[k]? with
    | none => exact .inr ⟨by simp [andThen], fun t ht => by cases ht⟩
    | some a =>
      simp only [actionEdge_touch]
      have begun : ∀ (m : Nat) (v : State),
          (∃ u, ∀ g x, Host.Outcome.next (φ := Fault) (ρ := Refusal) (beginActions c (s.sq.seq.drop m) m (touch g x v)) =
            .next (publish c (touch g x u))) ∨
          ((∀ g x, Host.Outcome.next (beginActions c (s.sq.seq.drop m) m (touch g x v)) =
              andThen (.next (beginActions c (s.sq.seq.drop m) m v)) (fun t => .next (touch g x t))) ∧
            ∀ t, Host.Outcome.next (φ := Fault) (ρ := Refusal) (beginActions c (s.sq.seq.drop m) m v) = .next t →
              t.busy = true) := by
        intro m v
        rcases beginActions_touch_cases (c := c) (s.sq.seq.drop m) m v with ⟨u, hu⟩ | ⟨hu, j, hj⟩
        · exact .inl ⟨u, fun g x => by rw [hu]⟩
        · exact .inr ⟨fun g x => by rw [hu]; rfl, fun t ht => by cases ht; simp [State.busy, hj]⟩
      split
      · exact begun k s
      · cases (actionEdge c a s).2
        · simp only [Bool.false_eq_true, if_false]
          exact .inr ⟨fun _ _ => rfl, fun t ht => by
            cases ht
            simp [State.busy, actionEdge_step, hk]⟩
        · simp only [if_true]
          exact begun (k + 1) _

end Sys2Proof.Machine
end

