-- ==== Sys2Proof/Laws/Commands.lean ====
section
/-! SUPPORT. The frames a high-level command sends: that the device decodes each as the instruction it stands for, what
it answers, and what a frame leaves that starts no operation and in which none completes. -/

namespace Sys2Proof.Machine

variable {c : Env} {s t : State}

/-! ## The frames decode -/

theorem decode_wren : decodeFrame (frameN .wren) = .ok .spiWren := rfl
theorem decode_wrdi : decodeFrame (frameN .wrdi) = .ok .spiWrdi := rfl
theorem decode_ewsr : decodeFrame (frameN .ewsr) = .ok .spiEwsr := rfl
theorem decode_chipErase : decodeFrame (frameN .chipErase) = .ok .spiChipErase := rfl
theorem decode_rdsr : decodeFrame (frameR .rdsr) = .ok (.spiRdsr dummyByte) := rfl
theorem decode_wrsr (d : Byte) : decodeFrame (frameW .wrsr d) = .ok (.spiWrsr d) := rfl
theorem decode_rdid (sel : Byte) : decodeFrame (frameID .rdid sel) = .ok (.spiRdid 0x00#8 0x00#8 sel dummyByte) := rfl

theorem decode_read (a : Addr) : decodeFrame (frameAR .read a) = .ok (.spiRead a dummyByte) := by
  have h : decodeFrame (frameAR .read a) = .ok (.spiRead (addrOf (addrA2 a) (addrA1 a) (addrA0 a)) dummyByte) := rfl
  rw [h, addrOf_bytes]

theorem decode_program (a : Addr) (d : Byte) : decodeFrame (frameAW .program a d) = .ok (.spiProgram a d) := by
  have h : decodeFrame (frameAW .program a d) = .ok (.spiProgram (addrOf (addrA2 a) (addrA1 a) (addrA0 a)) d) := rfl
  rw [h, addrOf_bytes]

theorem decode_sectorErase (a : Addr) : decodeFrame (frameA .sectorErase a) = .ok (.spiSectorErase a) := by
  have h : decodeFrame (frameA .sectorErase a) = .ok (.spiSectorErase (addrOf (addrA2 a) (addrA1 a) (addrA0 a))) := rfl
  rw [h, addrOf_bytes]

theorem decode_blockErase32 (a : Addr) : decodeFrame (frameA .blockErase32 a) = .ok (.spiBlockErase32 a) := by
  have h : decodeFrame (frameA .blockErase32 a) = .ok (.spiBlockErase32 (addrOf (addrA2 a) (addrA1 a) (addrA0 a))) :=
    rfl
  rw [h, addrOf_bytes]

theorem decode_blockErase64 (a : Addr) : decodeFrame (frameA .blockErase64 a) = .ok (.spiBlockErase64 a) := by
  have h : decodeFrame (frameA .blockErase64 a) = .ok (.spiBlockErase64 (addrOf (addrA2 a) (addrA1 a) (addrA0 a))) :=
    rfl
  rw [h, addrOf_bytes]

/-! ## The responses -/

/-- Byte 1 of an RDSR frame is the status byte (45_device R222). -/
theorem response_rdsr (v : Device) : response c { v with rx := (frameR .rdsr).take 1 } = some (srByte c v) := rfl

/-- Byte 4 of a READ frame to an idle device that has the address is the array byte (45_device R230). -/
theorem response_read {v : Device} {a : Addr} {x : Nat} (hb : v.busy = false) (hl : locate c a = some x) :
    response c { v with rx := (frameAR .read a).take 4 } = some (Memory.read c.d.array v.array x) := by
  have h : response c { v with rx := (frameAR .read a).take 4 } =
      if v.busy then none
      else (locate c (addrOf (addrA2 a) (addrA1 a) (addrA0 a))).map (Memory.read c.d.array v.array) := rfl
  rw [h, addrOf_bytes, hb, hl]
  rfl

/-- Byte 4 of an RDID frame to an idle device is the identification byte (45_device R228). -/
theorem response_rdid {v : Device} (sel : Byte) (hb : v.busy = false) :
    response c { v with rx := (frameID .rdid sel).take 4 } = idByte c sel := by
  have h : response c { v with rx := (frameID .rdid sel).take 4 } = if v.busy then none else idByte c sel := rfl
  rw [h, hb]
  rfl

/-! ## Time in which no operation completes -/

theorem Steady.mono {n k : Nat} (h : Steady n s) (hk : k ≤ n) : Steady k s :=
  fun hb j hj => Nat.lt_of_le_of_lt hk (h hb j hj)

theorem steady_of_idle (n : Nat) (h : s.dev.busy = false) : Steady n s := fun hb => by rw [h] at hb; cases hb

/-- Accept takes two edges. -/
theorem accepted_steady {code : Code} {q : Latches → Bool → List Action} {k : Nat} (h : Steady (2 + k) s) :
    (accepted c code q s).dev = { s.dev with left := s.dev.left.map (fun j => j - 2) } ∧
      Steady k (accepted c code q s) := by
  have hd : (accepted c code q s).dev = { s.dev with left := s.dev.left.map (fun j => j - 2) } :=
    elapseDev_steady _ _ (h.mono (by omega))
  refine ⟨hd, ?_⟩
  intro hb j hj
  rw [hd] at hb hj
  simp only [Option.map_eq_some_iff] at hj
  obtain ⟨i, hi, rfl⟩ := hj
  have := h hb i hi
  omega

/-- The device at the end of a frame in which nothing completes. -/
theorem FrameEnded.steady {a : Action} {u w : State} {k : Nat} (hu : FrameEnded c a s u)
    (hs : Steady (frameCycles c a.bytes.length + k) s) (hb : w.dev.busy = u.dev.busy) (hl : w.dev.left = u.dev.left) :
    (gapAfter c w).dev = { w.dev with left := w.dev.left.map (fun j => j - cshCycles c) } ∧
      Steady k (gapAfter c w) := by
  have hub : u.dev.busy = s.dev.busy := by rw [hu.dev]
  have hul : u.dev.left = s.dev.left.map (fun j => j - lowCycles c a.bytes.length) := by rw [hu.dev]
  have hst : ∀ j, w.dev.busy = true → w.dev.left = some j → cshCycles c + k < j := by
    intro j hwb hwl
    rw [hl, hul, Option.map_eq_some_iff] at hwl
    obtain ⟨i, hi, rfl⟩ := hwl
    have := hs (hub.symm.trans (hb.symm.trans hwb)) i hi
    unfold frameCycles at this
    omega
  have hd : (gapAfter c w).dev = { w.dev with left := w.dev.left.map (fun j => j - cshCycles c) } := by
    rw [gapAfter_dev]
    refine elapseDev_steady _ _ (fun h j hj => ?_)
    have := hst j h hj
    omega
  refine ⟨hd, ?_⟩
  intro h j hj
  rw [hd] at h hj
  simp only [Option.map_eq_some_iff] at hj
  obtain ⟨i, hi, rfl⟩ := hj
  have := hst i h hi
  omega

/-- A frame whose act starts no operation, in a time in which none completes. -/
structure QuietFrame (c : Env) (a : Action) (i : Instr) (k : Nat) (s u w t : State) : Prop where
  ended : FrameEnded c a s u
  act : deviceAct c i u = .next w
  run : runFrame c a s = .next t
  gap : t = gapAfter c w
  dev : t.dev = { w.dev with left := w.dev.left.map (fun j => j - cshCycles c) }
  steady : Steady k t
  csN : t.bus.csN = true

theorem runFrame_quiet {a : Action} {i : Instr} {k : Nat} (hi : decodeFrame a.bytes = .ok i)
    (hs : Steady (frameCycles c a.bytes.length + k) s)
    (hact : ∀ u, FrameEnded c a s u →
      ∃ w, deviceAct c i u = .next w ∧ w.dev.busy = u.dev.busy ∧ w.dev.left = u.dev.left) :
    ∃ u w t, QuietFrame c a i k s u w t := by
  obtain ⟨u, hu, hr⟩ := runFrame_eq (c := c) (s := s) a hi
  obtain ⟨w, hw, hb, hl⟩ := hact u hu
  have hc : w.bus.csN = true := by rw [(deviceAct_next hw).bus, hu.csN]
  obtain ⟨h1, h2⟩ := hu.steady hs hb hl
  exact ⟨u, w, gapAfter c w, hu, hw, by rw [hr, hw]; rfl, rfl, h1, h2, hc⟩

/-- A frame to a busy device that stays busy: ignored, but for RDSR, which is answered. -/
theorem runFrame_ignored {a : Action} {i : Instr} {k : Nat} (hi : decodeFrame a.bytes = .ok i)
    (hs : Steady (frameCycles c a.bytes.length + k) s) (hb : s.dev.busy = true) :
    ∃ u w t, QuietFrame c a i k s u w t ∧ DevKept s t ∧ t.dev.ewsrArmed = false := by
  have hact : ∀ u, FrameEnded c a s u →
      ∃ w, deviceAct c i u = .next w ∧ w.dev.busy = u.dev.busy ∧ w.dev.left = u.dev.left := by
    intro u hu
    have hub : u.dev.busy = true := by rw [hu.dev]; exact hb
    obtain ⟨w, hw⟩ := deviceAct_busy (c := c) hi hub
    have hk := deviceAct_next hw
    rcases hk.op with h | h
    · exact ⟨w, hw, h.1, h.2.2⟩
    · rw [hub] at h; cases h.1
  obtain ⟨u, w, t, hq⟩ := runFrame_quiet hi hs hact
  have hub : u.dev.busy = true := by rw [hq.ended.dev]; exact hb
  have hk := deviceAct_next hq.act
  have hop : w.dev.busy = u.dev.busy ∧ w.dev.pending = u.dev.pending := by
    rcases hk.op with h | h
    · exact ⟨h.1, h.2.1⟩
    · rw [hub] at h; cases h.1
  have hud := hq.ended.dev
  refine ⟨u, w, t, hq, ⟨⟨?_, ?_, ?_, ?_⟩, ?_⟩, ?_⟩
  · rw [hq.dev]; exact hk.array.trans (by rw [hud])
  · rw [hq.dev]; exact hop.1.trans (by rw [hud])
  · rw [hq.dev]; exact hop.2.trans (by rw [hud])
  · rw [hq.dev]; exact (hk.ignored hub).2.1.trans (by rw [hud])
  · rw [hq.dev]; exact (hk.ignored hub).1.trans (by rw [hud])
  · rw [hq.dev]; exact hk.disarmed hub

end Sys2Proof.Machine
end

