-- ==== Sys2Proof/Laws/Invariant.lean ====
section
/-! SUPPORT. The array keeps its canonical form and its range through the completion step, elapsing time and a loss of
power, and has them at reset. -/

namespace Sys2Proof.Machine

variable {c : Env} {m : List Host.Cell} {v : Device}

/-- The array is in canonical form and within FLASH_SIZE. -/
structure ArrayLegal (c : Env) (m : List Host.Cell) : Prop where
  wf : Memory.wf c.d.array m
  inRange : ∀ p ∈ m, p.1 < flashSize c

theorem ArrayLegal.write (h : ArrayLegal c m) {a : Nat} (ha : a < flashSize c) (d : Byte) :
    ArrayLegal c (Memory.write c.d.array m a d) := by
  refine ⟨Memory.wf_write h.wf a d, fun p hp => ?_⟩
  rcases Memory.mem_write hp with rfl | hp
  · exact ha
  · exact h.inRange p hp

theorem ArrayLegal.fill (h : ArrayLegal c m) {hi : Nat} (hh : hi ≤ flashSize c) (g : Nat → Byte) (lo : Nat) :
    ArrayLegal c (Memory.fill c.d.array g m lo hi) := by
  refine ⟨Memory.wf_fill h.wf lo hi, fun p hp => ?_⟩
  rcases Memory.mem_fill.1 hp with ⟨hp, -⟩ | ⟨-, hp, -⟩
  · exact h.inRange p hp
  · omega

theorem ArrayLegal.applyPending (h : ArrayLegal c m) {op : Option Pending}
    (hp : ∀ p ∈ op, p.inRange (flashSize c)) : ArrayLegal c (applyPending c m op) := by
  cases op with
  | none => exact h
  | some p =>
    have hr := hp p rfl
    cases p with
    | program a d => exact h.write hr _
    | erase lo hi => exact h.fill hr _ lo

theorem ArrayLegal.lostArray (h : ArrayLegal c m) {op : Option Pending} (n : Nat)
    (hp : ∀ p ∈ op, p.inRange (flashSize c)) : ArrayLegal c (lostArray c n m op) := by
  cases op with
  | none => exact h
  | some p =>
    have hr := hp p rfl
    cases p with
    | program a d => exact h.write hr _
    | erase lo hi => exact h.fill hr _ lo

/-- The device part of the invariant. -/
structure DeviceLegal (c : Env) (v : Device) : Prop extends ArrayLegal c v.array where
  busyPending : v.busy = v.pending.isSome
  pendingInRange : ∀ p ∈ v.pending, p.inRange (flashSize c)

/-- It rests on the array, the busy flag and the pending operation alone. -/
theorem DeviceLegal.congr {w : Device} (h : DeviceLegal c v) (ha : w.array = v.array) (hb : w.busy = v.busy)
    (hp : w.pending = v.pending) : DeviceLegal c w :=
  ⟨by rw [ha]; exact h.toArrayLegal, by rw [hb, hp]; exact h.busyPending, by rw [hp]; exact h.pendingInRange⟩

theorem DeviceLegal.complete (h : DeviceLegal c v) : DeviceLegal c (complete c v) :=
  ⟨h.toArrayLegal.applyPending h.pendingInRange, rfl, by simp [Machine.complete]⟩

theorem DeviceLegal.elapseDev (h : DeviceLegal c v) (csN : Bool) (n : Nat) : DeviceLegal c (elapseDev c csN n v) := by
  unfold Machine.elapseDev
  split
  · exact h.complete.congr rfl rfl rfl
  · exact h.congr rfl rfl rfl

theorem DeviceLegal.completeHeld (h : DeviceLegal c v) : DeviceLegal c (completeHeld c v) := by
  unfold Machine.completeHeld
  split
  · exact h.complete
  · exact h

theorem DeviceLegal.turn {s t : State} (h : DeviceLegal c s.dev) (ht : TurnTaken c s t) : DeviceLegal c t.dev := by
  rcases ht.op with ⟨hb, hp, -⟩ | ⟨-, -, hb, -, -, p, hp, hr⟩
  · exact h.congr ht.array hb hp
  · refine ⟨by rw [ht.array]; exact h.toArrayLegal, by rw [hb, hp]; rfl, ?_⟩
    rw [hp]
    intro q hq
    cases hq
    exact hr

/-- The array lists nothing at reset, which is canonical. -/
theorem reset_array_wf (c : Env) : Memory.wf c.d.array (State.resetIn c).dev.array :=
  ⟨List.Pairwise.nil, fun _ h => nomatch h⟩

end Sys2Proof.Machine
end

