-- ==== Sys2Proof/Laws/PerInstr.lean ====
section
/-! SUPPORT. For each instruction: its encoding is a command word that holds its code alone, or a frame of one of the four
lengths of 30_encoding R111 that is well-formed in the sense of R112. -/

namespace Sys2Proof.Laws.WellFormedEncoding

/-- The encoding of the instruction is one that the FCS or the device defines. -/
def Statement (i : Instr) : Prop :=
  match encode i with
  | .cmdWord w => w.toNat < 16
  | .spiFrame bs => frameWellFormed bs = true ∧ bs.length ∈ [1, 2, 4, 5]

theorem reserved : Statement .reserved := by unfold Statement encode; decide
theorem readByte : Statement .readByte := by unfold Statement encode; decide
theorem writeByte : Statement .writeByte := by unfold Statement encode; decide
theorem eraseChip : Statement .eraseChip := by unfold Statement encode; decide
theorem eraseSector : Statement .eraseSector := by unfold Statement encode; decide
theorem eraseBlock32 : Statement .eraseBlock32 := by unfold Statement encode; decide
theorem eraseBlock64 : Statement .eraseBlock64 := by unfold Statement encode; decide
theorem readSr : Statement .readSr := by unfold Statement encode; decide
theorem writeSr : Statement .writeSr := by unfold Statement encode; decide
theorem ewsr : Statement .ewsr := by unfold Statement encode; decide
theorem wren : Statement .wren := by unfold Statement encode; decide
theorem wrdi : Statement .wrdi := by unfold Statement encode; decide
theorem readId : Statement .readId := by unfold Statement encode; decide
theorem csAssert : Statement .csAssert := by unfold Statement encode; decide
theorem csDeassert : Statement .csDeassert := by unfold Statement encode; decide
theorem xfer : Statement .xfer := by unfold Statement encode; decide
theorem spiRead (a : Addr) (dummy : Byte) : Statement (.spiRead a dummy) := ⟨rfl, by simp [addrFrame]⟩
theorem spiProgram (a : Addr) (d : Byte) : Statement (.spiProgram a d) := ⟨rfl, by simp [addrFrame]⟩
theorem spiWren : Statement .spiWren := ⟨rfl, by simp⟩
theorem spiWrdi : Statement .spiWrdi := ⟨rfl, by simp⟩
theorem spiEwsr : Statement .spiEwsr := ⟨rfl, by simp⟩
theorem spiWrsr (d : Byte) : Statement (.spiWrsr d) := ⟨rfl, by simp⟩
theorem spiRdsr (dummy : Byte) : Statement (.spiRdsr dummy) := ⟨rfl, by simp⟩
theorem spiRdid (zero0 zero1 sel dummy : Byte) : Statement (.spiRdid zero0 zero1 sel dummy) := ⟨rfl, by simp⟩
theorem spiSectorErase (a : Addr) : Statement (.spiSectorErase a) := ⟨rfl, by simp [addrFrame]⟩
theorem spiBlockErase32 (a : Addr) : Statement (.spiBlockErase32 a) := ⟨rfl, by simp [addrFrame]⟩
theorem spiBlockErase64 (a : Addr) : Statement (.spiBlockErase64 a) := ⟨rfl, by simp [addrFrame]⟩
theorem spiChipErase : Statement .spiChipErase := ⟨rfl, by simp⟩

end Sys2Proof.Laws.WellFormedEncoding
end

