-- ==== Sys2Proof/Laws/Schedule.lean ====
section
/-! SUPPORT. The schedule of 40_transport R131 to R135 counted out: what the clk edges of half an SCK period, a bit, a byte,
chip-select hold, the chip-select gap and the idle wait reach, and that a byte's edges reach its exchange. -/

namespace Sys2Proof.Machine

variable {c : Env} {s t : State}

/-! ## A running command -/

/-- The step state, the phase and the byte index set. -/
def reseat (k : StepState) (ph : Phase) (j : Nat) (s : State) : State :=
  { s with sq := { s.sq with step := k, phase := ph, byteIdx := j } }

/-- div_ctr set. -/
def setDiv (d : Nat) (s : State) : State := { s with bus := { s.bus with divCtr := d } }

/-- gap_ctr set. -/
def setGap (d : Nat) (s : State) : State := { s with bus := { s.bus with gapCtr := d } }

/-- wait_ctr set. -/
def setWait (d : Nat) (s : State) : State := { s with sq := { s.sq with waitCtr := d } }

/-- A running command, at action `a` of index `k`, whose host leaves the port alone, with no ended frame waiting. -/
structure Live (k : Nat) (a : Action) (s : State) : Prop where
  port : s.port = []
  hRdata : s.hRdata = 0x00000000#32
  step : s.sq.step = .run k
  action : s.sq.seq[k]? = some a
  noTurn : turnDue s = false

theorem Live.elapse {k : Nat} {a : Action} (h : Live k a s) (n : Nat) : Live k a (elapse c n s) :=
  ⟨h.port, h.hRdata, h.step, h.action, h.noTurn⟩
theorem Live.setDiv {k : Nat} {a : Action} (h : Live k a s) (d : Nat) : Live k a (setDiv d s) :=
  ⟨h.port, h.hRdata, h.step, h.action, h.noTurn⟩
theorem Live.setGap {k : Nat} {a : Action} (h : Live k a s) (d : Nat) : Live k a (setGap d s) :=
  ⟨h.port, h.hRdata, h.step, h.action, h.noTurn⟩
theorem Live.setWait {k : Nat} {a : Action} (h : Live k a s) (d : Nat) : Live k a (setWait d s) :=
  ⟨h.port, h.hRdata, h.step, h.action, h.noTurn⟩

theorem elapse_zero (s : State) : elapse c 0 s = s := by
  have hd : elapseDev c s.bus.csN 0 s.dev = s.dev := by
    rw [elapseDev_of_not_due (by simp [completionDue])]; simp
  simp [elapse, hd]

theorem elapse_setDiv (n d : Nat) (s : State) : elapse c n (setDiv d s) = setDiv d (elapse c n s) := rfl
theorem elapse_setGap (n d : Nat) (s : State) : elapse c n (setGap d s) = setGap d (elapse c n s) := rfl
theorem elapse_setWait (n d : Nat) (s : State) : elapse c n (setWait d s) = setWait d (elapse c n s) := rfl
theorem elapse_reseat (n : Nat) (k : StepState) (ph : Phase) (j : Nat) (s : State) :
    elapse c n (reseat k ph j s) = reseat k ph j (elapse c n s) := rfl

/-- Go on from an edge of action `k`: the next action, or the same. -/
def goOn (c : Env) (k : Nat) (r : State × Bool) : State :=
  if r.2 then beginActions c (r.1.sq.seq.drop (k + 1)) (k + 1) r.1 else r.1

theorem clockRun_live {k : Nat} {a : Action} (h : Live k a s) (hp : s.sq.phase ≠ .start) (n : Nat) :
    clockRun c (n + 1) s = clockRun c n (goOn c k (actionEdge c a (elapse c 1 s))) := by
  have hb : s.busy = true := by simp [State.busy, h.step]
  have he : clockEdge c s = progress c (elapse c 1 s) := by
    have : ({ elapse c 1 { s with port := [] } with hRdata := 0x00000000#32 } : State) = elapse c 1 s := by
      have h1 := h.port
      have h2 := h.hRdata
      cases s
      simp only at h1 h2
      subst h1; subst h2; rfl
    simp only [clockEdge, h.port, List.headD_nil, List.tail_nil, Cycle.idle, Bool.false_eq_true, if_false, if_true,
      portAccess, readData, hb, this]
  have hseq := (actionEdge_done (c := c) (s := elapse c 1 s) a).1.seq
  have hpr : progress c (elapse c 1 s) = .next (goOn c k (actionEdge c a (elapse c 1 s))) := by
    have h1 : (elapse c 1 s).sq = s.sq := rfl
    rw [h1] at hseq
    unfold progress
    rw [h1, h.step]
    simp only [h.action]
    rw [if_neg hp, goOn, hseq]
    split <;> rfl
  simp only [clockRun, h.noTurn, Bool.false_eq_true, if_false, andThen_of_next, he, hpr]

theorem edge_on {k : Nat} {a : Action} {u : State} (h : Live k a s) (hp : s.sq.phase ≠ .start) (n : Nat)
    (he : actionEdge c a (elapse c 1 s) = (u, false)) : clockRun c (n + 1) s = clockRun c n u := by
  rw [clockRun_live h hp, he]; rfl

/-! ## Counting -/

theorem shift_count {k : Nat} {a : Action} (m d : Nat) (s : State) (h : Live k a s) (hp : s.sq.phase = .shift) (n : Nat)
    (hm : d + m < sckHalf c) :
    clockRun c (m + n) (setDiv d s) = clockRun c n (setDiv (d + m) (elapse c m s)) := by
  induction m generalizing s d with
  | zero => rw [elapse_zero, Nat.zero_add]; rfl
  | succ m ih =>
    have he : actionEdge c a (elapse c 1 (setDiv d s)) = (setDiv (d + 1) (elapse c 1 s), false) := by
      have h1 : (elapse c 1 (setDiv d s)).sq.phase = .shift := hp
      have h2 : (elapse c 1 (setDiv d s)).bus.divCtr = d := rfl
      simp only [actionEdge, h1, shiftEdge, h2]
      rw [if_pos (by omega)]
      rfl
    rw [show m + 1 + n = (m + n) + 1 by omega, edge_on (h.setDiv d) (by simp [setDiv, hp]) (m + n) he,
      ih (d + 1) _ (h.elapse 1) hp (by omega), elapse_add, show d + 1 + m = d + (m + 1) by omega,
      show 1 + m = m + 1 by omega]

theorem hold_count {k : Nat} {a : Action} (m d : Nat) (s : State) (h : Live k a s) (hp : s.sq.phase = .hold) (n : Nat)
    (hm : d + m < sckHalf c) :
    clockRun c (m + n) (setGap d s) = clockRun c n (setGap (d + m) (elapse c m s)) := by
  induction m generalizing s d with
  | zero => rw [elapse_zero, Nat.zero_add]; rfl
  | succ m ih =>
    have he : actionEdge c a (elapse c 1 (setGap d s)) = (setGap (d + 1) (elapse c 1 s), false) := by
      have h1 : (elapse c 1 (setGap d s)).sq.phase = .hold := hp
      have h2 : (elapse c 1 (setGap d s)).bus.gapCtr = d := rfl
      simp only [actionEdge, h1, holdEdge, h2]
      rw [if_pos (by omega)]
      rfl
    rw [show m + 1 + n = (m + n) + 1 by omega, edge_on (h.setGap d) (by simp [setGap, hp]) (m + n) he,
      ih (d + 1) _ (h.elapse 1) hp (by omega), elapse_add, show d + 1 + m = d + (m + 1) by omega,
      show 1 + m = m + 1 by omega]

theorem gap_count {k : Nat} {a : Action} (m d : Nat) (s : State) (h : Live k a s) (hp : s.sq.phase = .gap) (n : Nat)
    (hm : d + m < cshCycles c) :
    clockRun c (m + n) (setGap d s) = clockRun c n (setGap (d + m) (elapse c m s)) := by
  induction m generalizing s d with
  | zero => rw [elapse_zero, Nat.zero_add]; rfl
  | succ m ih =>
    have he : actionEdge c a (elapse c 1 (setGap d s)) = (setGap (d + 1) (elapse c 1 s), false) := by
      have h1 : (elapse c 1 (setGap d s)).sq.phase = .gap := hp
      have h2 : (elapse c 1 (setGap d s)).bus.gapCtr = d := rfl
      simp only [actionEdge, h1, gapEdge, h2]
      rw [if_pos (by omega)]
      rfl
    rw [show m + 1 + n = (m + n) + 1 by omega, edge_on (h.setGap d) (by simp [setGap, hp]) (m + n) he,
      ih (d + 1) _ (h.elapse 1) hp (by omega), elapse_add, show d + 1 + m = d + (m + 1) by omega,
      show 1 + m = m + 1 by omega]

theorem waitEdge_setWait (d : Nat) (s : State) : waitEdge (setWait d s) = (setWait (d - 1) s, decide (d ≤ 1)) := rfl

/-- A wait of n + 1 cycles. -/
theorem wait_run {k : Nat} {a : Action} (m : Nat) (s : State) (h : Live k a s) (hp : s.sq.phase = .wait) (n : Nat) :
    clockRun c (m + 1 + n) (setWait (m + 1) s) = clockRun c n (goOn c k (setWait 0 (elapse c (m + 1) s), true)) := by
  have he : ∀ d s, s.sq.phase = .wait →
      actionEdge c a (elapse c 1 (setWait d s)) = (setWait (d - 1) (elapse c 1 s), decide (d ≤ 1)) := by
    intro d s hp
    have h1 : (elapse c 1 (setWait d s)).sq.phase = .wait := hp
    unfold actionEdge
    rw [h1, elapse_setWait]
    exact waitEdge_setWait d _
  induction m generalizing s with
  | zero =>
    rw [show 0 + 1 + n = n + 1 by omega, clockRun_live (h.setWait 1) (by simp [setWait, hp]) n, he _ _ hp]
    rfl
  | succ m ih =>
    rw [show m + 1 + 1 + n = (m + 1 + n) + 1 by omega,
      edge_on (h.setWait (m + 1 + 1)) (by simp [setWait, hp]) (m + 1 + n)
        (u := setWait (m + 1) (elapse c 1 s)) (by rw [he _ _ hp]; simp), ih _ (h.elapse 1) hp, elapse_add,
      show 1 + (m + 1) = m + 1 + 1 by omega]

/-- The chip-select gap: after C cycles the action completes. -/
theorem gap_run {k : Nat} {a : Action} (h : Live k a s) (hp : s.sq.phase = .gap) (n : Nat) :
    clockRun c (cshCycles c + n) (setGap 0 s) = clockRun c n (goOn c k (gapAfter c s, true)) := by
  have hC : 0 < cshCycles c := Nat.succ_pos _
  rw [show cshCycles c + n = (cshCycles c - 1) + (n + 1) by omega, gap_count _ 0 s h hp _ (by omega), Nat.zero_add]
  have he : actionEdge c a (elapse c 1 (setGap (cshCycles c - 1) (elapse c (cshCycles c - 1) s))) = (gapAfter c s, true) := by
    have h1 : (elapse c 1 (setGap (cshCycles c - 1) (elapse c (cshCycles c - 1) s))).sq.phase = .gap := hp
    have h2 : (elapse c 1 (setGap (cshCycles c - 1) (elapse c (cshCycles c - 1) s))).bus.gapCtr = cshCycles c - 1 := rfl
    simp only [actionEdge, h1, gapEdge, h2]
    rw [if_neg (by omega), elapse_setGap, elapse_add, show cshCycles c - 1 + 1 = cshCycles c by omega]
    rfl
  rw [clockRun_live ((h.elapse _).setGap _) (by simp [setGap, hp]) n, he]

/-- Chip-select hold: after H cycles cs_n rises. -/
theorem hold_run {k : Nat} {a : Action} (h : Live k a s) (hp : s.sq.phase = .hold) (n : Nat) :
    clockRun c (sckHalf c + n) (setGap 0 s) =
      clockRun c n (setGap 0 (reseat s.sq.step .gap s.sq.byteIdx (csRise c (elapse c (sckHalf c) s)))) := by
  have hC : 0 < sckHalf c := Nat.succ_pos _
  rw [show sckHalf c + n = (sckHalf c - 1) + (n + 1) by omega, hold_count _ 0 s h hp _ (by omega), Nat.zero_add]
  have he : actionEdge c a (elapse c 1 (setGap (sckHalf c - 1) (elapse c (sckHalf c - 1) s))) =
      (setGap 0 (reseat s.sq.step .gap s.sq.byteIdx (csRise c (elapse c (sckHalf c) s))), false) := by
    have h1 : (elapse c 1 (setGap (sckHalf c - 1) (elapse c (sckHalf c - 1) s))).sq.phase = .hold := hp
    have h2 : (elapse c 1 (setGap (sckHalf c - 1) (elapse c (sckHalf c - 1) s))).bus.gapCtr = sckHalf c - 1 := rfl
    simp only [actionEdge, h1, holdEdge, h2]
    rw [if_neg (by omega), elapse_setGap, elapse_add, show sckHalf c - 1 + 1 = sckHalf c by omega]
    rfl
  rw [edge_on ((h.elapse _).setGap _) (by simp [setGap, hp]) n he]

/-- Half an SCK period: H cycles, and then what happens at its last edge. -/
theorem half_run {k : Nat} {a : Action} (h : Live k a s) (hp : s.sq.phase = .shift) (hd : s.bus.divCtr = 0) (n : Nat) :
    clockRun c (sckHalf c + n) s = clockRun c n (goOn c k
      (if !s.bus.half then (risingEdge a (elapse c (sckHalf c) s), false)
       else if s.bus.bitCtr ≠ 0#3 then (nextBit (elapse c (sckHalf c) s), false)
       else byteEnd c a (elapse c (sckHalf c) s))) := by
  have hH : 0 < sckHalf c := Nat.succ_pos _
  have hs : setDiv 0 s = s := by unfold setDiv; rw [← hd]
  have e0 := shift_count (c := c) (sckHalf c - 1) 0 s h hp (n + 1) (by omega)
  rw [hs, Nat.zero_add] at e0
  rw [show sckHalf c + n = (sckHalf c - 1) + (n + 1) by omega, e0]
  rw [clockRun_live ((h.elapse _).setDiv _) (by simp [setDiv, hp]) n]
  congr 2
  have h1 : (elapse c 1 (setDiv (sckHalf c - 1) (elapse c (sckHalf c - 1) s))).sq.phase = .shift := hp
  have h2 : (elapse c 1 (setDiv (sckHalf c - 1) (elapse c (sckHalf c - 1) s))).bus.divCtr = sckHalf c - 1 := rfl
  have h3 : (elapse c 1 (setDiv (sckHalf c - 1) (elapse c (sckHalf c - 1) s))).bus.half = s.bus.half := rfl
  have h4 : (elapse c 1 (setDiv (sckHalf c - 1) (elapse c (sckHalf c - 1) s))).bus.bitCtr = s.bus.bitCtr := rfl
  simp only [actionEdge, h1, shiftEdge, h2, h3, h4]
  rw [if_neg (by omega), elapse_setDiv, elapse_add, show sckHalf c - 1 + 1 = sckHalf c by omega]
  rfl

/-! ## Elapsing time and an exchange -/

theorem elapseDev_io (csN : Bool) (n : Nat) (v : Device) (rx : List Byte) (o h : Byte) :
    elapseDev c csN n { v with rx := rx, out := o, sh := h } =
      { elapseDev c csN n v with rx := rx, out := o, sh := h } := by
  unfold elapseDev
  have hc : completionDue csN n { v with rx := rx, out := o, sh := h } = completionDue csN n v := rfl
  rw [hc]
  split <;> rfl

theorem elapse_storeByte (n : Nat) (a : Action) (j : Nat) (s : State) :
    elapse c n (storeByte a j s) = storeByte a j (elapse c n s) := by
  unfold storeByte
  split
  · rfl
  · split <;> rfl

theorem elapse_nextBit (n : Nat) (s : State) : elapse c n (nextBit s) = nextBit (elapse c n s) := rfl

/-- A change of the lines and of the device's bytes of exchange. -/
def lineIO (b : Bus) (rx : List Byte) (o h : Byte) (f : FreeCount) (s : State) : State :=
  { s with bus := b, dev := { s.dev with rx := rx, out := o, sh := h }, free := f }

theorem elapse_lineIO (n : Nat) (b : Bus) (rx : List Byte) (o h : Byte) (f : FreeCount) (s : State) (hb : b.csN = s.bus.csN) :
    elapse c n (lineIO b rx o h f s) = lineIO b rx o h f (elapse c n s) := by
  simp only [elapse, lineIO, hb, elapseDev_io]

theorem elapse_risingEdge (n : Nat) (a : Action) (s : State) :
    elapse c n (risingEdge a s) = risingEdge a (elapse c n s) := by
  have h1 : (elapse c n s).bus = s.bus := rfl
  have h2 : (elapse c n s).sq = s.sq := rfl
  have h3 : (elapse c n s).dev.sh = s.dev.sh := by simp
  have h4 : (elapse c n s).dev.rx = s.dev.rx := rfl
  have h5 : (elapse c n s).miso = s.miso := by simp [State.miso]
  have h6 : (elapse c n s).dev.out = s.dev.out := by simp
  unfold risingEdge
  simp only [h1, h2, h3, h4, h5]
  split
  · rw [elapse_storeByte]
    congr 1
    refine Eq.trans (elapse_lineIO (c := c) n { s.bus with sck := true, rxSh := _, half := true, divCtr := 0, rxHold := _ }
      _ s.dev.out _ s.free s rfl) ?_
    rw [← h6]; rfl
  · refine Eq.trans (elapse_lineIO (c := c) n { s.bus with sck := true, rxSh := _, half := true, divCtr := 0 }
      s.dev.rx s.dev.out _ s.free s rfl) ?_
    rw [← h6]; rfl

theorem answer_elapse (n : Nat) (s : State) :
    elapse c n (answer c s) = answer c (elapse c n s) := by
  have hr : (if s.bus.csN then none else response c (elapseDev c s.bus.csN n s.dev)) =
      (if s.bus.csN then none else response c s.dev) := by
    cases h : s.bus.csN
    · simp only [Bool.false_eq_true, if_false, elapseDev_selected]; rfl
    · rfl
  have h1 : answer c (elapse c n s) = drive c (if s.bus.csN then none else response c s.dev) (elapse c n s) := by
    rw [← hr]; rfl
  rw [h1]
  simp only [answer]
  generalize (if s.bus.csN then none else response c s.dev) = r
  have h6 : (elapse c n s).dev.sh = s.dev.sh := by simp
  refine Eq.trans (elapse_lineIO (c := c) n s.bus s.dev.rx (r.getD (c.d.miso s.free.miso)) s.dev.sh
    { s.free with miso := if r.isSome then s.free.miso else s.free.miso + 1 } s rfl) ?_
  rw [← h6]; rfl

theorem elapse_startByte (n : Nat) (b : Byte) (s : State) :
    elapse c n (startByte c b s) = startByte c b (elapse c n s) := by
  simp only [startByte]
  rw [← answer_elapse n s]
  rfl

theorem elapse_exchange (n : Nat) (b : Byte) (s : State) :
    elapse c n (exchange c b s) = exchange c b (elapse c n s) := by
  simp only [exchange]
  rw [← answer_elapse n s]
  generalize answer c s = u
  have h6 : (elapse c n u).dev.out = u.dev.out := by simp
  have h7 : (elapse c n u).bus = u.bus := rfl
  have h8 : (elapse c n u).dev.rx = u.dev.rx := rfl
  unfold receive
  simp only [h7]
  split
  · rw [h6]; rfl
  · refine Eq.trans (elapse_lineIO (c := c) n { u.bus with
        sck := false, mosi := b.getLsbD 0, txSh := b <<< 7, rxSh := u.dev.out, rxHold := u.dev.out, bitCtr := 0#3,
        half := false, divCtr := 0 } (u.dev.rx ++ [b]) u.dev.out b u.free u rfl) ?_
    rw [← h6]; rfl

theorem elapse_exchangeAll (n : Nat) (a : Action) (j : Nat) (bs : List Byte) (s : State) :
    elapse c n (exchangeAll c a j bs s) = exchangeAll c a j bs (elapse c n s) := by
  induction bs generalizing j s with
  | nil => rfl
  | cons b bs ih => simp only [exchangeAll]; rw [ih, elapse_storeByte, elapse_exchange]

/-! ## The eight bits of a byte -/

/-- m whole SCK periods. -/
def bits (a : Action) : Nat → State → State
  | 0, s => s
  | m + 1, s => bits a m (nextBit (risingEdge a s))

theorem elapse_bits (n : Nat) (a : Action) (m : Nat) (s : State) : elapse c n (bits a m s) = bits a m (elapse c n s) := by
  induction m generalizing s with
  | zero => rfl
  | succ m ih => simp only [bits]; rw [ih, elapse_nextBit, elapse_risingEdge]

/-- The counters at the end of a byte. -/
def settle (s : State) : State := { s with bus := { s.bus with sck := false, half := false, divCtr := 0 } }

theorem byteEnd_settle (a : Action) (s : State) : byteEnd c a (settle s) = byteEnd c a s := rfl

/-- A rising SCK edge but for bit 0. -/
def noStore (s : State) : State :=
  let rx : Byte := s.bus.rxSh.extractLsb' 0 7 ++ BitVec.ofBool s.miso
  let sh : Byte := if s.bus.csN then s.dev.sh else s.dev.sh.extractLsb' 0 7 ++ BitVec.ofBool s.bus.mosi
  { s with
    bus := { s.bus with sck := true, rxSh := rx, half := true, divCtr := 0 }
    dev := { s.dev with sh := sh } }

theorem risingEdge_mid (a : Action) (h : s.bus.bitCtr ≠ 0#3) : risingEdge a s = noStore s := by
  unfold risingEdge
  rw [if_neg h]
  rfl

/-- A byte with a bit shifted in. -/
def shiftIn (x : Byte) (b : Bool) : Byte := x.extractLsb' 0 7 ++ BitVec.ofBool b

theorem shiftIn_bit (x : Byte) (b : Bool) (i : Nat) :
    (shiftIn x b).getLsbD i = if i = 0 then b else decide (i < 8) && x.getLsbD (i - 1) := by
  unfold shiftIn
  erw [BitVec.getLsbD_append]
  by_cases h : i = 0
  · simp [h]
  · have h1 : decide (i - 1 < 7) = decide (i < 8) := by rw [decide_eq_decide]; omega
    have h2 : ¬ i < 1 := by omega
    simp [h, h1, h2]

theorem shifted_in (x y : Byte) :
    shiftIn (shiftIn (shiftIn (shiftIn (shiftIn (shiftIn (shiftIn (shiftIn x (y.getLsbD 7)) (y.getLsbD 6)) (y.getLsbD 5))
      (y.getLsbD 4)) (y.getLsbD 3)) (y.getLsbD 2)) (y.getLsbD 1)) (y.getLsbD 0) = y := by
  apply BitVec.eq_of_getLsbD_eq
  intro i hi
  interval_cases i <;> simp only [shiftIn_bit] <;> simp

/-! ## A byte under way -/

/-- The byte under way: `q` on its way out, `k` the bit, `x` and `y` the bytes received so far by the FCS and by the device. -/
def pos (s : State) (q : Byte) (k : BitVec 3) (x y : Byte) : State :=
  { s with
    bus := { s.bus with sck := false, mosi := q.getLsbD 7, txSh := q, rxSh := x, bitCtr := k, half := false, divCtr := 0 }
    dev := { s.dev with sh := y } }

/-- The byte the device holds after a bit. -/
def devIn (s : State) (y : Byte) (b : Bool) : Byte := if s.bus.csN then y else shiftIn y b

theorem bit_pos (a : Action) (q : Byte) {k : BitVec 3} (hk : k ≠ 0#3) (x y : Byte) :
    nextBit (risingEdge a (pos s q k x y)) =
      pos s (q <<< 1) (k - 1#3) (shiftIn x (s.dev.out.getLsbD k.toNat)) (devIn s y (q.getLsbD 7)) := by
  rw [risingEdge_mid a (by exact hk)]
  rfl

theorem last_pos (a : Action) (q x y : Byte) :
    settle (risingEdge a (pos s q 0#3 x y)) =
      storeByte a s.sq.byteIdx { s with
        bus := { s.bus with
          sck := false, mosi := q.getLsbD 7, txSh := q, rxSh := shiftIn x (s.dev.out.getLsbD 0), bitCtr := 0#3, half := false,
          divCtr := 0, rxHold := shiftIn x (s.dev.out.getLsbD 0) }
        dev := { s.dev with
          sh := devIn s y (q.getLsbD 7)
          rx := if s.bus.csN then s.dev.rx else s.dev.rx ++ [devIn s y (q.getLsbD 7)] } } := by
  unfold risingEdge
  rw [if_pos (by rfl)]
  have h : ∀ u, settle (storeByte a s.sq.byteIdx u) = storeByte a s.sq.byteIdx (settle u) := by
    intro u
    unfold storeByte
    split
    · rfl
    · split <;> rfl
  exact (h _).trans rfl

/-- A byte of an action, bit by bit, is its exchange. -/
theorem byte_bits (a : Action) (b : Byte) (s : State) :
    settle (risingEdge a (bits a 7 (startByte c b s))) = storeByte a s.sq.byteIdx (exchange c b s) := by
  have h0 : startByte c b s = pos (answer c s) b 7#3 (answer c s).bus.rxSh (answer c s).dev.sh := rfl
  have hq : s.sq.byteIdx = (answer c s).sq.byteIdx := rfl
  rw [h0, hq, exchange]
  generalize answer c s = u
  simp only [bits]
  rw [bit_pos a _ (by decide), bit_pos a _ (by decide), bit_pos a _ (by decide), bit_pos a _ (by decide),
    bit_pos a _ (by decide), bit_pos a _ (by decide), bit_pos a _ (by decide)]
  rw [show (7#3 - 1#3 - 1#3 - 1#3 - 1#3 - 1#3 - 1#3 - 1#3) = 0#3 from rfl, last_pos]
  have e7 : (b <<< 1).getLsbD 7 = b.getLsbD 6 := by simp
  have e6 : (b <<< 1 <<< 1).getLsbD 7 = b.getLsbD 5 := by simp
  have e5 : (b <<< 1 <<< 1 <<< 1).getLsbD 7 = b.getLsbD 4 := by simp
  have e4 : (b <<< 1 <<< 1 <<< 1 <<< 1).getLsbD 7 = b.getLsbD 3 := by simp
  have e3 : (b <<< 1 <<< 1 <<< 1 <<< 1 <<< 1).getLsbD 7 = b.getLsbD 2 := by simp
  have e2 : (b <<< 1 <<< 1 <<< 1 <<< 1 <<< 1 <<< 1).getLsbD 7 = b.getLsbD 1 := by simp
  have e1 : (b <<< 1 <<< 1 <<< 1 <<< 1 <<< 1 <<< 1 <<< 1).getLsbD 7 = b.getLsbD 0 := by simp
  have e0 : b <<< 1 <<< 1 <<< 1 <<< 1 <<< 1 <<< 1 <<< 1 = b <<< 7 := by
    simp only [← BitVec.shiftLeft_add]
  rw [e7, e6, e5, e4, e3, e2, e1, e0]
  have hrx := shifted_in u.bus.rxSh u.dev.out
  have hx : ∀ x y, x = y → storeByte a u.sq.byteIdx x = storeByte a u.sq.byteIdx y := fun _ _ h => by rw [h]
  apply hx
  rw [show (7#3).toNat = 7 from rfl, show (7#3 - 1#3).toNat = 6 from rfl, show (7#3 - 1#3 - 1#3).toNat = 5 from rfl,
    show (7#3 - 1#3 - 1#3 - 1#3).toNat = 4 from rfl, show (7#3 - 1#3 - 1#3 - 1#3 - 1#3).toNat = 3 from rfl,
    show (7#3 - 1#3 - 1#3 - 1#3 - 1#3 - 1#3).toNat = 2 from rfl,
    show (7#3 - 1#3 - 1#3 - 1#3 - 1#3 - 1#3 - 1#3).toNat = 1 from rfl, hrx]
  cases hc : u.bus.csN
  · simp only [devIn, hc, receive, Bool.false_eq_true, if_false, shifted_in]
  · simp only [devIn, hc, receive, if_true]
    

/-! ## The edges of a byte -/

/-- Action `a` is at bit `m` of a byte, SCK low. -/
structure AtBit (k : Nat) (a : Action) (m : Nat) (s : State) : Prop extends Live k a s where
  phase : s.sq.phase = .shift
  divCtr : s.bus.divCtr = 0
  half : s.bus.half = false
  bitCtr : s.bus.bitCtr.toNat = m

theorem AtBit.elapse {k m : Nat} {a : Action} (h : AtBit k a m s) (n : Nat) : AtBit k a m (elapse c n s) :=
  ⟨h.toLive.elapse n, h.phase, h.divCtr, h.half, h.bitCtr⟩

theorem risingEdge_noTurn (a : Action) (h : turnDue s = false) : turnDue (risingEdge a s) = false := by
  unfold risingEdge
  simp only
  by_cases hb : s.bus.bitCtr = 0#3
  · rw [if_pos hb]
    unfold turnDue at *
    simp only [storeByte_bus, storeByte_dev]
    cases hc : s.bus.csN
    · rfl
    · simpa [hc] using h
  · rw [if_neg hb]
    exact h

theorem risingEdge_phase (a : Action) : (risingEdge a s).sq.phase = s.sq.phase := by
  unfold risingEdge; simp only; split
  · simp
  · rfl

theorem risingEdge_byteIdx (a : Action) : (risingEdge a s).sq.byteIdx = s.sq.byteIdx := by
  unfold risingEdge; simp only; split
  · simp
  · rfl

theorem risingEdge_bus (a : Action) : (risingEdge a s).bus.half = true ∧ (risingEdge a s).bus.divCtr = 0 ∧
    (risingEdge a s).bus.bitCtr = s.bus.bitCtr := by
  unfold risingEdge; simp only; split
  · simp
  · exact ⟨rfl, rfl, rfl⟩

theorem Live.risingEdge {k : Nat} {a : Action} (h : Live k a s) : Live k a (risingEdge a s) := by
  have hk := risingEdge_kept (s := s) a
  exact ⟨hk.port.trans h.port, hk.hRdata.trans h.hRdata, (risingEdge_step a).trans h.step, by rw [hk.seq]; exact h.action,
    risingEdge_noTurn a h.noTurn⟩

theorem AtBit.next {k m : Nat} {a : Action} (h : AtBit k a (m + 1) s) : AtBit k a m (nextBit (risingEdge a s)) := by
  have hb := risingEdge_bus (s := s) a
  have hl := h.toLive.risingEdge
  refine ⟨⟨hl.port, hl.hRdata, hl.step, hl.action, hl.noTurn⟩, (risingEdge_phase a).trans h.phase, rfl, rfl, ?_⟩
  have hn : (nextBit (risingEdge a s)).bus.bitCtr = s.bus.bitCtr - 1#3 := by
    show (risingEdge a s).bus.bitCtr - 1#3 = _
    rw [hb.2.2]
  rw [hn]
  have := h.bitCtr
  bv_omega

theorem bit_run {k m : Nat} {a : Action} (h : AtBit k a (m + 1) s) (n : Nat) :
    clockRun c (2 * sckHalf c + n) s = clockRun c n (nextBit (risingEdge a (elapse c (2 * sckHalf c) s))) := by
  rw [show 2 * sckHalf c + n = sckHalf c + (sckHalf c + n) by omega, half_run h.toLive h.phase h.divCtr, h.half]
  have e := h.elapse (c := c) (sckHalf c)
  have hb := risingEdge_bus (s := elapse c (sckHalf c) s) a
  have hne : (risingEdge a (elapse c (sckHalf c) s)).bus.bitCtr ≠ 0#3 := by
    rw [hb.2.2]
    intro h0
    have := e.bitCtr
    rw [h0] at this
    simp at this
  show clockRun c (sckHalf c + n) (risingEdge a (elapse c (sckHalf c) s)) = _
  rw [half_run e.toLive.risingEdge ((risingEdge_phase a).trans e.phase) hb.2.1, hb.1]
  simp only [Bool.not_true, Bool.false_eq_true, if_false]
  rw [if_pos hne, elapse_risingEdge, elapse_add, show sckHalf c + sckHalf c = 2 * sckHalf c by omega]
  rfl

theorem bits_run {k : Nat} {a : Action} (m : Nat) (s : State) (i : Nat) (h : AtBit k a (i + m) s) (n : Nat) :
    clockRun c (2 * m * sckHalf c + n) s = clockRun c n (bits a m (elapse c (2 * m * sckHalf c) s)) ∧
    AtBit k a i (bits a m (elapse c (2 * m * sckHalf c) s)) := by
  induction m generalizing s with
  | zero => simpa [bits, elapse_zero] using h
  | succ m ih =>
    have hb := bit_run (c := c) (m := i + m) h (2 * m * sckHalf c + n)
    have hx := ih _ ((h.elapse (c := c) (2 * sckHalf c)).next)
    have e : 2 * (m + 1) * sckHalf c = 2 * sckHalf c + 2 * m * sckHalf c := by ring
    have e' : bits a (m + 1) (elapse c (2 * (m + 1) * sckHalf c) s) =
        bits a m (elapse c (2 * m * sckHalf c) (nextBit (risingEdge a (elapse c (2 * sckHalf c) s)))) := by
      simp only [bits]
      rw [elapse_nextBit, elapse_risingEdge, elapse_add, e]
    rw [e', e, Nat.add_assoc, hb]
    exact hx

theorem Live.startByte {k : Nat} {a : Action} (h : Live k a s) (hp : s.sq.phase = .shift) (b : Byte) :
    AtBit k a 7 (startByte c b s) :=
  ⟨⟨h.port, h.hRdata, h.step, h.action, h.noTurn⟩, hp, rfl, rfl, rfl⟩

/-- A byte: after 16 H cycles its exchange is done. -/
theorem byte_run {k : Nat} {a : Action} (h : Live k a s) (hp : s.sq.phase = .shift) (b : Byte) (n : Nat) :
    clockRun c (exchangeCycles c + n) (startByte c b s) =
      clockRun c n (goOn c k (byteEnd c a (storeByte a s.sq.byteIdx (exchange c b (elapse c (exchangeCycles c) s))))) := by
  have hx := bits_run (c := c) 7 (startByte c b s) 0 (h.startByte hp b)
  have hA := (hx 0).2
  rw [show exchangeCycles c + n = 2 * 7 * sckHalf c + (sckHalf c + (sckHalf c + n)) by unfold exchangeCycles; omega,
    (hx _).1, half_run hA.toLive hA.phase hA.divCtr, hA.half]
  generalize hu : bits a 7 (elapse c (2 * 7 * sckHalf c) (Machine.startByte c b s)) = u at hA
  have e := hA.elapse (c := c) (sckHalf c)
  have hb := risingEdge_bus (s := elapse c (sckHalf c) u) a
  have h0 : (elapse c (sckHalf c) u).bus.bitCtr = 0#3 := by
    have := e.bitCtr
    bv_omega
  show clockRun c (sckHalf c + n) (risingEdge a (elapse c (sckHalf c) u)) = _
  rw [half_run e.toLive.risingEdge ((risingEdge_phase a).trans e.phase) hb.2.1, hb.1, hb.2.2, h0]
  simp only [Bool.not_true, Bool.false_eq_true, if_false, ne_eq, not_true]
  rw [elapse_risingEdge, elapse_add, ← hu, elapse_bits, elapse_add, elapse_startByte, ← byteEnd_settle, byte_bits]
  rw [show 2 * 7 * sckHalf c + (sckHalf c + sckHalf c) = exchangeCycles c by unfold exchangeCycles; omega]
  rfl

end Sys2Proof.Machine
end

