-- ==== Sys2Proof/Laws/Refinement.lean ====
section
/-! SUPPORT. The cycle level implements the transaction level (00_scope R6): the clk edges of a frame, an action and a list
of actions reach what the transaction level says. -/

namespace Sys2Proof.Machine

variable {c : Env} {s t : State}

/-! ## The device's turn does not see the FCS -/

/-- A change of the lines, counters and sequencer. -/
def fcs (f : Bus → Bus) (g : Sequencer → Sequencer) (s : State) : State := { s with bus := f s.bus, sq := g s.sq }

/-- `fcs f g` of the next state, if there is one. -/
def mapFcs (f : Bus → Bus) (g : Sequencer → Sequencer) (o : Host.Outcome State Fault Refusal) :
    Host.Outcome State Fault Refusal := andThen o (fun t => .next (fcs f g t))

theorem whenIdle_fcs (f : Bus → Bus) (g : Sequencer → Sequencer) {h : State → State}
    (hh : ∀ s, h (fcs f g s) = fcs f g (h s)) (s : State) : whenIdle c h (fcs f g s) = fcs f g (whenIdle c h s) := by
  unfold whenIdle
  have h1 : (fcs f g s).dev = s.dev := rfl
  rw [h1]
  split
  · rfl
  · exact hh s

theorem arrayOp_fcs (f : Bus → Bus) (g : Sequencer → Sequencer) (b : Bool) (p : Pending) (s : State) :
    arrayOp c b p (fcs f g s) = fcs f g (arrayOp c b p s) := by
  unfold arrayOp
  have h1 : (fcs f g s).dev = s.dev := rfl
  rw [h1]
  split
  · split <;> rfl
  · rfl

theorem writeSrOther_fcs (f : Bus → Bus) (g : Sequencer → Sequencer) (d : Byte) (s : State) :
    writeSrOther c d (fcs f g s) = fcs f g (writeSrOther c d s) := by
  unfold writeSrOther
  have h1 : (fcs f g s).dev = s.dev := rfl
  rw [h1]
  split <;> rfl

theorem addressed_fcs (f : Bus → Bus) (g : Sequencer → Sequencer) (a : Addr) {h : Nat → State → State}
    (hh : ∀ x s, h x (fcs f g s) = fcs f g (h x s)) (s : State) :
    addressed c a h (fcs f g s) = mapFcs f g (addressed c a h s) := by
  unfold addressed
  have h1 : (fcs f g s).dev = s.dev := rfl
  rw [h1]
  split
  · rw [whenIdle_fcs f g (hh _)]; rfl
  · split <;> rfl

theorem deviceAct_fcs (f : Bus → Bus) (g : Sequencer → Sequencer) (i : Instr) (s : State) :
    deviceAct c i (fcs f g s) = mapFcs f g (deviceAct c i s) := by
  have er : ∀ e a, eraseFrame c e a (fcs f g s) = mapFcs f g (eraseFrame c e a s) := fun e a =>
    addressed_fcs f g a (fun x s => congrArg (endFrame false) (arrayOp_fcs f g _ _ (drive c none s))) s
  have wi : ∀ {h : State → State}, (∀ s, h (fcs f g s) = fcs f g (h s)) →
      Host.Outcome.next (φ := Fault) (ρ := Refusal) (whenIdle c h (fcs f g s)) = mapFcs f g (.next (whenIdle c h s)) :=
    fun hh => by rw [whenIdle_fcs f g hh]; rfl
  cases i <;> first
    | exact er _ _
    | exact addressed_fcs f g _ (h := fun x s => endFrame false (drive c (some (Memory.read c.d.array s.dev.array x)) s))
        (fun _ _ => rfl) s
    | exact addressed_fcs f g _ (fun x s => congrArg (endFrame false) (arrayOp_fcs f g _ _ (drive c none s))) s
    | exact wi (fun _ => rfl)
    | exact wi (fun s => congrArg (endFrame false) (arrayOp_fcs f g _ _ (drive c none s)))
    | exact wi (fun s => congrArg (endFrame false) (writeSrOther_fcs f g _ (drive c none s)))
    | rfl

theorem deviceTurn_fcs (f : Bus → Bus) (g : Sequencer → Sequencer) (s : State) :
    deviceTurn c (fcs f g s) = mapFcs f g (deviceTurn c s) := by
  have hr : frameRule (deviceAct c) (fcs f g s) = mapFcs f g (frameRule (deviceAct c) s) := by
    unfold frameRule
    have h1 : (fcs f g s).dev = s.dev := rfl
    have h2 : takeFrame (fcs f g s) = fcs f g (takeFrame s) := rfl
    rw [h1]
    split
    · rw [h2]; exact deviceAct_fcs f g _ _
    · rfl
    · rfl
    · rfl
  simp only [deviceTurn, deviceTurnBy, hr, mapFcs, andThen_assoc]
  rfl

/-! ## The bytes of an action -/

theorem storeByte_reseat (k : StepState) (ph : Phase) (i : Nat) (a : Action) (j : Nat) (s : State) :
    storeByte a j (reseat k ph i s) = reseat k ph i (storeByte a j s) := by
  unfold storeByte
  split
  · rfl
  · split <;> rfl

theorem exchange_reseat (k : StepState) (ph : Phase) (i : Nat) (b : Byte) (s : State) :
    exchange c b (reseat k ph i s) = reseat k ph i (exchange c b s) := by
  unfold exchange receive
  have h1 : (answer c (reseat k ph i s)) = reseat k ph i (answer c s) := rfl
  rw [h1]
  generalize answer c s = u
  have h2 : (reseat k ph i u).bus = u.bus := rfl
  simp only [h2]
  split <;> rfl

theorem exchangeAll_reseat (k : StepState) (ph : Phase) (i : Nat) (a : Action) (j : Nat) (bs : List Byte) (s : State) :
    exchangeAll c a j bs (reseat k ph i s) = reseat k ph i (exchangeAll c a j bs s) := by
  induction bs generalizing j s with
  | nil => rfl
  | cons b bs ih => simp only [exchangeAll]; rw [exchange_reseat, storeByte_reseat, ih]

theorem settle_stored (a : Action) (j : Nat) (b : Byte) (s : State) :
    settle (storeByte a j (exchange c b s)) = storeByte a j (exchange c b s) := by
  have h : ∀ u, settle (storeByte a j u) = storeByte a j (settle u) := by
    intro u
    unfold storeByte
    split
    · rfl
    · split <;> rfl
  rw [h]
  have hr : ∀ w, settle (receive b w) = receive b (settle w) := by
    intro w
    unfold receive
    have hb : (settle w).bus.csN = w.bus.csN := rfl
    rw [hb]
    split <;> rfl
  simp only [exchange, hr]
  rfl

theorem byteEnd_some {a : Action} {b : Byte} (h : a.bytes[s.sq.byteIdx + 1]? = some b) :
    byteEnd c a s = (startByte c b (reseat s.sq.step s.sq.phase (s.sq.byteIdx + 1) s), false) := by
  unfold byteEnd
  rw [h]
  rfl

theorem byteEnd_none {a : Action} (h : a.bytes[s.sq.byteIdx + 1]? = none) :
    byteEnd c a s =
      if a.framed then (setGap 0 (reseat s.sq.step .hold s.sq.byteIdx (settle s)), false) else (settle s, true) := by
  unfold byteEnd
  rw [h]
  rfl

theorem Exchanged.live {k j : Nat} {a a' : Action} {bs : List Byte} (h : Exchanged c a' j bs s t) (hl : Live k a s) :
    Live k a t := by
  refine ⟨h.port.trans hl.port, h.hRdata.trans hl.hRdata, ?_, ?_, ?_⟩
  · rw [h.sq]; exact hl.step
  · rw [h.sq]; exact hl.action
  · have := hl.noTurn
    unfold turnDue at *
    rw [h.csN, h.rx]
    cases hc : s.bus.csN
    · rfl
    · simpa [hc] using this

/-- What follows the last byte of an action. -/
def afterBytes (a : Action) (j : Nat) (s : State) : State × Bool :=
  if a.framed then (setGap 0 (reseat s.sq.step .hold j s), false) else (reseat s.sq.step .shift j s, true)

theorem bytes_run {k : Nat} {a : Action} (bs : List Byte) (b : Byte) (j : Nat) (s : State) (h : Live k a s)
    (hp : s.sq.phase = .shift) (hj : s.sq.byteIdx = j) (ha : a.bytes.drop j = b :: bs) (n : Nat) :
    clockRun c (exchangeCycles c * (bs.length + 1) + n) (startByte c b s) =
      clockRun c n (goOn c k (afterBytes a (j + bs.length)
        (exchangeAll c a j (b :: bs) (elapse c (exchangeCycles c * (bs.length + 1)) s)))) := by
  induction bs generalizing b j s with
  | nil =>
    rw [show exchangeCycles c * (([] : List Byte).length + 1) = exchangeCycles c by simp, byte_run h hp, hj]
    have hn : a.bytes[j + 1]? = none := by
      have h1 : (a.bytes.drop j)[1]? = none := by rw [ha]; rfl
      rw [List.getElem?_drop] at h1
      exact h1
    have hx := exchange_step (c := c) (s := elapse c (exchangeCycles c) s) a j b
    have hsq := hx.sq
    have hi : (storeByte a j (exchange c b (elapse c (exchangeCycles c) s))).sq.byteIdx = j := by rw [hsq]; exact hj
    have hph : (storeByte a j (exchange c b (elapse c (exchangeCycles c) s))).sq.phase = .shift := by rw [hsq]; exact hp
    rw [byteEnd_none (by rw [hi]; exact hn), settle_stored, hi]
    simp only [exchangeAll, afterBytes, List.length_nil, Nat.add_zero]
    congr 3
    generalize storeByte a j (exchange c b (elapse c (exchangeCycles c) s)) = u at hi hph
    unfold reseat
    congr 2
    rw [← hi, ← hph]
  | cons b' bs ih =>
    rw [show exchangeCycles c * ((b' :: bs).length + 1) + n = exchangeCycles c + (exchangeCycles c * (bs.length + 1) + n) by
      simp only [List.length_cons]; ring, byte_run h hp, hj]
    have hs : a.bytes[j + 1]? = some b' := by
      have h1 : (a.bytes.drop j)[1]? = some b' := by rw [ha]; rfl
      rw [List.getElem?_drop] at h1
      exact h1
    have ha' : a.bytes.drop (j + 1) = b' :: bs := by
      rw [← List.drop_drop, ha]; rfl
    have hx := exchange_step (c := c) (s := elapse c (exchangeCycles c) s) a j b
    have hl := hx.live (h.elapse (exchangeCycles c))
    have hsq := hx.sq
    have hi : (storeByte a j (exchange c b (elapse c (exchangeCycles c) s))).sq.byteIdx = j := by rw [hsq]; exact hj
    have hph : (storeByte a j (exchange c b (elapse c (exchangeCycles c) s))).sq.phase = .shift := by rw [hsq]; exact hp
    have hst : (storeByte a j (exchange c b (elapse c (exchangeCycles c) s))).sq.step = s.sq.step := by rw [hsq]; rfl
    rw [byteEnd_some (by rw [hi]; exact hs), hi, hph, hst]
    show clockRun c (exchangeCycles c * (bs.length + 1) + n) (startByte c b' _) = _
    have hl' : Live k a (reseat s.sq.step .shift (j + 1) (storeByte a j (exchange c b (elapse c (exchangeCycles c) s)))) :=
      ⟨hl.port, hl.hRdata, h.step, hl.action, hl.noTurn⟩
    rw [ih b' (j + 1) _ hl' rfl rfl ha']
    rw [elapse_reseat, exchangeAll_reseat, elapse_storeByte, elapse_exchange, elapse_add]
    rw [show exchangeCycles c + exchangeCycles c * (bs.length + 1) = exchangeCycles c * ((b' :: bs).length + 1) by
      simp only [List.length_cons]; ring]
    rw [show j + 1 + bs.length = j + (b' :: bs).length by simp only [List.length_cons]; omega]
    have hX := exchangeAll_exchanged (c := c) a (b :: b' :: bs) j
      (elapse c (exchangeCycles c * ((b' :: bs).length + 1)) s)
    have hX2 : (exchangeAll c a j (b :: b' :: bs) (elapse c (exchangeCycles c * ((b' :: bs).length + 1)) s)).sq.step = s.sq.step := by
      rw [hX.sq]; rfl
    simp only [exchangeAll] at hX2 ⊢
    simp only [afterBytes]
    rw [hX2]
    rfl

/-! ## A frame -/

/-- The gap after cs_n has risen: the device acts on the frame before its first edge. -/
theorem gap_turn {k : Nat} {a : Action} (h : Live k a { s with dev := { s.dev with rx := [] } }) (hp : s.sq.phase = .gap)
    (hg : s.bus.gapCtr = 0) (hc : s.bus.csN = true) (n : Nat) :
    clockRun c (cshCycles c + n) s = andThen (deviceTurn c s) (fun t => clockRun c n (goOn c k (gapAfter c t, true))) := by
  have key : ∀ t, TurnTaken c (takeFrame s) t →
      clockRun c (cshCycles c + n) (releaseHeld c t) = clockRun c n (goOn c k (gapAfter c (releaseHeld c t), true)) := by
    intro t ht
    have hl : Live k a (releaseHeld c t) := by
      refine ⟨ht.port.trans h.port, ht.hRdata.trans h.hRdata, ?_, ?_, ?_⟩
      · rw [releaseHeld_sq, ht.sq]; exact h.step
      · rw [releaseHeld_sq, ht.sq]; exact h.action
      · unfold turnDue
        rw [releaseHeld_dev, completeHeld_rx, ht.rx]
        simp [takeFrame]
    have hs : setGap 0 (releaseHeld c t) = releaseHeld c t := by
      have : (releaseHeld c t).bus.gapCtr = 0 := by rw [releaseHeld_bus, ht.bus]; exact hg
      unfold setGap; rw [← this]
    rw [← hs, gap_run hl (by rw [releaseHeld_sq, ht.sq]; exact hp) n, hs]
  cases hd : turnDue s
  · have hrx : s.dev.rx = [] := by
      unfold turnDue at hd
      simpa [hc] using hd
    have ht : takeFrame s = s := by
      unfold takeFrame; rw [← hrx]
    have hD : deviceTurn c s = .next (releaseHeld c s) := by
      unfold deviceTurn deviceTurnBy frameRule
      rw [hrx]
      simp only [decodeFrame, ht, andThen_of_next]
    have hs : setGap 0 s = s := by unfold setGap; rw [← hg]
    rw [hD, andThen_of_next, gapAfter_releaseHeld hc, ← hs]
    exact gap_run (s := s) ⟨h.port, h.hRdata, h.step, h.action, hd⟩ hp n
  · obtain ⟨m, hm⟩ : ∃ m, cshCycles c + n = m + 1 := ⟨c.p.cshPred + n, by unfold cshCycles; omega⟩
    rw [hm, clockRun, hd]
    simp only [if_true]
    cases hD : deviceTurn c s with
    | fault r => rfl
    | refused r => rfl
    | next t =>
      obtain ⟨t, ht, rfl⟩ := deviceTurn_taken hD
      simp only [andThen_of_next]
      rw [← key t ht, hm, clockRun]
      have hno : turnDue (releaseHeld c t) = false := by
        unfold turnDue
        rw [releaseHeld_dev, completeHeld_rx, ht.rx]
        simp [takeFrame]
      rw [hno]
      rfl

theorem bytes_to_hold {k : Nat} {a : Action} (hf : a.framed = true) (h : Live k a s) (n : Nat) :
    clockRun c (exchangeCycles c * a.bytes.length + n) (openFrame c a.bytes s) =
      clockRun c n (setGap 0 (reseat s.sq.step .hold (a.bytes.length - 1)
        (elapse c (exchangeCycles c * a.bytes.length) (exchangeAll c a 0 a.bytes (csFall s))))) := by
  have hl : Live k a (reseat s.sq.step .shift 0 (csFall s)) := ⟨h.port, h.hRdata, h.step, h.action, rfl⟩
  cases hb : a.bytes with
  | nil =>
    simp only [List.length_nil, Nat.mul_zero, Nat.zero_add, exchangeAll, elapse_zero]
    rfl
  | cons b bs =>
    have := bytes_run (c := c) bs b 0 _ hl rfl rfl (by rw [hb]; rfl) n
    rw [elapse_reseat, exchangeAll_reseat, ← elapse_exchangeAll] at this
    simp only [List.length_cons]
    rw [openFrame]
    change clockRun c _ (startByte c b (reseat s.sq.step .shift 0 (csFall s))) = _
    rw [this]
    simp only [afterBytes, hf, if_true]
    rw [Nat.zero_add]
    rfl

/-- A frame, from its start edge to the end of its chip-select gap. -/
theorem frame_run {k : Nat} {a : Action} (hf : a.framed = true) (h : Live k a s) (n : Nat) :
    clockRun c (frameCycles c a.bytes.length + n) (openFrame c a.bytes s) =
      andThen (runFrame c a s)
        (fun t => clockRun c n (goOn c k (reseat s.sq.step .gap (a.bytes.length - 1) t, true))) := by
  rw [show frameCycles c a.bytes.length + n = exchangeCycles c * a.bytes.length + (sckHalf c + (cshCycles c + n)) by
    unfold frameCycles lowCycles exchangeCycles; ring, bytes_to_hold hf h]
  have hX := exchangeAll_exchanged (c := c) a a.bytes 0 (csFall s)
  have hl : Live k a (csFall s) := ⟨h.port, h.hRdata, h.step, h.action, rfl⟩
  have hXl := hX.live hl
  have hXs : (exchangeAll c a 0 a.bytes (csFall s)).sq.step = s.sq.step := by rw [hX.sq]; rfl
  generalize hx : exchangeAll c a 0 a.bytes (csFall s) = x at hXl hXs
  have hl2 : Live k a (reseat s.sq.step .hold (a.bytes.length - 1) (elapse c (exchangeCycles c * a.bytes.length) x)) :=
    ⟨hXl.port, hXl.hRdata, h.step, hXl.action, hXl.noTurn⟩
  rw [hold_run hl2 rfl]
  set v : State := csRise c (elapse c (lowCycles c a.bytes.length) x) with hv
  have hsv : setGap 0 (reseat (reseat s.sq.step .hold (a.bytes.length - 1) (elapse c (exchangeCycles c * a.bytes.length) x)).sq.step
      .gap (reseat s.sq.step .hold (a.bytes.length - 1) (elapse c (exchangeCycles c * a.bytes.length) x)).sq.byteIdx
      (csRise c (elapse c (sckHalf c)
        (reseat s.sq.step .hold (a.bytes.length - 1) (elapse c (exchangeCycles c * a.bytes.length) x))))) =
      fcs (fun b => { b with gapCtr := 0 })
        (fun q => { q with step := s.sq.step, phase := .gap, byteIdx := a.bytes.length - 1 }) v := by
    rw [elapse_reseat, elapse_add, hv, show exchangeCycles c * a.bytes.length + sckHalf c = lowCycles c a.bytes.length by
      unfold lowCycles exchangeCycles; ring]
    rfl
  rw [hsv]
  have hl3 : ∀ f, Live k a { fcs f (fun q => { q with step := s.sq.step, phase := .gap, byteIdx := a.bytes.length - 1 }) v with
      dev := { v.dev with rx := [] } } :=
    fun f => ⟨hXl.port, hXl.hRdata, h.step, hXl.action, by simp [turnDue]⟩
  rw [gap_turn (hl3 _) rfl rfl rfl, deviceTurn_fcs]
  simp only [runFrame]
  rw [hx, mapFcs, andThen_assoc, andThen_assoc]
  rfl

/-! ## Actions -/

/-- An action, from its start edge on, edge by edge. -/
theorem action_run {k : Nat} {a : Action} (h : Live k a s) : ∃ ph j, ∀ n,
    clockRun c (a.cycles c + n) (goOn c k (startAction c a s, a.instant)) =
      andThen (runAction c a s) (fun t => clockRun c n (goOn c k (reseat s.sq.step ph j t, true))) := by
  cases a with
  | frame bs cap => exact ⟨.gap, bs.length - 1, fun n => frame_run (a := .frame bs cap) rfl h n⟩
  | check => exact ⟨.gap, 1, fun n => frame_run (a := .check) rfl h n⟩
  | wait m =>
    refine ⟨.wait, s.sq.byteIdx, fun n => ?_⟩
    cases m with
    | zero =>
      simp only [Action.cycles, Nat.zero_add, runAction, runWait, elapse_zero, andThen_of_next]
      rfl
    | succ m =>
      exact wait_run m (reseat s.sq.step .wait s.sq.byteIdx s) ⟨h.port, h.hRdata, h.step, h.action, h.noTurn⟩ rfl n
  | csLow =>
    refine ⟨s.sq.phase, s.sq.byteIdx, fun n => ?_⟩
    simp only [Action.cycles, Nat.zero_add, runAction, andThen_of_next]
    rfl
  | csHigh =>
    refine ⟨.gap, s.sq.byteIdx, fun n => ?_⟩
    have hl : ∀ f, Live k .csHigh { fcs f (fun q => { q with step := s.sq.step, phase := .gap, byteIdx := s.sq.byteIdx }) (csRise c s) with
        dev := { (csRise c s).dev with rx := [] } } :=
      fun f => ⟨h.port, h.hRdata, h.step, h.action, by simp [turnDue]⟩
    have := gap_turn (c := c) (hl (fun b => { b with gapCtr := 0 })) rfl rfl rfl n
    refine Eq.trans this ?_
    rw [deviceTurn_fcs]
    simp only [runAction]
    rw [mapFcs, andThen_assoc, andThen_assoc]
    rfl
  | xfer b =>
    refine ⟨.shift, 0, fun n => ?_⟩
    have hl : Live k (.xfer b) (reseat s.sq.step .shift 0 s) := ⟨h.port, h.hRdata, h.step, h.action, h.noTurn⟩
    have := bytes_run (c := c) [] b 0 _ hl rfl rfl rfl n
    rw [elapse_reseat, exchangeAll_reseat, ← elapse_exchangeAll] at this
    simp only [List.length_nil, Nat.zero_add, Nat.mul_one] at this
    exact this

theorem runAction_reseat (k : StepState) (ph : Phase) (j : Nat) (a : Action) (s : State) :
    runAction c a (reseat k ph j s) = andThen (runAction c a s) (fun t => .next (reseat k ph j t)) := by
  have hf : ∀ a, runFrame c a (reseat k ph j s) = andThen (runFrame c a s) (fun t => .next (reseat k ph j t)) := by
    intro a
    simp only [runFrame]
    rw [show csFall (reseat k ph j s) = reseat k ph j (csFall s) from rfl, exchangeAll_reseat]
    generalize exchangeAll c a 0 a.bytes (csFall s) = x
    have h1 : csRise c (elapse c (lowCycles c a.bytes.length) (reseat k ph j x)) =
        fcs id (fun q => { q with step := k, phase := ph, byteIdx := j }) (csRise c (elapse c (lowCycles c a.bytes.length) x)) := rfl
    rw [h1, deviceTurn_fcs, mapFcs, andThen_assoc, andThen_assoc]
    rfl
  cases a with
  | frame bs cap => exact hf _
  | check => exact hf .check
  | wait m => rfl
  | csLow => rfl
  | csHigh =>
    have h1 : csRise c (reseat k ph j s) = fcs id (fun q => { q with step := k, phase := ph, byteIdx := j }) (csRise c s) := rfl
    simp only [runAction]
    rw [h1, deviceTurn_fcs, mapFcs, andThen_assoc, andThen_assoc]
    rfl
  | xfer b =>
    simp only [runAction]
    rw [exchangeAll_reseat]
    rfl

theorem runActions_reseat (k : StepState) (ph : Phase) (j : Nat) (as : List Action) (s : State) :
    runActions c as (reseat k ph j s) = andThen (runActions c as s) (fun t => .next (reseat k ph j t)) := by
  induction as generalizing s with
  | nil => rfl
  | cons a as ih =>
    simp only [runActions]
    rw [runAction_reseat, andThen_assoc, andThen_assoc]
    congr 1
    funext t
    exact ih t

theorem runAction_noTurn {a : Action} (h : runAction c a s = .next t) (hs : turnDue s = false) : turnDue t = false := by
  have hD : ∀ {u v : State}, deviceTurn c u = .next v → turnDue (gapAfter c v) = false := by
    intro u v hd
    obtain ⟨v, hv, rfl⟩ := deviceTurn_taken hd
    unfold turnDue
    rw [gapAfter_dev, elapseDev_rx, releaseHeld_dev, completeHeld_rx, hv.rx]
    simp [takeFrame]
  have hF : ∀ a, runFrame c a s = .next t → turnDue t = false := by
    intro a h
    obtain ⟨u, hu, hg⟩ := andThen_next h
    cases hg
    exact hD hu
  cases a with
  | frame bs cap => exact hF _ h
  | check => exact hF .check h
  | csHigh => obtain ⟨u, hu, hg⟩ := andThen_next h; cases hg; exact hD hu
  | wait m => cases h; exact hs
  | csLow => cases h; rfl
  | xfer b =>
    cases h
    have hx := exchangeAll_exchanged (c := c) (.xfer b) [b] 0 s
    generalize exchangeAll c (.xfer b) 0 [b] s = x at hx
    have h1 : turnDue (elapse c (exchangeCycles c) x) = turnDue x := rfl
    rw [h1]
    unfold turnDue at *
    rw [hx.csN, hx.rx]
    cases hc : s.bus.csN
    · rfl
    · simpa [hc] using hs

/-- The actions from index k on, edge by edge, are the actions at transaction level and then publish. -/
theorem actions_run (as : List Action) (k : Nat) (s : State) (hp : s.port = []) (hr : s.hRdata = 0x00000000#32)
    (hn : turnDue s = false) (hq : s.sq.seq.drop k = as) :
    clockRun c (seqCycles c as) (beginActions c as k s) = andThen (runActions c as s) (fun t => .next (publish c t)) := by
  induction as generalizing k s with
  | nil => rfl
  | cons a as ih =>
    have ha : s.sq.seq[k]? = some a := by
      have h1 : (s.sq.seq.drop k)[0]? = some a := by rw [hq]; rfl
      rw [List.getElem?_drop] at h1
      exact h1
    have hd : s.sq.seq.drop (k + 1) = as := by
      rw [← List.drop_drop, hq]; rfl
    set u := reseat (.run k) s.sq.phase s.sq.byteIdx s with hu
    have hl : Live k a u := ⟨hp, hr, rfl, ha, hn⟩
    obtain ⟨ph, j, hrun⟩ := action_run (c := c) hl
    have hseq : (startAction c a u).sq.seq = s.sq.seq := (startAction_done (c := c) (s := u) a).seq
    have hb : beginActions c (a :: as) k s = goOn c k (startAction c a u, a.instant) := by
      unfold goOn
      rw [hseq, hd]
      rfl
    have hcyc : seqCycles c (a :: as) = a.cycles c + seqCycles c as := by simp [seqCycles]
    rw [hb, hcyc, hrun, hu, runAction_reseat, andThen_assoc]
    simp only [runActions, andThen_assoc]
    cases ht : runAction c a s with
    | fault r => rfl
    | refused r => rfl
    | next t =>
      simp only [andThen_of_next]
      have hdone := runAction_done ht
      have htq : t.sq.seq = s.sq.seq := by rw [hdone.sq]
      have hgo : ∀ st1 ph1 st2 ph2 j1 j2, goOn c k (reseat st1 ph1 j1 (reseat st2 ph2 j2 t), true) =
          beginActions c as (k + 1) (reseat st1 ph1 j1 t) := by
        intro st1 ph1 st2 ph2 j1 j2
        unfold goOn
        rw [if_pos rfl]
        have h1 : (reseat st1 ph1 j1 (reseat st2 ph2 j2 t)).sq.seq = s.sq.seq := htq
        rw [h1, hd]
        rfl
      have hi := ih (k + 1) (reseat (.run k) ph j t) (hdone.port.trans hp) (hdone.hRdata.trans hr)
        (show turnDue t = false from runAction_noTurn ht hn)
        (by rw [← hd, ← htq]; rfl)
      rw [runActions_reseat, andThen_assoc] at hi
      rw [hgo]
      exact hi

end Sys2Proof.Machine
end

