-- ==== Sys2Proof/Tests/Slice0.lean ====
section
/-! SUPPORT. Tests: ill-formed terms the checks refuse, words written out from the spec that decode, single steps with the
values of spec/95_test_vectors.md, and for each statement with hypotheses a state that meets them. -/

namespace Sys2Proof.Tests

open Sys2Proof.Machine

/-! ## WellFormed -/

theorem test_wf_read_dummy : (Instr.spiRead 0x012345#24 0x01#8).wellFormed = false := by decide
theorem test_wf_rdsr_dummy : (Instr.spiRdsr 0x80#8).wellFormed = false := by decide
theorem test_wf_rdid_zero0 : (Instr.spiRdid 0x01#8 0x00#8 0x00#8 0x00#8).wellFormed = false := by decide
theorem test_wf_rdid_zero1 : (Instr.spiRdid 0x00#8 0x01#8 0x00#8 0x00#8).wellFormed = false := by decide
theorem test_wf_rdid_dummy : (Instr.spiRdid 0x00#8 0x00#8 0x00#8 0x01#8).wellFormed = false := by decide
theorem test_wf_rdid : (Instr.spiRdid 0x00#8 0x00#8 0xFF#8 0x00#8).wellFormed = true := by decide

/-! ## Decoding: every constructor, by a word written out from 30_encoding R100, R102 and R103 -/

theorem test_decode_reserved : decodeCmd 0x00000000#32 = .reserved := by decide
theorem test_decode_readByte : decodeCmd 0xFFFFFFF1#32 = .readByte := by decide
theorem test_decode_writeByte : decodeCmd 0x00000002#32 = .writeByte := by decide
theorem test_decode_eraseChip : decodeCmd 0x00000003#32 = .eraseChip := by decide
theorem test_decode_eraseSector : decodeCmd 0x00000004#32 = .eraseSector := by decide
theorem test_decode_eraseBlock32 : decodeCmd 0x00000005#32 = .eraseBlock32 := by decide
theorem test_decode_eraseBlock64 : decodeCmd 0x00000006#32 = .eraseBlock64 := by decide
theorem test_decode_readSr : decodeCmd 0x00000007#32 = .readSr := by decide
theorem test_decode_writeSr : decodeCmd 0x00000008#32 = .writeSr := by decide
theorem test_decode_ewsr : decodeCmd 0x00000009#32 = .ewsr := by decide
theorem test_decode_wren : decodeCmd 0x0000000A#32 = .wren := by decide
theorem test_decode_wrdi : decodeCmd 0x0000000B#32 = .wrdi := by decide
theorem test_decode_readId : decodeCmd 0x0000000C#32 = .readId := by decide
theorem test_decode_csAssert : decodeCmd 0x0000000D#32 = .csAssert := by decide
theorem test_decode_csDeassert : decodeCmd 0x0000000E#32 = .csDeassert := by decide
theorem test_decode_xfer : decodeCmd 0x1234560F#32 = .xfer := by decide

/-- A decoded frame as an option, so that `decide` can compare it. -/
def frame (bs : List Byte) : Option Instr := (decodeFrame bs).toOption

theorem test_decode_spiRead :
    frame [0x03#8, 0x01#8, 0x23#8, 0x45#8, 0x00#8] = some (.spiRead 0x012345#24 0x00#8) := by decide
theorem test_decode_spiProgram :
    frame [0x02#8, 0x00#8, 0x01#8, 0x00#8, 0xA5#8] = some (.spiProgram 0x000100#24 0xA5#8) := by decide
theorem test_decode_spiWren : frame [0x06#8] = some .spiWren := by decide
theorem test_decode_spiWrdi : frame [0x04#8] = some .spiWrdi := by decide
theorem test_decode_spiEwsr : frame [0x50#8] = some .spiEwsr := by decide
theorem test_decode_spiWrsr : frame [0x01#8, 0xBC#8] = some (.spiWrsr 0xBC#8) := by decide
theorem test_decode_spiRdsr : frame [0x05#8, 0x00#8] = some (.spiRdsr 0x00#8) := by decide
theorem test_decode_spiRdid :
    frame [0x90#8, 0x00#8, 0x00#8, 0x01#8, 0x00#8] = some (.spiRdid 0x00#8 0x00#8 0x01#8 0x00#8) := by decide
theorem test_decode_spiSectorErase :
    frame [0x20#8, 0x00#8, 0x12#8, 0x34#8] = some (.spiSectorErase 0x001234#24) := by decide
theorem test_decode_spiBlockErase32 :
    frame [0x52#8, 0x01#8, 0x23#8, 0x45#8] = some (.spiBlockErase32 0x012345#24) := by decide
theorem test_decode_spiBlockErase64 :
    frame [0xD8#8, 0x01#8, 0x23#8, 0x45#8] = some (.spiBlockErase64 0x012345#24) := by decide
theorem test_decode_spiChipErase : frame [0x60#8] = some .spiChipErase := by decide

/-- 95_test_vectors T8, T9, V7: frames the device model refuses. -/
theorem test_decode_refused :
    frame [0x9F#8] = none ∧ frame [0x03#8, 0x00#8] = none ∧ frame [0x06#8, 0x00#8] = none := by decide

/-- The opcode table's rows, as the host numbers them. -/
theorem test_tableWord :
    decodeTableWord 32 0xC = some .readId ∧ decodeTableWord 8 0x90 = some (.spiRdid 0x00#8 0x00#8 0x00#8 0x00#8) ∧
      decodeTableWord 8 0xD8 = some (.spiBlockErase64 0x000000#24) := by decide

/-! ## Single steps, with the defaults of spec/95_test_vectors.md

The machine's own environment is opaque, so these run the meanings in an environment of given parameters. -/

/-- An environment: the parameters of spec/95_test_vectors.md, but for a sector of 4 bytes, with a policy, a mode, the
delay of every operation (none: never) and block protection of even addresses. Unlisted array bytes are 0xFF. -/
def envOf (pol : AddrPolicy) (mode : ProgramMode) (delay : Option Nat) : Env where
  p :=
    { flashLog := 21, addrPolicy := pol, sectorLog := 2, fClk := 10000000, sckHalfPred := 1, cshPred := 1
      tCE := { num := 125, denPred := 999 }
      tBE32 := { num := 62, denPred := 999 }
      tBE64 := { num := 62, denPred := 999 }
      tSE := { num := 75, denPred := 999 }
      tBP := { num := 60, denPred := 999999 }
      busyBit := 0, welGap := 0, srWritable := 0xBC#8, wrenEnablesWrsr := true, wrsrClearsWel := true
      programMode := mode, mfrId := 0xBF#8, devId := 0x8E#8, srPowerup := 0x00#8
      protectedRaw := fun _ a => a % 2 == 0
      protectedChipRaw := fun _ => true
      killAddr := 0x000000#24, fcsBase := 0 }
  d :=
    { miso := fun _ => 0x77#8, delay := fun _ => delay, wel := fun _ => true, array := fun _ => 0xFF#8
      lost := fun _ _ => 0x00#8, rdata := fun _ => 0x00000000#32 }

/-- The defaults: REFUSE, AND, and a device that meets every budget. -/
def env : Env := envOf .refuse .andOld (some 500)

/-- The meaning of an instruction in a given environment. -/
def runIn (c : Env) (i : Instr) (s : State) : Host.Outcome State Fault Refusal :=
  match i with
  | .reserved => runCommand c 0x0#4 seqReserved s
  | .readByte => runCommand c 0x1#4 seqReadByte s
  | .writeByte => runCommand c 0x2#4 (seqWriteByte c) s
  | .eraseChip => runCommand c 0x3#4 (seqEraseChip c) s
  | .eraseSector => runCommand c 0x4#4 (seqEraseSector c) s
  | .eraseBlock32 => runCommand c 0x5#4 (seqEraseBlock32 c) s
  | .eraseBlock64 => runCommand c 0x6#4 (seqEraseBlock64 c) s
  | .readSr => runCommand c 0x7#4 seqReadSr s
  | .writeSr => runCommand c 0x8#4 seqWriteSr s
  | .ewsr => runCommand c 0x9#4 seqEwsr s
  | .wren => runCommand c 0xA#4 seqWren s
  | .wrdi => runCommand c 0xB#4 seqWrdi s
  | .readId => runCommand c 0xC#4 seqReadId s
  | .csAssert => runCommand c 0xD#4 seqCsAssert s
  | .csDeassert => runCommand c 0xE#4 seqCsDeassert s
  | .xfer => runCommand c 0xF#4 seqXfer s
  | i => deviceAct c i s

/-- `exec` is that meaning in the machine's own environment. -/
theorem test_exec_is_runIn (i : Instr) (s : State) : exec i s = runIn Config.env i s := by cases i <;> rfl

/-- What a state holds, or the default where the machine stopped. -/
def got {α : Type} (o : Host.Outcome State Fault Refusal) (d : α) (f : State → α) : α :=
  match o with
  | .next t => f t
  | .fault _ => d
  | .refused _ => d

/-- STATUS, RDATA and the cycles taken. -/
def sees (o : Host.Outcome State Fault Refusal) : Word × Byte × Nat :=
  got o (0#32, 0#8, 0) (fun t => (readReg 1#3 t, t.regs.rdata, t.now))

/-- The reset state with operands in ADDR and WDATA. -/
def start (a : Addr) (d : Byte) : State :=
  let s := State.resetIn env
  { s with regs := { s.regs with addr := a, wdata := d } }

/-- X5: code 0x0 at reset. The accept edge is one of the two cycles. -/
theorem test_reserved : sees (runIn env .reserved (start 0#24 0#8)) = (0x00000202#32, 0x00#8, 2) := by decide

/-- D1: READ_BYTE, latency 165. -/
theorem test_readByte :
    (let s := start 0x012345#24 0#8
     sees (runIn env .readByte { s with dev := { s.dev with array := [(0x012345, 0x5A#8)] } })) =
      (0x00000002#32, 0x5A#8, 166) := by decide

/-- D2: an address beyond FLASH_SIZE under REFUSE. -/
theorem test_readByte_beyond :
    (runIn env .readByte (start 0xFFFFFF#24 0#8) matches .refused .addressOutOfRange) = true := by
  decide

/-- D4: WRITE_BYTE of 0xA5 over 0xFF, latency 1033. -/
theorem test_writeByte :
    (let o := runIn env .writeByte (start 0x000100#24 0xA5#8)
     (sees o, got o [] (fun t => t.dev.array), got o true (fun t => t.dev.wel))) =
      ((0x00000002#32, 0xA5#8, 1034), [(0x000100, 0xA5#8)], false) := by decide

/-- D10: an erase of the target's region ends within the wait: WREN and the program are ignored, the check shows BUSY = 0,
and the verify finds 0xFF. -/
theorem test_writeByte_busyAtAccept :
    (let s := start 0x000100#24 0x22#8
     let o := runIn env .writeByte { s with dev := { s.dev with
       busy := true, pending := some (.erase 0x100 0x104), left := some 400, array := [(0x100, 0x0F#8)] } }
     (sees o, got o [(0, 0#8)] (fun t => t.dev.array))) = ((0x00000402#32, 0xFF#8, 1034), []) := by decide

/-- D8: a device that never completes: DEVICE_BUSY, and the program stays in progress. -/
theorem test_writeByte_deviceBusy :
    (let o := runIn (envOf .refuse .andOld none) .writeByte (start 0x000300#24 0x11#8)
     (got o 0#32 (readReg 1#3), got o none (fun t => t.dev.pending), got o true (fun t => t.dev.array.isEmpty))) =
      (0x00000102#32, some (.program 0x300 0x11#8), true) := by decide

/-- A device busy at accept, and an address it does not have. -/
def absentBusy (left : Option Nat) : State :=
  let s := start 0x200000#24 0#8
  { s with dev := { s.dev with busy := true, wel := true, pending := some (.program 7 0x11#8), left := left } }

/-- R220, R233: the frame that meets the busy device is ignored, and the one that meets it idle is refused. -/
theorem test_absentBusy :
    sees (runIn env .eraseSector (absentBusy (some 100))) = (0x00000002#32, 0x00#8, 750238) ∧
      (runIn env .eraseSector (absentBusy (some 38)) matches .refused .addressOutOfRange) = true ∧
      (runIn env .writeByte (absentBusy (some 100)) matches .refused .addressOutOfRange) = true := by decide

/-- D5: 0xF0 over 0x0F clears bits only under PROGRAM_MODE = AND: VERIFY_FAIL. -/
theorem test_writeByte_verifyFail :
    (let s := start 0x000100#24 0xF0#8
     sees (runIn env .writeByte { s with dev := { s.dev with array := [(0x000100, 0x0F#8)] } })) =
      (0x00000402#32, 0x00#8, 1034) := by decide

/-- E4: ERASE_CHIP, latency 1250141 (here with one byte listed). -/
theorem test_eraseChip :
    (let s := start 0xABCDEF#24 0#8
     let o := runIn env .eraseChip { s with dev := { s.dev with array := [(0x000100, 0x0F#8)] } }
     (got o (0#32, 0#8, 0) (fun t => (readReg 1#3 t, t.regs.rdata, t.now)), got o false (fun t => t.dev.wel))) =
      ((0x00000002#32, 0x00#8, 1250142), false) := by decide

/-- E1, with a sector of 4 bytes: latency 750237; bytes 4 to 7 are erased, and bytes 3 and 8 are not. -/
theorem test_eraseSector :
    (let s := start 0x000006#24 0#8
     let o := runIn env .eraseSector { s with dev := { s.dev with
       array := [(3, 0x00#8), (4, 0x00#8), (7, 0x00#8), (8, 0x00#8)] } }
     (sees o, got o [] (fun t => t.dev.array))) =
      ((0x00000002#32, 0x00#8, 750238), [(3, 0x00#8), (8, 0x00#8)]) := by decide

/-- E6: the device does not meet the budget. -/
theorem test_eraseSector_busy :
    sees (runIn (envOf .refuse .andOld none) .eraseSector (start 0#24 0#8)) = (0x00000102#32, 0x03#8, 750238) := by
  decide

/-- E2 and E3 where the device is not write-enabled (as E5), so that no region is enumerated: RESULT OK, and the latency
of 620237 less the priming frame. -/
theorem test_eraseBlock32 :
    (let s := start 0x012345#24 0#8
     sees (runIn env .eraseBlock32 { s with regs := { s.regs with autoPrime := false } })) =
      (0x00000002#32, 0x00#8, 620202) := by decide
theorem test_eraseBlock64 :
    (let s := start 0x012345#24 0#8
     sees (runIn env .eraseBlock64 { s with regs := { s.regs with autoPrime := false } })) =
      (0x00000002#32, 0x00#8, 620202) := by decide

/-- S3: READ_SR on a busy device with WEL set, latency 69. -/
theorem test_readSr :
    (let s := start 0#24 0#8
     sees (runIn env .readSr { s with dev := { s.dev with busy := true, wel := true } })) =
      (0x00000002#32, 0x03#8, 70) := by decide

/-- READ_SR polled while an erase ends within its frame: the byte shows BUSY and WEL, and the erase is applied at the end of
the frame (R180, R232). -/
theorem test_readSr_ends :
    (let s := start 0#24 0#8
     let o := runIn env .readSr { s with dev := { s.dev with
       busy := true, wel := true, pending := some (.erase 4 8), left := some 20, array := [(5, 0x00#8)] } }
     (sees o, got o [(0, 0#8)] (fun t => t.dev.array), got o 0xFF#8 (fun t => srByte env t.dev))) =
      ((0x00000002#32, 0x03#8, 70), [], 0x00#8) := by decide

/-- S5: WRITE_SR of 0xFF writes the bits of 0xBC only, latency 105. -/
theorem test_writeSr :
    (let o := runIn env .writeSr (start 0#24 0xFF#8)
     (sees o, got o 0#8 (fun t => srByte env t.dev))) = ((0x00000002#32, 0x00#8, 106), 0xBC#8) := by decide

/-- S6: without priming it is ignored. -/
theorem test_writeSr_unprimed :
    (let s := start 0#24 0xBC#8
     got (runIn env .writeSr { s with regs := { s.regs with autoPrime := false } }) 0xFF#8 (fun t => srByte env t.dev)) =
      0x00#8 := by decide

/-- S8: EWSR arms, latency 37. -/
theorem test_ewsr :
    (let o := runIn env .ewsr (start 0#24 0#8)
     (sees o, got o false (fun t => t.dev.ewsrArmed))) = ((0x00000002#32, 0x00#8, 38), true) := by decide

/-- S2: WREN; READ_SR then shows 0x02. -/
theorem test_wren :
    (let o := runIn env .wren (start 0#24 0#8)
     (sees o, got o 0#8 (fun t => srByte env t.dev))) = ((0x00000002#32, 0x00#8, 38), 0x02#8) := by decide

/-- S10: WRDI clears WEL. -/
theorem test_wrdi :
    (let s := start 0#24 0#8
     let o := runIn env .wrdi { s with dev := { s.dev with wel := true } }
     (sees o, got o 0xFF#8 (fun t => srByte env t.dev))) = ((0x00000002#32, 0x00#8, 38), 0x00#8) := by decide

/-- I1 and I2: MFR_ID and DEV_ID, latency 165. -/
theorem test_readId_mfr : sees (runIn env .readId (start 0xABCDEF#24 0#8)) = (0x00000002#32, 0xBF#8, 166) := by decide
theorem test_readId_dev : sees (runIn env .readId (start 0#24 1#8)) = (0x00000002#32, 0x8E#8, 166) := by decide

/-- The chip selected, with bytes of an open frame. -/
def selected (d : Byte) (rx : List Byte) : State :=
  let s := start 0#24 d
  { s with bus := { s.bus with csN := false }, dev := { s.dev with rx := rx } }

/-- T1: CS_ASSERT: STATUS = 0x0000000A. -/
theorem test_csAssert : sees (runIn env .csAssert (start 0#24 0#8)) = (0x0000000A#32, 0x00#8, 2) := by decide

/-- T3: CS_DEASSERT of a zero-byte frame, latency 3. T7: of the frame 06, which sets WEL. -/
theorem test_csDeassert : sees (runIn env .csDeassert (selected 0#8 [])) = (0x00000002#32, 0x00#8, 4) := by decide
theorem test_csDeassert_wren :
    got (runIn env .csDeassert (selected 0#8 [0x06#8])) false (fun t => t.dev.wel) = true := by decide

/-- T8 and T9: a frame of an unknown opcode, and one cut short. -/
theorem test_csDeassert_refused :
    (runIn env .csDeassert (selected 0#8 [0x9F#8]) matches .refused .unknownOpcode) = true ∧
      (runIn env .csDeassert (selected 0#8 [0x03#8, 0x00#8]) matches .refused .wrongLength) = true := by decide

/-- T6: the second XFER receives the status byte. T5: with cs_n = 1, latency 33 and nothing received. -/
theorem test_xfer :
    (let s := selected 0x00#8 [0x05#8]
     sees (runIn env .xfer { s with dev := { s.dev with srOther := 0x1C#8 } })) = (0x0000000A#32, 0x1C#8, 34) := by decide
theorem test_xfer_deselected :
    (let o := runIn env .xfer (start 0#24 0x9F#8)
     (got o 0 (fun t => t.now), got o [0#8] (fun t => t.dev.rx))) = (34, []) := by decide

/-- T10: a high-level command on a selected chip. -/
theorem test_illegal : sees (runIn env .readByte (selected 0#8 [])) = (0x0000030A#32, 0x00#8, 2) := by decide

/-- The device write-enabled, with bytes in the array. -/
def enabledWith (m : List Host.Cell) : State :=
  let s := start 0#24 0#8
  { s with dev := { s.dev with wel := true, array := m } }

/-- V1: PROGRAM starts and, at its completion, has programmed. -/
theorem test_spiProgram :
    got (runIn env (.spiProgram 0x000100#24 0x5A#8) (enabledWith [])) [] (fun t => (complete env t.dev).array) =
      [(0x000100, 0x5A#8)] := by decide

/-- D9: a protected byte is not programmed. -/
theorem test_spiProgram_protected :
    (let s := enabledWith []
     got (runIn env (.spiProgram 0x000100#24 0x5A#8) { s with dev := { s.dev with srOther := 0x04#8 } }) true
       (fun t => t.dev.busy)) = false := by decide

/-- R230: READ answers with the array byte. -/
theorem test_spiRead :
    got (runIn env (.spiRead 0x000100#24 0x00#8) (enabledWith [(0x000100, 0x5A#8)])) 0#8 (fun t => t.dev.out) =
      0x5A#8 := by decide

/-- V2, with a sector of 4 bytes: the region that holds byte 6. -/
theorem test_spiSectorErase :
    got (runIn env (.spiSectorErase 0x000006#24) (enabledWith [])) none (fun t => t.dev.pending) =
      some (.erase 4 8) := by decide

/-- R227 without WEL: no effect. -/
theorem test_spiBlockErase32 :
    got (runIn env (.spiBlockErase32 0x012345#24) (start 0#24 0#8)) true (fun t => t.dev.busy) = false := by decide
theorem test_spiBlockErase64 :
    got (runIn env (.spiBlockErase64 0x012345#24) (start 0#24 0#8)) true (fun t => t.dev.busy) = false := by decide

/-- E2, E3, E8: the regions of the block erases. -/
theorem test_blockRegions :
    regionBase block32Size 0x012345 = 0x010000 ∧ regionBase block32Size 0x012345 + block32Size = 0x018000 ∧
      regionBase block64Size 0x00FFFF = 0 ∧ block64Size = 0x010000 := by decide

/-- V3: chip erase without WEL; and with it, the whole array. -/
theorem test_spiChipErase_gated : got (runIn env .spiChipErase (start 0#24 0#8)) true (fun t => t.dev.busy) = false := by
  decide
theorem test_spiChipErase :
    got (runIn env .spiChipErase (enabledWith [])) none (fun t => t.dev.pending) = some (.erase 0 2097152) := by decide

/-- R225, R224, V4, V5. -/
theorem test_spiWren : got (runIn env .spiWren (start 0#24 0#8)) false (fun t => t.dev.wel) = true := by decide
theorem test_spiWrdi : got (runIn env .spiWrdi (enabledWith [])) true (fun t => t.dev.wel) = false := by decide
theorem test_spiEwsr_busy :
    (let s := start 0#24 0#8
     got (runIn env .spiEwsr { s with dev := { s.dev with busy := true } }) true (fun t => t.dev.ewsrArmed)) = false := by
  decide
theorem test_spiWrsr :
    (let s := start 0#24 0#8
     got (runIn env (.spiWrsr 0xFF#8) { s with dev := { s.dev with ewsrArmed := true } }) 0#8 (fun t => t.dev.srOther)) =
      0xBC#8 := by decide
theorem test_spiRdsr_disarms :
    (let s := start 0#24 0#8
     got (runIn env (.spiRdsr 0x00#8) { s with dev := { s.dev with ewsrArmed := true } }) true
       (fun t => t.dev.ewsrArmed)) = false := by decide
theorem test_spiRdid :
    got (runIn env (.spiRdid 0xAA#8 0x55#8 0x01#8 0x00#8) (start 0#24 0#8)) 0#8 (fun t => t.dev.out) = 0x8E#8 := by decide

/-! ## The host's registers (95_test_vectors X1 to X13), and edges of clk -/

/-- One edge with a host write, then what a register reads as. -/
def writeThenRead (a : BitVec 3) (v : Word) (b : BitVec 3) (s : State) : Word :=
  got (clockEdge env { s with port := [Cycle.write a v] }) 0xFFFFFFFF#32 (readReg b)

theorem test_x1_ctrl : readReg 0#3 State.reset = 0x00000001#32 := by decide
theorem test_x2 : writeThenRead 3#3 0xFFABCDEF#32 3#3 (start 0#24 0#8) = 0x00ABCDEF#32 := by decide
theorem test_x3 : writeThenRead 4#3 0x12345678#32 4#3 (start 0#24 0#8) = 0x00000078#32 := by decide
theorem test_x4 : writeThenRead 0#3 0xFFFFFFFF#32 0#3 (start 0#24 0#8) = 0x00000003#32 := by decide
theorem test_x6 : writeThenRead 2#3 0xFFFFFFF1#32 2#3 (start 0#24 0#8) = 0x00000001#32 := by decide
theorem test_x13 : writeThenRead 2#3 0x00000001#32 1#3 (start 0#24 0#8) = 0x00000001#32 := by decide

/-- X7: a CMD write while READ_BYTE runs sets OVR beside BUSY. The vector's word leaves out CS_ACTIVE, which 10_state R43
sets during the frame. -/
theorem test_x7 :
    got (clockEdge env { start 0#24 0#8 with port := [Cycle.write 2#3 0x1#32] }) 0#32
      (writeThenRead 2#3 0x7#32 1#3) = 0x00000005#32 ||| 0x00000008#32 := by decide

/-- X10: a clear of DONE at the publish edge loses. -/
theorem test_x10 :
    got (clockEdge env { start 0#24 0#8 with port := [Cycle.write 2#3 0x0#32] }) 0#32
      (writeThenRead 1#3 0x2#32 1#3) = 0x00000202#32 := by decide

/-- X12: RESULT persists. -/
theorem test_x12 :
    (let s := start 0#24 0#8
     writeThenRead 1#3 0x2#32 1#3 { s with regs := { s.regs with result := .verifyFail, done := true } }) =
      0x00000400#32 := by decide

/-- Z3: reset at an edge with the byte 06 of a frame received: cs_n rises, and the device takes the frame. -/
theorem test_z3 :
    got (clockEdge env { selected 0#8 [0x06#8] with port := [Cycle.reset] }) false
      (fun s => got (deviceTurn env s) false (fun t => t.dev.wel && !t.regs.done && t.bus.csN)) = true := by
  decide

/-- Reset in the chip-select hold of a command's frame whose one byte is complete: the device acts on it (log entry 21). -/
theorem test_resetInHold :
    (let s := selected 0#8 [0x06#8]
     got (clockEdge env { s with
       sq := { s.sq with step := .run 0, seq := [.frame [0x06#8] none], phase := .hold }, port := [Cycle.reset] }) false
       (fun s => got (deviceTurn env s) false (fun t => t.dev.wel))) = true := by decide

/-- A program that is due, on a selected chip with the bytes `rx` of an open frame, whose hold ends at the next edge. -/
def heldAtRise (rx : List Byte) : State :=
  { selected 0#8 rx with
    bus := { (selected 0#8 rx).bus with gapCtr := sckHalf env - 1 }
    sq := { Sequencer.reset with step := .run 0, seq := [.frame rx none], phase := .hold }
    dev := { (selected 0#8 rx).dev with busy := true, wel := true, pending := some (.program 0 0x5A#8), left := some 1 } }

/-- R232: due inside an RDSR frame, the operation completes at that frame's rising cs_n edge, after RDSR has answered. -/
theorem test_completionAfterTheFramesRule :
    got (clockEdge env (heldAtRise [0x05#8, 0x00#8])) false (fun s =>
      s.bus.csN && s.dev.busy && got (deviceTurn env s) false (fun t =>
        !t.dev.busy && !t.dev.wel && decide (Memory.read env.d.array t.dev.array 0 = 0x5A#8) && decide (t.now = s.now) &&
          decide (t.dev.out = 0x03#8))) = true := by decide

/-- R232, R234: the rising cs_n edge of a frame of no bytes. -/
theorem test_completionAtTheRiseOfAnEmptyFrame :
    got (clockEdge env (heldAtRise [])) false (fun t => t.bus.csN && !t.dev.busy && !t.dev.wel) = true := by decide

/-- R232: an operation that its frame starts with a delay of 0 cycles is done after the frame; one of 1 cycle is not. -/
theorem test_completionWithNoDelay :
    (let s := enabledWith []
     let s := { s with dev := { s.dev with rx := [0x60#8] } }
     got (deviceTurn (envOf .refuse .andOld (some 0)) s) true (fun t => t.dev.busy) ||
       !got (deviceTurn (envOf .refuse .andOld (some 1)) s) false (fun t => t.dev.busy)) = false := by decide

/-- Reset inside the first byte of a command's frame: three edges after its CMD write, READ_BYTE's frame has no byte. -/
theorem test_resetInFirstByte :
    (clockRun env 4 { start 0#24 0#8 with port := [Cycle.write 2#3 0x1#32, Cycle.idle, Cycle.idle, Cycle.reset] }
      matches .refused .wrongLength) = true := by decide

/-- A read in a cycle of power loss carries the free value, not the register. -/
theorem test_powerLoss_hRdata :
    got (clockEdge env { start 0#24 0#8 with port := [{ Cycle.read 0#3 with power := true }] }) 0x00000001#32
      (fun t => t.hRdata) = 0x00000000#32 := by decide

set_option maxRecDepth 8000 in
/-- READ_SR edge by edge takes 69 edges after its accept, and publishes what the whole command publishes (S1, R296). -/
theorem test_readSr_edges :
    (let s := start 0#24 0#8
     sees (clockRun env 70 { s with port := [Cycle.write 2#3 0x7#32] })) = (0x00000002#32, 0x00#8, 70) := by decide

/-- P3's shape at one operation: a POLL of STATUS.DONE stays where it is while DONE is 0 (30_encoding R115). -/
theorem test_poll : hostWait.target 3 0x00000001#32 = 3 ∧ hostWait.target 3 0x00000002#32 = 4 := by decide

/-- R115: one bus cycle of a host program, `lw CTRL` at reset: the value read is 1, and the host goes on. -/
theorem test_hostStep :
    (hostStep env { prog := [.lw .ctrl], pc := 0, machine := start 0#24 0#8 } matches
      .next { pc := 1, machine := { hRdata := 0x00000001#32, .. }, .. }) = true := by decide

/-- R300: a host between its operations is not over, and at the end of its program it is. -/
theorem test_hostRun_over :
    ¬ HostRun.Over { prog := [.lw .status], pc := 0, machine := State.reset } ∧
      HostRun.Over { prog := [.lw .status], pc := 1, machine := State.reset } :=
  ⟨fun h => absurd h.program (by decide), by decide, by simp [State.reset, State.resetIn], rfl, rfl, rfl, rfl, rfl⟩

/-- The spelling of a bus transaction (95_test_vectors P1). -/
theorem test_spelling :
    (HostOp.sw .addr 0x001000#32).cycle.acc = .write 3#3 0x001000#32 ∧ hexWord 0x00001000#32 = "00001000" := by decide

/-! ## Fetching -/

/-- A table row's words placed where the step fetches them. -/
theorem test_fetch_command : (State.reset.withFetchWord 32 0x7).port = [Cycle.write 2#3 0x7#32] := by decide
theorem test_fetch_frame : (State.reset.withFetchWord 8 0x05).dev.rx = [0x05#8, 0x00#8] := by decide

/-! ## A witness for the hypotheses of each statement, in the machine's own environment -/

/-- The reset state with a port schedule. -/
def portOf (p : List Cycle) : State := { State.reset with port := p }

/-- The reset state with the chip selected and an open frame. -/
def openOf (rx : List Byte) (p : List Cycle) : State :=
  { State.reset with
    bus := { Bus.reset with csN := false }
    dev := { State.reset.dev with rx := rx }
    port := p }

/-- The reset state with an ended frame. -/
def endedOf (rx : List Byte) : State := { State.reset with dev := { State.reset.dev with rx := rx } }

/-- The reset state with the device busy on an operation, due in `left` edges. -/
def busyOf (op : Pending) (left : Option Nat) (csN : Bool) (p : List Cycle) : State :=
  { State.reset with
    bus := { Bus.reset with csN := csN }
    dev := { State.reset.dev with busy := true, wel := true, pending := some op, left := left }
    port := p }

/-- The reset state with a command in FIN, code 0x0. -/
def finOf (p : List Cycle) : State := { portOf p with sq := { Sequencer.reset with step := .fin } }

/-- The reset state with AUTO_PRIME = 0. -/
def unprimed : State := { State.reset with regs := { HostRegs.reset with autoPrime := false } }

/-- The reset state with WEL set. -/
def welSet : State := { State.reset with dev := { State.reset.dev with wel := true } }

theorem portOf_ready (p : List Cycle) : Ready (portOf p) := ⟨rfl, rfl⟩

theorem witness_StepRunsTheFetchedCommand :
    Ready (portOf [Cycle.write 2#3 0x1#32]) ∧
      quiet ([] : List Cycle) (latency Config.env (cmdCode 0x1#32) (portOf [Cycle.write 2#3 0x1#32])) = true :=
  ⟨portOf_ready _, rfl⟩

theorem witness_StepRunsTheEndedFrame :
    (endedOf [0x06#8]).bus.csN = true ∧ decodeFrame (endedOf [0x06#8]).dev.rx = .ok .spiWren := ⟨rfl, rfl⟩

theorem witness_UndefinedFramesAreRefused :
    (endedOf [0x9F#8]).bus.csN = true ∧ (endedOf [0x9F#8]).dev.rx = [0x9F#8] ∧ opOfByte 0x9F#8 = none := by decide

theorem witness_UndefinedFramesAreRefused_length :
    (endedOf [0x06#8, 0x00#8]).bus.csN = true ∧ opOfByte 0x06#8 = some .wren ∧
      [(0x00#8 : Byte)].length + 1 ≠ DevOp.wren.length := by decide

theorem witness_EncodeOfADecodedFrameIsTheFrame : decodeFrame [0x06#8] = .ok .spiWren := rfl

theorem witness_ReadsHaveNoSideEffect : turnDue State.reset = false ∧ (∀ i ∈ [0, 7, 8, 10, 11, 31], i < 32) ∧
    (∀ i ∈ [8, 10], 8 ≤ i ∧ i ≤ 10) ∧ ∀ i ∈ [7, 11, 31], ¬ (8 ≤ i ∧ i ≤ 10) := ⟨rfl, by decide, by decide, by decide⟩

theorem witness_ReadDataIsZeroWithoutARead :
    ∀ p ∈ [[], [Cycle.idle], [Cycle.write 3#3 0x1#32], [Cycle.reset]],
      turnDue (portOf p) = false ∧ ((portOf p).port.headD Cycle.idle).power = false ∧
        (∀ a, ((portOf p).port.headD Cycle.idle).acc ≠ .read a) ∧ ∃ t, step (portOf p) = .next t := by
  intro p hp
  simp only [List.mem_cons, List.not_mem_nil, or_false] at hp
  rcases hp with rfl | rfl | rfl | rfl <;> exact ⟨rfl, rfl, (fun _ h => nomatch h), _, rfl⟩

theorem witness_HostWritesSetTheirRegister :
    ∀ a ∈ [0#3, 3#3, 4#3, 5#3, 7#3], Ready (portOf [Cycle.write a 0xFFFFFFFF#32]) ∧ a ≠ 1#3 ∧ a ≠ 2#3 := by
  intro a ha
  refine ⟨portOf_ready _, ?_, ?_⟩ <;> (rintro rfl; simp at ha)

theorem witness_HostWritesSetTheirRegister_boundary : 5#3 ≤ 5#3 ∧ ¬ 5#3 ≤ 4#3 ∧ 5#3 ≤ 7#3 := by decide

theorem witness_StatusWritesClearDoneAndOvr : turnDue State.reset = false := rfl

/-- Its publish edge: a busy state whose next edge leaves the FCS idle. -/
theorem witness_StatusWritesClearDoneAndOvr_publish :
    turnDue (finOf []) = false ∧ (finOf []).busy = true ∧ ∃ t, step (finOf [Cycle.idle]) = .next t ∧ t.busy = false :=
  ⟨rfl, rfl, _, rfl, rfl⟩

theorem witness_CmdWriteIsAcceptedAtItsEdge :
    Ready (portOf [Cycle.write 2#3 0x0#32, Cycle.read 1#3]) ∧
      quiet [Cycle.read 1#3] (latency Config.env (cmdCode 0x0#32) (portOf [Cycle.write 2#3 0x0#32, Cycle.read 1#3])) =
        false :=
  ⟨portOf_ready _, rfl⟩

theorem witness_CmdWriteWhileBusyOnlySetsOvr : turnDue (finOf []) = false ∧ (finOf []).busy = true := ⟨rfl, rfl⟩

theorem witness_OperandWritesLeaveTheRunningCommandAlone :
    turnDue (finOf []) = false ∧ (finOf []).busy = true ∧ ∀ a ∈ [5#3, 6#3, 7#3], 5#3 ≤ a := ⟨rfl, rfl, by decide⟩

theorem witness_ResetWinsAtItsEdge :
    turnDue (portOf [{ Cycle.write 2#3 0x1#32 with rstN := false }]) = false ∧
      inFirstByte (portOf [{ Cycle.write 2#3 0x1#32 with rstN := false }]) = false ∧
      (portOf [{ Cycle.write 2#3 0x1#32 with rstN := false }]).port =
        [{ acc := .write 2#3 0x1#32, rstN := false, power := false }] := ⟨rfl, rfl, rfl⟩

/-- A raw frame of no complete byte, with the FCS idle. -/
theorem witness_ResetWinsAtItsEdge_open :
    let s := openOf [] [Cycle.reset]
    turnDue s = false ∧ inFirstByte s = false ∧ s.port = [{ acc := .none, rstN := false, power := false }] ∧
      s.bus.csN = false ∧ s.dev.rx = [] := ⟨rfl, rfl, rfl, rfl, rfl⟩

theorem witness_ResetWinsAtItsEdge_read :
    let s := portOf [{ Cycle.read 0#3 with rstN := false }]
    turnDue s = false ∧ inFirstByte s = false ∧ s.port = [{ acc := .read 0#3, rstN := false, power := false }] ∧
      Access.write 2#3 0x1#32 ≠ .read 0#3 := ⟨rfl, rfl, rfl, by decide⟩

theorem witness_FrameCutShortByResetIsRefused :
    (openOf [0x03#8, 0x00#8] [Cycle.reset]).bus.csN = false ∧ opOfByte 0x03#8 = some .read ∧
      [(0x00#8 : Byte)].length + 1 ≠ DevOp.read.length ∧
      (openOf [0x03#8, 0x00#8] [Cycle.reset]).dev.rx = [0x03#8, 0x00#8] ∧
      (openOf [0x03#8, 0x00#8] [Cycle.reset]).port = [{ acc := .none, rstN := false, power := false }] :=
  ⟨rfl, rfl, by decide, rfl, rfl⟩

/-- A frame of a command, in its first byte. -/
def firstByteOf (a : Machine.Action) : State :=
  { openOf [] [Cycle.reset] with sq := { Sequencer.reset with step := .run 0, seq := [a], phase := .shift } }

theorem witness_FrameCutShortByResetIsRefused_firstByte :
    ∀ a ∈ [Machine.Action.check, .frame [0x06#8] none], (firstByteOf a).bus.csN = false ∧ (firstByteOf a).dev.rx = [] ∧
      (firstByteOf a).sq.step = .run 0 ∧ (firstByteOf a).sq.seq[0]? = some a ∧
      (a = .check ∨ ∃ bs cap, a = .frame bs cap) ∧
      (firstByteOf a).port = [{ acc := .none, rstN := false, power := false }] := by
  intro a ha
  refine ⟨rfl, rfl, rfl, rfl, ?_, rfl⟩
  simp only [List.mem_cons, List.not_mem_nil, or_false] at ha
  rcases ha with h | h
  · exact .inl h
  · exact .inr ⟨_, _, h⟩

theorem reset_wf : Memory.wf Config.env.d.array State.reset.dev.array := reset_array_wf _

theorem busyOf_wf (op : Pending) (left : Option Nat) (csN : Bool) (p : List Cycle) :
    Memory.wf Config.env.d.array (busyOf op left csN p).dev.array := reset_array_wf _

theorem witness_PowerLossKeepsTheArrayOutsideThePendingRegion_erase :
    let s := busyOf (.erase 4 8) none true [Cycle.powerLoss]
    turnDue s = false ∧ Memory.wf Config.env.d.array s.dev.array ∧ s.port = [Cycle.powerLoss] ∧
      ∀ a ∈ [3, 8], (∀ d, s.dev.pending ≠ some (.program a d)) ∧
        ∀ lo hi, s.dev.pending = some (.erase lo hi) → a < lo ∨ hi ≤ a := by
  intro s
  refine ⟨rfl, busyOf_wf _ _ _ _, rfl, fun a ha => ⟨fun d h => ?_, fun lo hi h => ?_⟩⟩ <;> cases h
  simp at ha
  omega

/-- Power lost in a cycle with a host access, and in one with reset held as well. -/
theorem witness_PowerLossKeepsTheArrayOutsideThePendingRegion_access :
    ∀ r ∈ [true, false], (portOf [{ Cycle.write 2#3 0x1#32 with rstN := r, power := true }]).port =
      [{ acc := .write 2#3 0x1#32, rstN := r, power := true }] := fun _ _ => rfl

theorem witness_PowerLossKeepsTheArrayOutsideThePendingRegion_program :
    let s := busyOf (.program 5 0x00#8) none true [Cycle.powerLoss]
    turnDue s = false ∧ Memory.wf Config.env.d.array s.dev.array ∧ s.port = [Cycle.powerLoss] ∧
      (∀ d, s.dev.pending ≠ some (.program 6 d)) ∧ ∀ lo hi, s.dev.pending = some (.erase lo hi) → 6 < lo ∨ hi ≤ 6 := by
  intro s
  refine ⟨rfl, busyOf_wf _ _ _ _, rfl, fun d h => ?_, fun lo hi h => ?_⟩ <;> cases h

/-- ReadFrame, ProgramFrame, EraseFrames, ChipEraseFrame: an idle device, and an address every device has. -/
theorem witness_FramesOnAnIdleDevice :
    State.reset.dev.busy = false ∧ welSet.dev.busy = false ∧ locate Config.env 0x000000#24 = some 0 :=
  ⟨rfl, rfl, locate_zero _⟩

/-- ReadFrame on a busy device: any address and any x. -/
theorem witness_ReadFrameAnswersWithTheArrayByte_busy :
    let s := busyOf (.program 0 0x00#8) none true []
    s.dev.busy = true ∧ (s.dev.busy = false → locate Config.env 0xFFFFFF#24 = some 7) := ⟨rfl, fun h => nomatch h⟩

theorem witness_ProtectionMeetsItsLaw : State.reset.dev.srOther &&& 0x00#8 = 0x00#8 ∧
    (start 0#24 0#8).dev.srOther &&& env.p.srWritable = 0x00#8 := ⟨by simp, by decide⟩

theorem witness_RdidFrameAnswersWithTheIdentification :
    State.reset.dev.busy = false ∧ ∀ sel ∈ [0x00#8, 0x01#8], sel = 0x00#8 ∨ sel = 0x01#8 := by
  refine ⟨rfl, by simp⟩

theorem witness_BusyDeviceIgnoresEveryFrameButRdsr :
    (busyOf (.program 0 0x00#8) none true []).dev.busy = true ∧ decodeFrame [0x06#8] = .ok .spiWren ∧
      [0x06#8].head? ≠ some DevOp.rdsr.code := ⟨rfl, rfl, by decide⟩

/-- AddressesBeyondTheArray and CommandsToAbsentAddresses, at the first address the device does not have, under each
policy. -/
theorem witness_AddressesBeyondTheArrayFollowThePolicy :
    (start 0x200000#24 0#8).dev.busy = false ∧ flashSize env ≤ (0x200000#24 : Addr).toNat ∧ env.p.addrPolicy = .refuse ∧
      ¬ flashSize env ≤ (0x1FFFFF#24 : Addr).toNat ∧
      flashSize (envOf .wrap .andOld none) ≤ (0x200000#24 : Addr).toNat ∧
      (envOf .wrap .andOld none).p.addrPolicy = .wrap := by decide

theorem witness_AddressesBeyondTheArrayFollowThePolicy_below :
    (0x1FFFFF#24 : Addr).toNat < flashSize env ∧ flashSize env - 1 = 0x1FFFFF ∧ (0x000000#24 : Addr).toNat < flashSize env ∧
      0 < flashSize Config.env := ⟨by decide, by decide, by decide, flashSize_pos _⟩

theorem witness_CommandsToAbsentAddressesAreRefused :
    let s := start 0x200000#24 0#8
    s.sq.step = .idle ∧ s.bus.csN = true ∧ s.dev.busy = false ∧ flashSize env ≤ s.regs.addr.toNat ∧
      env.p.addrPolicy = .refuse := by decide

theorem witness_NoFrameChangesTheArray : decodeFrame [0x06#8] = .ok .spiWren ∧ ∃ t, exec .spiWren State.reset = .next t :=
  ⟨rfl, _, rfl⟩

/-- The reset state with a byte listed at address 0, in an erase of it that is due. -/
def erasingOf (b : Byte) (p : List Cycle) : State :=
  let s := busyOf (.erase 0 1) (some 1) true p
  { s with dev := { s.dev with array := [(0, b)] } }

/-- A completion that changes the array, at an edge that is a step. -/
theorem witness_NoFrameChangesTheArray_completion :
    let s := erasingOf 0x00#8 []
    ∃ t, clockEdge Config.env s = .next t ∧ step s = .next t ∧ t.dev.array ≠ s.dev.array := by
  intro s
  refine ⟨_, rfl, rfl, fun h => ?_⟩
  have hm : ((0, 0x00#8) : Host.Cell) ∈ Memory.fill Config.env.d.array (fun _ => 0xFF#8) [(0, 0x00#8)] 0 1 :=
    (congrArg (fun m : List Host.Cell => (0, 0x00#8) ∈ m) h).mpr (List.mem_singleton.mpr rfl)
  simp [Memory.mem_fill] at hm

/-- A loss of power that changes it. -/
theorem witness_NoFrameChangesTheArray_powerLoss :
    let s := erasingOf (Config.env.d.lost 0 0 + 1#8) [Cycle.powerLoss]
    ∃ t, clockEdge Config.env s = .next t ∧ step s = .next t ∧ t.dev.array ≠ s.dev.array := by
  intro s
  refine ⟨_, rfl, rfl, fun h => ?_⟩
  have hm : ((0, Config.env.d.lost 0 0 + 1#8) : Host.Cell) ∈
      Memory.fill Config.env.d.array (Config.env.d.lost 0) [(0, Config.env.d.lost 0 0 + 1#8)] 0 1 :=
    (congrArg (fun m : List Host.Cell => (0, Config.env.d.lost 0 0 + 1#8) ∈ m) h).mpr (List.mem_singleton.mpr rfl)
  simp [Memory.mem_fill] at hm

/-- Idle and running FCS, an operation due now or long due, with either level of cs_n. -/
theorem witness_CompletionAppliesThePendingOperation :
    ∀ op ∈ [Pending.program 0 0x5A#8, .erase 0 1], ∀ csN ∈ [true, false], ∀ k ∈ [0, 1],
      ∀ q ∈ [Sequencer.reset, { Sequencer.reset with step := .run 0, seq := [.wait 9], waitCtr := 9, phase := .wait }],
      let s := { busyOf op (some k) csN [Cycle.idle] with sq := q }
      turnDue s = false ∧ s.sq.stepLegal ∧ Memory.wf Config.env.d.array s.dev.array ∧ s.port = [Cycle.idle] ∧
        s.dev.busy = true ∧ s.dev.pending = some op ∧ s.dev.left = some k ∧ k ≤ 1 ∧ s.bus.csN = csN := by
  intro op _ csN _ k hk q hq
  refine ⟨by cases csN <;> rfl, ?_, busyOf_wf op (some k) csN [Cycle.idle], rfl, rfl, rfl, rfl, ?_, rfl⟩
  · simp only [List.mem_cons, List.not_mem_nil, or_false] at hq
    rcases hq with rfl | rfl
    · trivial
    · exact Nat.zero_lt_one
  · simp only [List.mem_cons, List.not_mem_nil, or_false] at hk
    omega

/-- The commands that read or write through the device, on an idle device and on one that stays busy. -/
theorem witness_CommandsOnAnIdleDevice (n : Nat) :
    State.reset.sq.step = .idle ∧ State.reset.bus.csN = true ∧ State.reset.dev.busy = false ∧ Steady n State.reset ∧
      Memory.wf Config.env.d.array State.reset.dev.array ∧ locate Config.env State.reset.regs.addr = some 0 :=
  ⟨rfl, rfl, rfl, steady_of_idle _ rfl, reset_wf, locate_zero _⟩

theorem witness_CommandsOnABusyDevicePublishDeviceBusy (n : Nat) :
    let s := busyOf (.program 0 0x00#8) none true []
    s.sq.step = .idle ∧ s.bus.csN = true ∧ s.dev.busy = true ∧ Steady n s ∧
      (∀ m k, s.dev.left = some k → n < k + m) ∧ ∀ code ∈ [0x2#4, 0x6#4], 0x2#4 ≤ code ∧ code ≤ 0x6#4 := by
  intro s
  refine ⟨rfl, rfl, rfl, fun _ k h => ?_, fun _ k h => ?_, by decide⟩ <;> cases h

/-- An operation that completes after the check frame has begun, and before the command publishes. -/
theorem witness_CommandsOnABusyDevicePublishDeviceBusy_late (code : Code) :
    let n := 1 + latency Config.env code State.reset
    let tail := frameCycles Config.env 2 + if code = 0x2#4 then frameCycles Config.env 5 else 0
    let s := busyOf (.erase 0 1) (some n) true []
    n = 1 + latency Config.env code s ∧ ¬ Steady n s ∧ (∀ k, s.dev.left = some k → n < k + tail) ∧
      locate Config.env s.regs.addr = some 0 := by
  intro n tail s
  refine ⟨rfl, fun h => Nat.lt_irrefl _ (h rfl n rfl), ?_, locate_zero _⟩
  rintro k ⟨⟩
  have : 0 < frameCycles Config.env 2 := Nat.lt_of_lt_of_le (Nat.succ_pos Config.env.p.cshPred) (Nat.le_add_left _ _)
  show n < n + tail
  omega

theorem witness_CommandsOnABusyDevicePublishDeviceBusy_erase : ¬ 0x3#4 ≤ 0x2#4 ∧ 0x3#4 ≤ 0x3#4 := by decide

/-- CS_DEASSERT about to raise cs_n, on an open frame of the bytes `rx`, with an operation due. -/
def risingOf (op : Pending) (k : Nat) (rx : List Byte) : State :=
  let s := busyOf op (some k) false [Cycle.idle]
  { s with
    sq := { Sequencer.reset with step := .run 0, seq := [.csHigh] }
    dev := { s.dev with rx := rx } }

/-- cs_n rises at the edge, on a frame of no bytes and on one with bytes. -/
theorem witness_CompletionAppliesThePendingOperation_rise :
    ∀ op ∈ [Pending.program 0 0x5A#8, .erase 0 1], ∀ k ∈ [0, 1], ∀ rx ∈ [[], [0x05#8, 0x00#8]],
      let s := risingOf op k rx
      turnDue s = false ∧ s.sq.stepLegal ∧ Memory.wf Config.env.d.array s.dev.array ∧ s.port = [Cycle.idle] ∧
        s.dev.busy = true ∧ s.dev.pending = some op ∧ s.dev.left = some k ∧ s.bus.csN = false ∧
        ∃ t, step s = .next t ∧ t.bus.csN = true ∧ t.dev.rx = rx := by
  intro op _ k _ rx hrx s
  refine ⟨rfl, Nat.zero_lt_one, reset_wf, rfl, rfl, rfl, rfl, rfl, _, rfl, rfl, ?_⟩
  simp only [List.mem_cons, List.not_mem_nil, or_false] at hrx
  rcases hrx with rfl | rfl
  · exact completeHeld_rx
  · rfl

/-- A frame that meets an operation due, RDSR and another. -/
theorem witness_HeldUpOperationsCompleteWithTheirFrame :
    ∀ op ∈ [Pending.program 0 0x5A#8, .erase 0 1],
      ∀ f ∈ [([0x05#8, 0x00#8], Instr.spiRdsr 0x00#8), ([0x06#8], Instr.spiWren)],
        let b := busyOf op (some 0) true []
        let s := { b with dev := { b.dev with rx := f.1 } }
        s.bus.csN = true ∧ decodeFrame s.dev.rx = .ok f.2 ∧ Memory.wf Config.env.d.array s.dev.array ∧
          s.dev.busy = true ∧ s.dev.pending = some op ∧ s.dev.left = some 0 := by
  intro op _ f hf
  refine ⟨rfl, ?_, reset_wf, rfl, rfl, rfl⟩
  simp only [List.mem_cons, List.not_mem_nil, or_false] at hf
  rcases hf with rfl | rfl <;> rfl

/-- A frame that starts an operation: a chip erase on an unprotected device with WEL. -/
theorem witness_HeldUpOperationsCompleteWithTheirFrame_started :
    let s := { endedOf [0x60#8] with dev := { (endedOf [0x60#8]).dev with wel := true, srOther := 0x00#8 } }
    s.bus.csN = true ∧ decodeFrame s.dev.rx = .ok .spiChipErase ∧ Memory.wf Config.env.d.array s.dev.array ∧
      s.dev.busy = false ∧ ∃ t, exec .spiChipErase { s with dev := { s.dev with rx := [] } } = .next t ∧
        t.dev.busy = true ∧ t.dev.pending = some (.erase 0 (flashSize Config.env)) := by
  intro s
  have hp : protectedChip Config.env (srByte Config.env { s.dev with rx := [] }) = false := by
    unfold protectedChip
    rw [srByte_and_writableMask]
    simp [s]
  refine ⟨rfl, rfl, reset_wf, rfl, _, rfl, ?_⟩
  simp only [whenIdle, arrayOp, hp]
  exact ⟨rfl, rfl⟩

/-- An operation that completes by the first frame (k = 2), and one that completes within the wait before the check. -/
theorem witness_OperationsThatEndDuringACommandShowInItsCheck :
    ∀ op ∈ [Pending.program 0 0x5A#8, .erase 0 1], ∀ k ∈ [0, 2, 3], ∀ code ∈ [0x2#4, 0x3#4, 0x6#4],
      let s := busyOf op (some k) true []
      s.sq.step = .idle ∧ s.bus.csN = true ∧ Memory.wf Config.env.d.array s.dev.array ∧ s.dev.busy = true ∧
        s.dev.pending = some op ∧ s.dev.left = some k ∧ 0x2#4 ≤ code ∧ code ≤ 0x6#4 ∧
        locate Config.env s.regs.addr = some 0 ∧
        k + frameCycles Config.env 2 + (if code = 0x2#4 then frameCycles Config.env 5 else 0) ≤
          1 + latency Config.env code s := by
  intro op _ k hk code hc s
  refine ⟨rfl, rfl, busyOf_wf _ _ _ _, rfl, rfl, rfl, ?_, ?_, locate_zero _, ?_⟩
  all_goals simp only [List.mem_cons, List.not_mem_nil, or_false] at hk hc
  · rcases hc with rfl | rfl | rfl <;> decide
  · rcases hc with rfl | rfl | rfl <;> decide
  · have h1 : 0 < frameCycles Config.env 1 := Nat.lt_of_lt_of_le (Nat.succ_pos Config.env.p.cshPred) (Nat.le_add_left _ _)
    have h2 : frameCycles Config.env 1 + frameCycles Config.env 2 +
        (if code = 0x2#4 then frameCycles Config.env 5 else 0) + 1 ≤ latency Config.env code s := by
      rcases hc with rfl | rfl | rfl <;>
        simp [latency, commandSeq, decodeCode, cmdTable, seqWriteByte, seqEraseChip, seqEraseBlock64, seqErase, highLevel,
          primeWren, latch, s, busyOf, State.reset, State.resetIn, HostRegs.reset, Bus.reset, seqCycles, Action.cycles,
          frameN, frameA, frameAR, frameAW, addrFrame] <;>
        omega
    omega

/-- An address the device does not have, and an operation that completes by the main frame (k = 38 in this environment),
just after it begins (39), by the check, and by WRITE_BYTE's read-back. -/
theorem witness_AbsentAddressesAfterAnEarlierOperation :
    let s := fun k => absentBusy (some k)
    (∀ k ∈ [0, 38, 39], (s k).sq.step = .idle ∧ (s k).bus.csN = true ∧ (s k).dev.busy = true ∧ (s k).dev.left = some k ∧
      flashSize env ≤ (s k).regs.addr.toNat ∧ env.p.addrPolicy = .refuse) ∧
      2 + frameCycles env 1 = 38 ∧ (s 39).regs.autoPrime = true ∧
      39 + frameCycles env 2 ≤ 1 + latency env 0x4#4 (s 39) ∧ 39 + frameCycles env 5 ≤ 1 + latency env 0x2#4 (s 39) := by
  decide

/-- An operation that completes during a command, early (k = 3) and by its publish edge. -/
theorem witness_OperationsThatEndDuringAnyOtherCommandAreApplied :
    ∀ op ∈ [Pending.program 0 0x5A#8, .erase 0 1],
      ∀ code ∈ [0x1#4, 0x7#4, 0x8#4, 0x9#4, 0xA#4, 0xB#4, 0xC#4, 0xF#4],
        ∀ k ∈ [3, 1 + latency Config.env code State.reset],
          let s := busyOf op (some k) true []
          s.sq.step = .idle ∧ s.bus.csN = true ∧ Memory.wf Config.env.d.array s.dev.array ∧ s.dev.busy = true ∧
            s.dev.pending = some op ∧ s.dev.left = some k ∧ 2 < k ∧ k ≤ 1 + latency Config.env code s := by
  intro op _ code hc k hk s
  have hn : ∀ n, 0 < frameCycles Config.env n :=
    fun n => Nat.lt_of_lt_of_le (Nat.succ_pos Config.env.p.cshPred) (Nat.le_add_left _ _)
  have hx : 0 < exchangeCycles Config.env := Nat.mul_pos (by decide) (Nat.succ_pos Config.env.p.sckHalfPred)
  have h2 : 1 + 1 ≤ latency Config.env code State.reset := by
    refine Nat.add_le_add_left (?_ : 0 < _) 1
    simp only [List.mem_cons, List.not_mem_nil, or_false] at hc
    rcases hc with rfl | rfl | rfl | rfl | rfl | rfl | rfl | rfl
    all_goals first | exact Nat.lt_of_lt_of_le hx (Nat.le_add_right _ _) | exact Nat.lt_of_lt_of_le (hn _) (Nat.le_add_right _ _)
  have hl : latency Config.env code s = latency Config.env code State.reset := rfl
  refine ⟨rfl, rfl, busyOf_wf _ _ _ _, rfl, rfl, rfl, ?_, ?_⟩ <;>
    (simp only [List.mem_cons, List.not_mem_nil, or_false] at hk; omega)

theorem witness_NoInstructionChangesAnUnprimedArray :
    unprimed.regs.autoPrime = false ∧ unprimed.dev.wel = false ∧ unprimed.dev.busy = false ∧
      ∃ t, exec .readId unprimed = .next t := ⟨rfl, rfl, rfl, _, rfl⟩

theorem witness_HighLevelCommandsWhileSelectedAreIllegal :
    (openOf [0x05#8] []).sq.step = .idle ∧ (openOf [0x05#8] []).bus.csN = false ∧
      (∀ code ∈ [0x1#4, 0xC#4], 0x1#4 ≤ code ∧ code ≤ 0xC#4) ∧ ¬ 0x1#4 ≤ 0x0#4 ∧ ¬ 0xD#4 ≤ 0xC#4 :=
  ⟨rfl, rfl, by decide, by decide, by decide⟩

/-- The reserved code, CS_ASSERT, and CS_DEASSERT on a deselected chip. -/
theorem witness_TransportCommands : State.reset.sq.step = .idle ∧ State.reset.bus.csN = true := ⟨rfl, rfl⟩

theorem witness_CsDeassertEndsTheFrame_empty :
    (openOf [] []).sq.step = .idle ∧ (openOf [] []).bus.csN = false ∧ (openOf [] []).dev.rx = [] := ⟨rfl, rfl, rfl⟩

theorem witness_CsDeassertEndsTheFrame :
    let s := openOf [0x06#8] []
    s.sq.step = .idle ∧ s.bus.csN = false ∧ decodeFrame s.dev.rx = .ok .spiWren ∧
      ∃ u, exec .spiWren { s with
        dev := { elapseDev Config.env false 2 s.dev with rx := [] }
        bus := { s.bus with csN := true } } = .next u := ⟨rfl, rfl, rfl, _, rfl⟩

/-- Frames the device does not define, and one whose act it refuses (in an environment that has no such address). -/
theorem witness_CsDeassertEndsTheFrame_refused :
    (openOf [0x9F#8] []).sq.step = .idle ∧ (openOf [0x9F#8] []).bus.csN = false ∧ opOfByte 0x9F#8 = none ∧
      (openOf [0x03#8, 0x00#8] []).dev.rx = [0x03#8, 0x00#8] ∧ opOfByte 0x03#8 = some .read ∧
      [(0x00#8 : Byte)].length + 1 ≠ DevOp.read.length := ⟨rfl, rfl, rfl, rfl, rfl, by decide⟩

theorem witness_XferExchangesOneByte (n : Nat) :
    (openOf [0x05#8] []).sq.step = .idle ∧ Steady n (openOf [0x05#8] []) ∧ (openOf [0x05#8] []).bus.csN = false ∧
      ∃ b, response Config.env (openOf [0x05#8] []).dev = some b :=
  ⟨rfl, steady_of_idle _ rfl, rfl, _, rfl⟩

/-- XFER in an open frame while an operation is long due, and on a deselected chip with none. -/
theorem witness_XferExchangesOneByte_due (n : Nat) :
    let s := busyOf (.erase 0 1) (some 0) false []
    s.sq.step = .idle ∧ (s.bus.csN = true → Steady n s) ∧ s.dev.busy = true ∧ s.bus.csN = false ∧
      Steady n State.reset ∧ State.reset.bus.csN = true :=
  ⟨rfl, (fun h => nomatch h), rfl, rfl, steady_of_idle _ rfl, rfl⟩

/-- A state other than reset that meets the invariant: the device erases one byte, and IE is set. -/
def running : State :=
  { busyOf (.erase 0 1) none true [] with regs := { HostRegs.reset with ie := true } }

theorem witness_EveryStepKeepsTheInvariant : Inv running ∧ ∃ t, step running = .next t := by
  refine ⟨⟨reset_array_wf _, fun p hp => ?_, rfl, fun p hp => ?_, by decide, by decide, trivial⟩, _, rfl⟩
  · cases hp
  · cases hp
    exact flashSize_pos _

theorem witness_ClockEdgesReachTheTransaction : Ready State.reset := ⟨rfl, rfl⟩

theorem witness_CommandsTakeTheirLatency :
    State.reset.sq.step = .idle ∧ (∃ t, exec (decodeCode 0xC#4) State.reset = .next t) ∧
      (openOf [] []).bus.csN = false ∧ ∀ code ∈ [0x1#4, 0xC#4], 0x1#4 ≤ code ∧ code ≤ 0xC#4 :=
  ⟨rfl, ⟨_, rfl⟩, rfl, by decide⟩

theorem witness_HighLevelCommandsWhileSelectedAreIllegal_deselected :
    State.reset.bus.csN = true ∧ Instr.readId ≠ .csAssert ∧ ∃ t, exec .readId State.reset = .next t :=
  ⟨rfl, by decide, _, rfl⟩

theorem witness_InterruptFollowsCompletion :
    State.reset.sq.step = .idle ∧ ∃ t, exec (decodeCode 0x0#4) State.reset = .next t := ⟨rfl, _, rfl⟩

theorem witness_OkFromAProgramOrEraseMeansTheDeviceIsIdle :
    unprimed.sq.step = .idle ∧ unprimed.bus.csN = true ∧ 0x2#4 ≤ 0x3#4 ∧ 0x3#4 ≤ 0x6#4 ∧
      ∃ t, exec (decodeCode 0x3#4) unprimed = .next t ∧ t.regs.result = .ok := by
  refine ⟨rfl, rfl, by decide, by decide, _, rfl, ?_⟩
  show (if busyVerdict Config.env (srByte Config.env _) then Result.deviceBusy else .ok) = .ok
  rw [busyVerdict_srByte]
  rfl

theorem witness_ReadIdIsRepeatable :
    ∀ w ∈ [0x00#8, 0x01#8], ∃ s s' : State, s.sq.step = .idle ∧ s.bus.csN = true ∧ s.dev.busy = false ∧
      s'.sq.step = .idle ∧ s'.bus.csN = true ∧ s'.dev.busy = false ∧ s.regs.wdata = w ∧ s'.regs.wdata = w ∧ s ≠ s' ∧
      (∃ t, exec .readId s = .next t) ∧ ∃ t', exec .readId s' = .next t' := by
  intro w _
  refine ⟨{ State.reset with regs := { HostRegs.reset with wdata := w } },
    { unprimed with regs := { unprimed.regs with wdata := w } },
    rfl, rfl, rfl, rfl, rfl, rfl, rfl, rfl, fun h => ?_, ⟨_, rfl⟩, ⟨_, rfl⟩⟩
  have := congrArg (fun s : State => s.regs.autoPrime) h
  cases this

/-- The end of a run at reset, with idle cycles, a reset or a loss of power still to come. -/
theorem witness_RunsThatAreOverStayOver :
    ∀ p ∈ [[], [Cycle.idle], [Cycle.reset, Cycle.powerLoss]], RunOver (portOf p) := by
  intro p hp
  refine ⟨fun cy hc => ?_, rfl, rfl, rfl, rfl, rfl⟩
  simp only [List.mem_cons, List.not_mem_nil, or_false] at hp
  rcases hp with rfl | rfl | rfl <;> simp [portOf] at hc <;> aesop

theorem witness_MosiCarriesTheByteMostSignificantBitFirst : ∀ i ∈ [0, 7], i < 8 := by decide

end Sys2Proof.Tests
end

/-! # The clk edges of a command (00_scope R6)

`actions_run` covers the edges from the first action's start edge to the publish edge. What is left are the two edges
before: the accept edge, and the edge at which the first action starts or, with an empty list, the command publishes. -/

namespace Sys2Proof.Machine

variable {c : Env} {s : State}

/-- Every CODE is run as a command, with its own list of actions. -/
theorem exec_decodeCode (code : Code) (s : State) :
    exec (decodeCode code) s = runCommand Config.env code (commandSeq Config.env (decodeCode code)) s := by
  obtain ⟨n, hn⟩ := code
  interval_cases n <;> rfl

/-- A CMD write to an idle FCS is accepted (10_state R38). -/
theorem writeReg_cmd_idle (h : s.sq.step = .idle) (v : Word) :
    writeReg c 2#3 v s = accept (cmdCode v) (commandSeq c (decodeCmd v)) s := by
  have hb : s.busy = false := by simp [State.busy, h]
  simp [writeReg, hb]

/-- The accept edge: the write is the one thing the edge does but let time pass. -/
theorem clockEdge_cmdWrite (h : s.sq.step = .idle) (v : Word) (p : List Cycle) :
    clockEdge c { s with port := Cycle.write 2#3 v :: p } =
      .next (accept (cmdCode v) (commandSeq c (decodeCmd v))
        (elapse c 1 { s with port := p, hRdata := 0x00000000#32 })) := by
  have hb : ¬ s.busy = true := by simp [State.busy, h]
  rw [← writeReg_cmd_idle (s := elapse c 1 { s with port := p, hRdata := 0x00000000#32 }) h]
  exact if_neg hb

/-- An edge at which a busy FCS is left alone only lets its command go on. -/
theorem clockEdge_leftAlone (hb : s.busy = true) (hp : s.port = []) (hr : s.hRdata = 0x00000000#32) :
    clockEdge c s = progress c (elapse c 1 s) := by
  obtain ⟨regs, bus, sq, dev, port, hRdata, now, free⟩ := s
  subst hp hr
  exact if_pos hb

/-- The edge after accept: the first action starts there, and a command with none publishes (10_state R37). -/
theorem progress_accepted (code : Code) (seqOf : Latches → Bool → List Action) :
    progress c (accepted c code seqOf s) =
      .next (beginActions c (seqOf (latch code s) s.bus.csN) 0 (accepted c code seqOf s)) := by
  have hseq : (accepted c code seqOf s).sq.seq = seqOf (latch code s) s.bus.csN := rfl
  have hstep : (accepted c code seqOf s).sq.step =
      if (seqOf (latch code s) s.bus.csN).isEmpty then .fin else .run 0 := rfl
  have hph : (accepted c code seqOf s).sq.phase = .start := rfl
  unfold progress
  rw [hstep, hseq, hph]
  cases seqOf (latch code s) s.bus.csN <;> rfl

theorem accept_busy (code : Code) (seqOf : Latches → Bool → List Action) (s : State) :
    (accept code seqOf s).busy = true := by
  have hstep : (accept code seqOf s).sq.step =
      if (seqOf (latch code s) s.bus.csN).isEmpty then .fin else .run 0 := rfl
  rw [State.busy, hstep]
  split <;> rfl

/-- The edges of a command whose CMD write has been accepted, up to its publish edge. -/
theorem clockRun_accepted (hp : s.port = []) (hr : s.hRdata = 0x00000000#32) (hn : turnDue s = false) (code : Code)
    (seqOf : Latches → Bool → List Action) :
    clockRun c (seqCycles c (seqOf (latch code s) s.bus.csN) + 1) (accept code seqOf (elapse c 1 s)) =
      andThen (runActions c (seqOf (latch code s) s.bus.csN) (accepted c code seqOf s))
        (fun t => .next (publish c t)) := by
  have hturn : turnDue (accept code seqOf (elapse c 1 s)) = false := hn
  rw [clockRun, hturn, if_neg Bool.false_ne_true, andThen_of_next,
    clockEdge_leftAlone (accept_busy code seqOf (elapse c 1 s)) hp hr, elapse_accept, progress_accepted, andThen_of_next]
  exact actions_run _ 0 (accepted c code seqOf s) hp hr hn rfl

/-- Settles O53: after the accept edge, the edges up to publish are `clockRun_accepted`'s. -/
theorem clockEdgesReachTheTransaction : Obligations.ClockEdgesReachTheTransaction := by
  intro s v h
  have hturn : turnDue { s with port := [Cycle.write 2#3 v] } = false := h.noTurn
  have hidle : ({ s with port := [], hRdata := 0x00000000#32 } : State).sq.step = .idle := h.idle
  rw [Nat.add_comm, clockRun, hturn, if_neg Bool.false_ne_true, andThen_of_next, clockEdge_cmdWrite h.idle,
    andThen_of_next, decodeCmd, exec_decodeCode, runCommand_idle _ _ hidle, latency, Nat.add_comm]
  exact clockRun_accepted (s := { s with port := [], hRdata := 0x00000000#32 }) rfl rfl h.noTurn _ _

end Sys2Proof.Machine

/-! # Steps and clk edges (10_state R20, R21, R38)

What a step is, what a clk edge can leave, and what a host write does to each register word. -/

namespace Sys2Proof.Machine

variable {c : Env} {s t : State}

/-! ## Host writes, word by word (10_state R22 to R29) -/

/-- The register words a host write tells apart. -/
theorem regWord_cases : ∀ a : BitVec 3, a = 0#3 ∨ a = 1#3 ∨ a = 2#3 ∨ a = 3#3 ∨ a = 4#3 ∨ 5#3 ≤ a := by decide

theorem writeReg_ctrl (v : Word) : writeReg c 0#3 v s = writeCtrl v s := rfl
theorem writeReg_status (v : Word) : writeReg c 1#3 v s = writeStatus v s := rfl
theorem writeReg_addr (v : Word) : writeReg c 3#3 v s = writeAddr v s := rfl
theorem writeReg_wdata (v : Word) : writeReg c 4#3 v s = writeWdata v s := rfl

/-- RDATA and the unmapped words take no write (10_state R28, R29). -/
theorem writeReg_readOnly {a : BitVec 3} (h : 5#3 ≤ a) (v : Word) : writeReg c a v s = s := by
  have hne : ∀ b : BitVec 3, 5#3 ≤ b → b ≠ 0#3 ∧ b ≠ 1#3 ∧ b ≠ 2#3 ∧ b ≠ 3#3 ∧ b ≠ 4#3 := by decide
  obtain ⟨h0, h1, h2, h3, h4⟩ := hne a h
  simp [writeReg, h0, h1, h2, h3, h4]

/-- A CMD write to a busy FCS is an overrun (10_state R41). -/
theorem writeReg_cmd_busy (h : s.busy = true) (v : Word) : writeReg c 2#3 v s = overrun s := by
  simp [writeReg, h]

/-- A CMD write is dropped or accepted. -/
theorem writeReg_cmd (v : Word) :
    writeReg c 2#3 v s = overrun s ∨ writeReg c 2#3 v s = accept (cmdCode v) (commandSeq c (decodeCmd v)) s := by
  by_cases h : s.busy = true
  · exact .inl (writeReg_cmd_busy h v)
  · exact .inr (by simp [writeReg, h])

/-- What a host write leaves alone. -/
structure WriteKept (s t : State) : Prop where
  bus : t.bus = s.bus
  dev : t.dev = s.dev
  port : t.port = s.port
  hRdata : t.hRdata = s.hRdata

theorem writeReg_kept (a : BitVec 3) (v : Word) : WriteKept s (writeReg c a v s) := by
  rcases regWord_cases a with rfl | rfl | rfl | rfl | rfl | h
  · exact ⟨rfl, rfl, rfl, rfl⟩
  · exact ⟨rfl, rfl, rfl, rfl⟩
  · rcases writeReg_cmd (c := c) (s := s) v with h | h <;> rw [h] <;> exact ⟨rfl, rfl, rfl, rfl⟩
  · exact ⟨rfl, rfl, rfl, rfl⟩
  · exact ⟨rfl, rfl, rfl, rfl⟩
  · rw [writeReg_readOnly h]; exact ⟨rfl, rfl, rfl, rfl⟩

/-- Of all writes, only an accepted command changes the sequencer. -/
theorem writeReg_sq {a : BitVec 3} (h : s.busy = true ∨ a ≠ 2#3) (v : Word) : (writeReg c a v s).sq = s.sq := by
  rcases regWord_cases a with rfl | rfl | rfl | rfl | rfl | ha
  · rfl
  · rfl
  · rw [writeReg_cmd_busy (h.resolve_right (· rfl))]; rfl
  · rfl
  · rfl
  · rw [writeReg_readOnly ha]

@[simp] theorem portAccess_hRdata (acc : Access) : (portAccess c acc s).hRdata = readData acc s := by
  cases acc with
  | none => rfl
  | read a => rfl
  | write a v => exact (writeReg_kept a v).hRdata

@[simp] theorem portAccess_dev (acc : Access) : (portAccess c acc s).dev = s.dev := by
  cases acc with
  | none => rfl
  | read a => rfl
  | write a v => exact (writeReg_kept a v).dev

/-- No access stops a running command. -/
theorem portAccess_busy (h : s.busy = true) (acc : Access) : (portAccess c acc s).busy = true := by
  cases acc with
  | none => exact h
  | read a => exact h
  | write a v =>
    have hq := writeReg_sq (c := c) (s := { s with hRdata := 0x00000000#32 }) (a := a) (.inl h) v
    exact (congrArg (fun q : Sequencer => q.step != .idle) hq).trans h

/-- A running command keeps h_rdata. -/
theorem progress_hRdata (h : progress c s = .next t) (hb : s.busy = true) : t.hRdata = s.hRdata := by
  rcases progress_next h hb with ⟨u, hu, rfl⟩ | ⟨hd, -⟩
  · exact hu.hRdata
  · obtain ⟨-, -, hr, -⟩ := hd.fcs
    exact hr

/-! ## What a clk edge can leave -/

/-- The state at the coming edge before the host's access: its cycle is off the port, and one clk period has passed. -/
def atEdge (c : Env) (s : State) : State := elapse c 1 { s with port := s.port.tail }

/-- A clk edge is a loss of power, an edge of a running command, an idle edge, or a reset. -/
theorem clockEdge_next (h : clockEdge c s = .next t) :
    (s.port.headD Cycle.idle).power = true ∧ t = powerCycle c { s with port := s.port.tail } ∨
    s.busy = true ∧ progress c (portAccess c (s.port.headD Cycle.idle).acc (atEdge c s)) = .next t ∨
    s.busy = false ∧ t = portAccess c (s.port.headD Cycle.idle).acc (atEdge c s) ∨
    t = fcsReset (csRise c { atEdge c s with hRdata := readData (s.port.headD Cycle.idle).acc (atEdge c s) }) := by
  unfold clockEdge at h
  simp only at h
  split at h
  · rename_i hp
    cases h
    exact .inl ⟨hp, rfl⟩
  · split at h
    · split at h
      · rename_i hb
        exact .inr (.inl ⟨hb, h⟩)
      · rename_i hb
        cases h
        exact .inr (.inr (.inl ⟨by simpa using hb, rfl⟩))
    · split at h
      · cases h
      · cases h
        exact .inr (.inr (.inr rfl))

/-! ## What a step is -/

/-- Only an idle FCS fetches a command (10_state R38). -/
theorem fetchCode_idle {code : Code} (h : fetchCode s = some code) : s.sq.step = .idle := by
  by_contra hi
  simp [fetchCode, State.busy, hi] at h

theorem fetchCode_busy (h : s.busy = true) (p : List Cycle) : fetchCode { s with port := p } = none := if_pos h

/-- Without a command to fetch, a step is one clk edge. -/
theorem step_edge (hn : turnDue s = false) (hf : fetchCode s = none) : step s = clockEdge Config.env s := by
  rw [step, stepBy, hn, hf]
  rfl

/-- A fetched command that the host leaves alone is run whole; else its accept edge is a step (log entry 2). -/
theorem step_fetched {code : Code} (hn : turnDue s = false) (hf : fetchCode s = some code) :
    step s = if quiet s.port.tail (latency Config.env code s) = true then
        exec (decodeCode code)
          { s with port := s.port.tail.drop (latency Config.env code s), hRdata := 0x00000000#32 }
      else clockEdge Config.env s := by
  rw [step, stepBy, hn, hf]
  rfl

/-- What a step can be: the device's turn on an ended frame, a whole command of an idle FCS, or a clk edge. -/
theorem step_next (h : step s = .next t) :
    turnDue s = true ∧ deviceTurn Config.env s = .next t ∨
    (∃ code p, s.sq.step = .idle ∧ runCommand Config.env code (commandSeq Config.env (decodeCode code))
      { s with port := p, hRdata := 0x00000000#32 } = .next t) ∨
    clockEdge Config.env s = .next t := by
  by_cases hn : turnDue s = true
  · exact .inl ⟨hn, by rw [← step_of_turnDue hn]; exact h⟩
  · have hn : turnDue s = false := by simpa using hn
    cases hf : fetchCode s with
    | none =>
      rw [step_edge hn hf] at h
      exact .inr (.inr h)
    | some code =>
      rw [step_fetched hn hf] at h
      split at h
      · rw [exec_decodeCode] at h
        exact .inr (.inl ⟨code, _, fetchCode_idle hf, h⟩)
      · exact .inr (.inr h)

end Sys2Proof.Machine

/-! # The invariant (10_state R37, R45, 60_exceptions R251)

It has a device part, `DeviceLegal`, and an FCS part, `FcsLegal`. Each operation of a step keeps each part, and the step
is a device's turn, a whole command, or a clk edge. -/

namespace Sys2Proof.Machine

variable {c : Env} {s t : State}

/-- The FCS part of the invariant: it rests on the host registers and the sequencer alone. -/
structure FcsLegal (r : HostRegs) (q : Sequencer) : Prop where
  resultLegal : r.result.code ≤ 4#3
  seqLength : q.seq.length ≤ 5
  stepLegal : q.stepLegal

theorem inv_iff : Inv s ↔ DeviceLegal Config.env s.dev ∧ FcsLegal s.regs s.sq :=
  ⟨fun h => ⟨⟨⟨h.arrayWf, h.arrayInRange⟩, h.busyPending, h.pendingInRange⟩, ⟨h.resultLegal, h.seqLength, h.stepLegal⟩⟩,
    fun ⟨hd, hf⟩ => ⟨hd.wf, hd.inRange, hd.busyPending, hd.pendingInRange, hf.resultLegal, hf.seqLength, hf.stepLegal⟩⟩

/-! ## The device part -/

/-- A device that has just been powered up, with any legal array (70_reset R284). -/
theorem ArrayLegal.powerUp {m : List Host.Cell} (h : ArrayLegal c m) :
    DeviceLegal c { Device.powerUp c with array := m } :=
  ⟨h, rfl, fun _ hp => nomatch hp⟩

theorem DeviceLegal.csRise (h : DeviceLegal c s.dev) : DeviceLegal c (csRise c s).dev := by
  rw [csRise_dev]
  split
  · exact h.completeHeld
  · exact h

theorem DeviceLegal.deviceTurn (h : DeviceLegal c s.dev) (ht : deviceTurn c s = .next t) : DeviceLegal c t.dev := by
  obtain ⟨u, hu, rfl⟩ := deviceTurn_taken ht
  have hf : DeviceLegal c (takeFrame s).dev := h.congr rfl rfl rfl
  exact (hf.turn hu).completeHeld

theorem DeviceLegal.exchanged {a : Action} {j : Nat} {bs : List Byte} (h : DeviceLegal c s.dev)
    (hx : Exchanged c a j bs s t) : DeviceLegal c t.dev := by
  rw [hx.dev]
  exact h.congr rfl rfl rfl

/-- The end of a frame: the device's turn and the chip-select gap. -/
theorem DeviceLegal.turnAndGap (h : DeviceLegal c s.dev)
    (ht : andThen (Machine.deviceTurn c s) (fun u => .next (gapAfter c u)) = .next t) : DeviceLegal c t.dev := by
  obtain ⟨u, hu, hg⟩ := andThen_next ht
  cases hg
  exact (h.deviceTurn hu).elapseDev _ _

theorem DeviceLegal.runFrame {a : Action} (h : DeviceLegal c s.dev) (ht : runFrame c a s = .next t) :
    DeviceLegal c t.dev := by
  have hf : DeviceLegal c (csFall s).dev := h.congr rfl rfl rfl
  have hx := hf.exchanged (exchangeAll_exchanged a a.bytes 0 (csFall s))
  exact DeviceLegal.turnAndGap (DeviceLegal.csRise (hx.elapseDev _ _)) ht

theorem DeviceLegal.runAction {a : Action} (h : DeviceLegal c s.dev) (ht : runAction c a s = .next t) :
    DeviceLegal c t.dev := by
  cases a with
  | frame bs cap => exact h.runFrame ht
  | wait n => cases ht; exact h.elapseDev _ _
  | csLow => cases ht; exact h.congr rfl rfl rfl
  | csHigh => exact h.csRise.turnAndGap ht
  | xfer b => cases ht; exact (h.exchanged (exchangeAll_exchanged _ _ _ _)).elapseDev _ _
  | check => exact h.runFrame (a := .check) ht

theorem DeviceLegal.runActions {as : List Action} (h : DeviceLegal c s.dev) (ht : runActions c as s = .next t) :
    DeviceLegal c t.dev := by
  induction as generalizing s with
  | nil => cases ht; exact h
  | cons a as ih =>
    obtain ⟨u, hu, ht⟩ := andThen_next ht
    exact ih (h.runAction hu) ht

/-- An edge of a running command touches of the device what `EdgeDone.dev` says. -/
theorem DeviceLegal.edgeDone (h : DeviceLegal c s.dev) (hd : EdgeDone c s t) : DeviceLegal c t.dev := by
  rcases hd.dev with ⟨-, hd⟩ | ⟨-, -, hd⟩
  · rw [hd]; exact h.congr rfl rfl rfl
  · rw [hd]; exact h.completeHeld.congr rfl rfl rfl

/-! ## The FCS part -/

theorem FcsLegal.reset : FcsLegal HostRegs.reset Sequencer.reset := ⟨by decide, by decide, trivial⟩

/-- It rests on RESULT, the action list and the step state. -/
theorem FcsLegal.congr {r r' : HostRegs} {q q' : Sequencer} (h : FcsLegal r q) (hr : r'.result = r.result)
    (hq : q'.seq = q.seq) (hs : q'.step = q.step) : FcsLegal r' q' := by
  refine ⟨by rw [hr]; exact h.resultLegal, by rw [hq]; exact h.seqLength, ?_⟩
  have hl := h.stepLegal
  unfold Sequencer.stepLegal at hl ⊢
  rw [hs, hq]
  exact hl

theorem highLevel_length {n : Nat} (csN : Bool) {seq : List Action} (h : seq.length ≤ n) :
    (highLevel csN seq).length ≤ n := by
  unfold highLevel
  split
  · exact h
  · exact Nat.zero_le n

theorem primeWren_length (w : Latches) : (primeWren w).length ≤ 1 := by unfold primeWren; split <;> simp
theorem primeEwsr_length (w : Latches) : (primeEwsr w).length ≤ 1 := by unfold primeEwsr; split <;> simp

/-- A list with its prime has at most one action more. -/
theorem primed_length {n : Nat} (csN : Bool) {prime seq : List Action} (hp : prime.length ≤ 1) (h : seq.length ≤ n) :
    (highLevel csN (prime ++ seq)).length ≤ n + 1 :=
  highLevel_length csN (by rw [List.length_append]; omega)

/-- No command has more than five actions (10_state R35): a primed WRITE_BYTE has five. -/
theorem commandSeq_length (i : Instr) (w : Latches) (csN : Bool) : (commandSeq c i w csN).length ≤ 5 := by
  cases i with
  | writeByte | eraseChip | eraseSector | eraseBlock32 | eraseBlock64 =>
    exact primed_length csN (primeWren_length w) (by simp)
  | writeSr => exact primed_length csN (primeEwsr_length w) (by simp)
  | readByte | readSr | ewsr | wren | wrdi | readId => exact highLevel_length csN (by simp)
  | csAssert => cases csN <;> simp [commandSeq, seqCsAssert]
  | csDeassert => cases csN <;> simp [commandSeq, seqCsDeassert]
  | xfer => simp [commandSeq, seqXfer]
  | _ => exact Nat.zero_le 5

/-- A publish produces one of the five codes (60_exceptions R251). -/
theorem pubResult_legal (q : Sequencer) (r : PubRule) : (pubResult c q r).code ≤ 4#3 := by
  cases r with
  | okKeep | okCap | unknown | illegal => simp only [pubResult]; decide
  | erase => simp only [pubResult]; split <;> decide
  | verify =>
    simp only [pubResult]
    split
    · decide
    · split <;> decide

theorem FcsLegal.publish (h : s.sq.seq.length ≤ 5) : FcsLegal (publish c s).regs (publish c s).sq :=
  ⟨pubResult_legal _ _, h, trivial⟩

theorem FcsLegal.accept {code : Code} {seqOf : Latches → Bool → List Action} (h : s.regs.result.code ≤ 4#3)
    (hl : ∀ w csN, (seqOf w csN).length ≤ 5) :
    FcsLegal (Machine.accept code seqOf s).regs (Machine.accept code seqOf s).sq := by
  refine ⟨h, hl _ _, ?_⟩
  simp only [Sequencer.stepLegal, Machine.accept]
  cases seqOf (latch code s) s.bus.csN <;> simp

theorem FcsLegal.writeReg (h : FcsLegal s.regs s.sq) (a : BitVec 3) (v : Word) :
    FcsLegal (writeReg c a v s).regs (writeReg c a v s).sq := by
  rcases regWord_cases a with rfl | rfl | rfl | rfl | rfl | ha
  · exact h.congr rfl rfl rfl
  · exact h.congr rfl rfl rfl
  · rcases writeReg_cmd (c := c) (s := s) v with hw | hw <;> rw [hw]
    · exact h.congr rfl rfl rfl
    · exact FcsLegal.accept h.resultLegal (commandSeq_length _)
  · exact h.congr rfl rfl rfl
  · exact h.congr rfl rfl rfl
  · rw [writeReg_readOnly ha]; exact h

theorem FcsLegal.portAccess (h : FcsLegal s.regs s.sq) (acc : Access) :
    FcsLegal (portAccess c acc s).regs (portAccess c acc s).sq := by
  cases acc with
  | none => exact h
  | read a => exact h
  | write a v => exact FcsLegal.writeReg (s := { s with hRdata := 0x00000000#32 }) h a v

/-! ## Both parts -/

/-- An edge of a running command leaves it published, or at an action of its list. -/
theorem progress_legal (hd : DeviceLegal c s.dev) (hf : FcsLegal s.regs s.sq) (hb : s.busy = true)
    (h : progress c s = .next t) : DeviceLegal c t.dev ∧ FcsLegal t.regs t.sq := by
  rcases progress_next h hb with ⟨u, hu, rfl⟩ | ⟨he, k, hk, hlt⟩
  · exact ⟨hd.edgeDone (t := u) (.inl hu), FcsLegal.publish (by rw [hu.seq]; exact hf.seqLength)⟩
  · obtain ⟨hregs, -, -, -, hseq, -⟩ := he.fcs
    refine ⟨hd.edgeDone he, by rw [hregs]; exact hf.resultLegal, by rw [hseq]; exact hf.seqLength, ?_⟩
    simp only [Sequencer.stepLegal, hk]
    exact hlt

/-- A command run whole publishes, with the list of its code. -/
theorem runCommand_legal {code : Code} (hd : DeviceLegal c s.dev) (hi : s.sq.step = .idle)
    (h : runCommand c code (commandSeq c (decodeCode code)) s = .next t) :
    DeviceLegal c t.dev ∧ FcsLegal t.regs t.sq := by
  rw [runCommand_idle _ _ hi] at h
  obtain ⟨u, hu, hp⟩ := andThen_next h
  cases hp
  have ha : DeviceLegal c (accepted c code (commandSeq c (decodeCode code)) s).dev := hd.elapseDev _ _
  have hl : u.sq.seq.length ≤ 5 := by
    rw [(runActions_done hu).sq]
    exact commandSeq_length _ _ _
  exact ⟨ha.runActions (t := u) hu, FcsLegal.publish hl⟩

/-- The four kinds of clk edge. -/
theorem clockEdge_legal (hd : DeviceLegal c s.dev) (hf : FcsLegal s.regs s.sq) (h : clockEdge c s = .next t) :
    DeviceLegal c t.dev ∧ FcsLegal t.regs t.sq := by
  have hda : DeviceLegal c (atEdge c s).dev := hd.elapseDev _ _
  have hdp : ∀ acc, DeviceLegal c (portAccess c acc (atEdge c s)).dev := by
    intro acc; rw [portAccess_dev]; exact hda
  have hfp : ∀ acc, FcsLegal (portAccess c acc (atEdge c s)).regs (portAccess c acc (atEdge c s)).sq :=
    FcsLegal.portAccess (s := atEdge c s) hf
  rcases clockEdge_next h with ⟨-, rfl⟩ | ⟨hb, h⟩ | ⟨-, rfl⟩ | rfl
  · exact ⟨(hd.lostArray _ hd.pendingInRange).powerUp, .reset⟩
  · exact progress_legal (hdp _) (hfp _) (portAccess_busy (s := atEdge c s) hb _) h
  · exact ⟨hdp _, hfp _⟩
  · exact ⟨DeviceLegal.csRise (s := { atEdge c s with hRdata := _ }) hda, .reset⟩

/-- Settles O51: each kind of step keeps both parts. -/
theorem everyStepKeepsTheInvariant : Obligations.EveryStepKeepsTheInvariant := by
  intro s t hs h
  obtain ⟨hd, hf⟩ := inv_iff.1 hs
  rw [inv_iff]
  rcases step_next h with ⟨-, ht⟩ | ⟨code, p, hi, hr⟩ | he
  · obtain ⟨u, hu, rfl⟩ := deviceTurn_taken ht
    exact ⟨hd.deviceTurn ht, hf.congr (congrArg HostRegs.result hu.regs) (congrArg Sequencer.seq hu.sq)
      (congrArg Sequencer.step hu.sq)⟩
  · exact runCommand_legal (s := { s with port := p, hRdata := 0x00000000#32 }) hd hi hr
  · exact clockEdge_legal hd hf he

/-- Settles O52: at reset the array lists nothing, and nothing is pending. -/
theorem resetMeetsTheInvariant : Obligations.ResetMeetsTheInvariant :=
  inv_iff.2 ⟨ArrayLegal.powerUp ⟨reset_array_wf _, fun _ h => nomatch h⟩, .reset⟩

end Sys2Proof.Machine

/-! # The register port (10_state R20 to R29, R38 to R42)

Each host access is compared with an idle cycle in its place: what it changes at its edge is a `touch` of the host
registers and h_rdata, which a running command does not see (`progress_touch`). -/

namespace Sys2Proof.Machine

variable {s t : State}

/-! ## The step of a cycle with a host access -/

/-- The cycle with host access `acc`. -/
def accessCycle (acc : Access) : Cycle := { Cycle.idle with acc := acc }

/-- The state at the next edge, `p` being the cycles after it, when the host does nothing in this one. -/
def idleEdge (p : List Cycle) (s : State) : State :=
  elapse Config.env 1 { s with port := p, hRdata := 0x00000000#32 }

theorem fetchCode_access {acc : Access} (h : ∀ v, acc ≠ .write 2#3 v) (p : List Cycle) :
    fetchCode { s with port := accessCycle acc :: p } = none := by
  cases acc with
  | none => exact ite_self _
  | read a => exact ite_self _
  | write a v =>
    have ha : a ≠ 2#3 := fun ha => h v (by rw [ha])
    have hw : fetchCode { s with port := accessCycle (.write a v) :: p } =
      if s.busy then none else if a = 2#3 then some (cmdCode v) else none := rfl
    rw [hw, if_neg ha, ite_self]

theorem fetchCode_cmdWrite (hi : s.sq.step = .idle) (v : Word) (p : List Cycle) :
    fetchCode { s with port := Cycle.write 2#3 v :: p } = some (cmdCode v) := by
  have hb : ¬ s.busy = true := by simp [State.busy, hi]
  exact if_neg hb

/-- An access that fetches no command is applied at its edge, before a running command goes on. -/
theorem step_access {acc : Access} {p : List Cycle} (hn : turnDue s = false)
    (hf : fetchCode { s with port := accessCycle acc :: p } = none) :
    step { s with port := accessCycle acc :: p } =
      if s.busy then progress Config.env (portAccess Config.env acc (elapse Config.env 1 { s with port := p }))
      else .next (portAccess Config.env acc (elapse Config.env 1 { s with port := p })) :=
  step_edge (s := { s with port := accessCycle acc :: p }) hn hf

/-- The step of a cycle in which the host does nothing. -/
theorem step_idleCycle (hn : turnDue s = false) (p : List Cycle) :
    step { s with port := Cycle.idle :: p } =
      if s.busy then progress Config.env (idleEdge p s) else .next (idleEdge p s) :=
  step_access (acc := .none) hn (fetchCode_access (fun _ => Access.noConfusion) p)

/-- The step of a host write that fetches no command. -/
theorem step_write {a : BitVec 3} {v : Word} {p : List Cycle} (hn : turnDue s = false)
    (h : s.busy = true ∨ a ≠ 2#3) :
    step { s with port := Cycle.write a v :: p } =
      if s.busy then progress Config.env (writeReg Config.env a v (idleEdge p s))
      else .next (writeReg Config.env a v (idleEdge p s)) := by
  refine step_access (acc := .write a v) hn ?_
  rcases h with hb | ha
  · exact fetchCode_busy hb _
  · exact fetchCode_access (fun w hw => ha (by cases hw; rfl)) p

/-! ## h_rdata (10_state R21) -/

theorem readData_of_not_read {acc : Access} (h : ∀ a, acc ≠ .read a) (s : State) : readData acc s = 0x00000000#32 := by
  cases acc with
  | none => rfl
  | read a => exact absurd rfl (h a)
  | write a v => rfl

theorem runCommand_hRdata {c : Env} {code : Code} {seqOf : Latches → Bool → List Action} (hi : s.sq.step = .idle)
    (h : runCommand c code seqOf s = .next t) : t.hRdata = s.hRdata := by
  rw [runCommand_idle _ _ hi] at h
  obtain ⟨u, hu, hp⟩ := andThen_next h
  cases hp
  exact (runActions_done hu).hRdata

/-- Settles O8: a whole command starts with h_rdata = 0 and keeps it, and a clk edge puts on it what its access reads. -/
theorem readDataIsZeroWithoutARead : Obligations.ReadDataIsZeroWithoutARead := by
  intro s t hn hpw hr h
  rcases step_next h with ⟨ht, -⟩ | ⟨code, p, hi, hc⟩ | he
  · rw [hn] at ht; cases ht
  · exact runCommand_hRdata (s := { s with port := p, hRdata := 0x00000000#32 }) hi hc
  · rcases clockEdge_next he with ⟨hp, -⟩ | ⟨hb, hg⟩ | ⟨-, rfl⟩ | rfl
    · rw [hpw] at hp; cases hp
    · rw [progress_hRdata hg (portAccess_busy (s := atEdge Config.env s) hb _), portAccess_hRdata]
      exact readData_of_not_read hr _
    · rw [portAccess_hRdata]
      exact readData_of_not_read hr _
    · exact readData_of_not_read hr _

/-- The step of an idle cycle leaves h_rdata at 0. -/
theorem step_idleCycle_hRdata {p : List Cycle} (hn : turnDue s = false)
    (h : step { s with port := Cycle.idle :: p } = .next t) : t.hRdata = 0x00000000#32 :=
  readDataIsZeroWithoutARead { s with port := Cycle.idle :: p } t hn rfl (fun _ ha => nomatch ha) h

/-! ## An access and an idle cycle in its place -/

theorem andThen_congr {o : Host.Outcome State Fault Refusal} {f g : State → Host.Outcome State Fault Refusal}
    (h : ∀ t, o = .next t → f t = g t) : andThen o f = andThen o g := by
  cases o with
  | next t => exact h t rfl
  | fault r => rfl
  | refused r => rfl

/-- An access whose effect at its edge neither publish nor RDATA sees. -/
theorem step_touch {acc : Access} {p : List Cycle} {g : HostRegs → HostRegs} {x : Word} (hg : Unseen g)
    (hn : turnDue s = false) (hf : fetchCode { s with port := accessCycle acc :: p } = none)
    (ha : portAccess Config.env acc (elapse Config.env 1 { s with port := p }) = touch g x (idleEdge p s)) :
    step { s with port := accessCycle acc :: p } =
      andThen (step { s with port := Cycle.idle :: p }) (fun t => .next (touch g x t)) := by
  rw [step_access hn hf, step_idleCycle hn, ha]
  split
  · exact progress_touch hg x
  · rfl

/-- A host write to a busy FCS whose effect on the registers neither publish nor RDATA sees. -/
theorem step_write_unseen {a : BitVec 3} {v : Word} {g : HostRegs → HostRegs} (hg : Unseen g) (hn : turnDue s = false)
    (hb : s.busy = true) (p : List Cycle)
    (hw : writeReg Config.env a v (idleEdge p s) = { idleEdge p s with regs := g (idleEdge p s).regs }) :
    step { s with port := Cycle.write a v :: p } =
      andThen (step { s with port := Cycle.idle :: p }) (fun t => .next { t with regs := g t.regs }) := by
  have ht := step_touch (acc := .write a v) (p := p) (x := 0x00000000#32) hg hn (fetchCode_busy hb _) hw
  refine ht.trans (andThen_congr fun t h => ?_)
  rw [touch, step_idleCycle_hRdata hn h]

/-- Settles O12: an overrun is a change of registers that the running command does not see. -/
theorem cmdWriteWhileBusyOnlySetsOvr : Obligations.CmdWriteWhileBusyOnlySetsOvr := by
  intro s v p hn hb
  have hg : Unseen (fun r => { r with ovr := true }) := ⟨fun _ => rfl, fun _ _ _ => rfl⟩
  exact step_write_unseen hg hn hb p (writeReg_cmd_busy (s := idleEdge p s) hb v)

/-- Settles O13: CTRL, ADDR and WDATA are not seen by the running command, which works from its latches. -/
theorem operandWritesLeaveTheRunningCommandAlone : Obligations.OperandWritesLeaveTheRunningCommandAlone := by
  intro s v p hn hb
  refine ⟨?_, ?_, ?_, fun a ha => ?_⟩
  · have hg : Unseen (fun r => { r with autoPrime := v.getLsbD 0, ie := v.getLsbD 1 }) :=
      ⟨fun _ => rfl, fun _ _ _ => rfl⟩
    exact step_write_unseen hg hn hb p (writeReg_ctrl v)
  · have hg : Unseen (fun r => { r with addr := v.extractLsb' 0 24 }) := ⟨fun _ => rfl, fun _ _ _ => rfl⟩
    exact step_write_unseen hg hn hb p (writeReg_addr v)
  · have hg : Unseen (fun r => { r with wdata := v.extractLsb' 0 8 }) := ⟨fun _ => rfl, fun _ _ _ => rfl⟩
    exact step_write_unseen hg hn hb p (writeReg_wdata v)
  · rw [step_write hn (.inl hb), step_idleCycle hn, writeReg_readOnly ha]

/-! ## Writes to STATUS (10_state R42) -/

/-- What a STATUS write does to the registers where no publish falls at its edge. -/
def clearFlags (v : Word) (r : HostRegs) : HostRegs :=
  { r with done := r.done && !v.getLsbD 1, ovr := r.ovr && !v.getLsbD 2 }

theorem writeStatus_eq (v : Word) (s : State) : writeStatus v s = { s with regs := clearFlags v s.regs } := by
  unfold writeStatus clearFlags
  cases v.getLsbD 1 <;> cases v.getLsbD 2 <;> simp

/-- At a publish edge DONE is set whatever is written, and OVR is cleared. -/
theorem publish_clearFlags (c : Env) (v : Word) (x : Word) (s : State) :
    publish c (touch (clearFlags v) x s) =
      { publish c (touch id x s) with regs :=
        { (publish c (touch id x s)).regs with ovr := (publish c (touch id x s)).regs.ovr && !v.getLsbD 2 } } := rfl

/-- Settles O10: at an edge that does not publish a STATUS write is `clearFlags`; at a publish edge DONE is set after
it. -/
theorem statusWritesClearDoneAndOvr : Obligations.StatusWritesClearDoneAndOvr := by
  intro s v p hn
  have hw : writeReg Config.env 1#3 v (idleEdge p s) = touch (clearFlags v) 0x00000000#32 (idleEdge p s) :=
    writeStatus_eq v _
  have hid := step_idleCycle hn p
  rw [step_write hn (.inr (by decide)), hw]
  cases hb : s.busy with
  | false =>
    rw [hid, hb]
    simp [touch, clearFlags, idleEdge]
  | true =>
    rw [hb, if_pos rfl] at hid
    rw [if_pos rfl]
    rcases progress_touch_cases (c := Config.env) (s := idleEdge p s) hb with ⟨u, hu⟩ | ⟨hu, hrun⟩
    · have h0 : progress Config.env (idleEdge p s) = _ := hu id 0x00000000#32
      rw [hu, publish_clearFlags, hid, h0]
      simp [State.busy]
    · rw [hu, hid]
      refine andThen_congr fun t ht => ?_
      rw [← hid] at ht
      have hr := step_idleCycle_hRdata hn ht
      rw [hid] at ht
      simp [touch, clearFlags, hrun t ht, ← hr]

end Sys2Proof.Machine

/-! # Register words and the accept edge (10_state R22 to R29, R38, R47) -/

namespace Sys2Proof.Machine

variable {s t : State}

/-! ## What the register words read as -/

/-- A bit of a word with a flag appended at bit 0. -/
theorem getLsbD_append_flag {w : Nat} (x : BitVec w) (b : Bool) (i : Nat) :
    (x ++ BitVec.ofBool b).getLsbD i = if i = 0 then b else x.getLsbD (i - 1) :=
  BitVec.getLsbD_concat x b i

theorem ctrlWord_bit (s : State) (i : Nat) :
    (readReg 0#3 s).getLsbD i = if i = 0 then s.regs.autoPrime else if i = 1 then s.regs.ie else false := by
  have hw : readReg 0#3 s = 0#30 ++ BitVec.ofBool s.regs.ie ++ BitVec.ofBool s.regs.autoPrime := rfl
  rw [hw, getLsbD_append_flag, getLsbD_append_flag, BitVec.getLsbD_zero]
  match i with
  | 0 => rfl
  | 1 => rfl
  | i + 2 => rfl

/-- RESULT stands above the four flags and the four reserved bits of STATUS: here, without the flags. -/
theorem resultField_bit (r : BitVec 3) (i : Nat) :
    (0#21 ++ r ++ 0#4).getLsbD i = if 4 ≤ i ∧ i ≤ 6 then r.getLsbD (i - 4) else false := by
  simp only [BitVec.getLsbD_append, BitVec.getLsbD_zero]
  by_cases h4 : i < 4
  · simp [h4, show ¬ 4 ≤ i by omega]
  · by_cases h6 : i ≤ 6
    · simp [h4, h6, show 4 ≤ i by omega, show i - 4 < 3 by omega]
    · simp [h4, h6, show ¬ i - 4 < 3 by omega]

theorem statusWord_bit (s : State) (i : Nat) :
    (readReg 1#3 s).getLsbD i =
      if i = 0 then decide (s.sq.step ≠ .idle) else if i = 1 then s.regs.done else if i = 2 then s.regs.ovr
      else if i = 3 then !s.bus.csN
      else if 8 ≤ i ∧ i ≤ 10 then s.regs.result.code.getLsbD (i - 8)
      else false := by
  have hw : readReg 1#3 s = 0#21 ++ s.regs.result.code ++ 0#4 ++ BitVec.ofBool (!s.bus.csN) ++
      BitVec.ofBool s.regs.ovr ++ BitVec.ofBool s.regs.done ++ BitVec.ofBool s.busy := rfl
  have hb : s.busy = decide (s.sq.step ≠ .idle) := by
    unfold State.busy; cases s.sq.step <;> rfl
  rw [hw, getLsbD_append_flag, getLsbD_append_flag, getLsbD_append_flag, getLsbD_append_flag, resultField_bit, hb]
  match i with
  | 0 => rfl
  | 1 => rfl
  | 2 => rfl
  | 3 => rfl
  | i + 4 => simp

/-- A bit of a word of which the low `n` bits are kept. -/
theorem lowBits_bit (v : Word) (n : Nat) {i : Nat} (hi : i < 32) :
    (v &&& BitVec.ofNat 32 (2 ^ n - 1)).getLsbD i = (v.getLsbD i && decide (i < n)) := by
  rw [BitVec.getLsbD_and, BitVec.getLsbD_ofNat, Nat.testBit_two_pow_sub_one]
  simp [hi]

/-- A register that holds the low `n` bits written reads as those bits. -/
theorem lowBits_zeroExtend (v : Word) (n : Nat) :
    (v.extractLsb' 0 n).zeroExtend 32 = v &&& BitVec.ofNat 32 (2 ^ n - 1) := by
  apply BitVec.eq_of_getLsbD_eq
  intro i hi
  rw [lowBits_bit v n hi]
  simp [hi, Bool.and_comm]

theorem readReg_ctrl_of_bits {v : Word} (hp : s.regs.autoPrime = v.getLsbD 0) (he : s.regs.ie = v.getLsbD 1) :
    readReg 0#3 s = v &&& 0x00000003#32 := by
  apply BitVec.eq_of_getLsbD_eq
  intro i hi
  have hv : (v &&& 0x00000003#32).getLsbD i = (v.getLsbD i && decide (i < 2)) := lowBits_bit v 2 hi
  rw [hv, ctrlWord_bit, hp, he]
  by_cases h0 : i = 0
  · simp [h0]
  by_cases h1 : i = 1
  · simp [h1]
  simp [h0, h1, show ¬ i < 2 by omega]

/-- Settles O7: a read changes h_rdata alone, which no running command sees; the words are read off bit by bit. -/
theorem readsHaveNoSideEffect : Obligations.ReadsHaveNoSideEffect := by
  refine ⟨fun s a p hn => ?_, fun s i _ => ⟨ctrlWord_bit s i, statusWord_bit s i⟩, fun s => ⟨rfl, rfl, rfl, rfl, rfl, rfl⟩,
    rfl, rfl, rfl, rfl, rfl⟩
  have hg : Unseen (id : HostRegs → HostRegs) := ⟨fun _ => rfl, fun _ _ _ => rfl⟩
  exact step_touch (acc := .read a) (x := readReg a s) hg hn (fetchCode_access (fun _ => Access.noConfusion) p) rfl

/-- Settles O9: the step is the write at an idle edge, word by word. -/
theorem hostWritesSetTheirRegister : Obligations.HostWritesSetTheirRegister := by
  intro s a v p hr ha1 ha2 hp
  have hs : step s = .next (writeReg Config.env a v (idleEdge p s)) := by
    have hw := step_write (s := s) (v := v) (p := p) hr.noTurn (.inr ha2)
    rw [← hp] at hw
    exact hw.trans (if_neg (by simp [State.busy, hr.idle]))
  have hk := writeReg_kept (c := Config.env) (s := idleEdge p s) a v
  refine ⟨_, hs, ?_, ?_, ?_, ?_, hk.bus, writeReg_sq (.inr ha2) v, hk.dev, hk.port⟩
  · rintro rfl
    exact ⟨readReg_ctrl_of_bits rfl rfl, rfl⟩
  · rintro rfl
    exact ⟨lowBits_zeroExtend v 24, rfl⟩
  · rintro rfl
    exact ⟨lowBits_zeroExtend v 8, rfl⟩
  · intro ha
    rw [writeReg_readOnly ha]
    rfl

/-! ## CMD writes to an idle FCS (10_state R38) -/

/-- What the step does with a CMD write to a ready FCS. -/
theorem step_cmdWrite {v : Word} {p : List Cycle} (hr : Ready s) (hp : s.port = Cycle.write 2#3 v :: p) :
    step s = if quiet p (latency Config.env (cmdCode v) s) = true then
        exec (decodeCmd v) { s with port := p.drop (latency Config.env (cmdCode v) s), hRdata := 0x00000000#32 }
      else clockEdge Config.env s := by
  have hf : fetchCode s = some (cmdCode v) := by
    have hf := fetchCode_cmdWrite hr.idle v p
    rw [← hp] at hf
    exact hf
  have hs := step_fetched hr.noTurn hf
  rw [hp] at hs
  exact hs

/-- Settles O1: an undisturbed command is the first case of `step_cmdWrite`. -/
theorem stepRunsTheFetchedCommand : Obligations.StepRunsTheFetchedCommand := by
  intro s v p hr hp hq
  rw [step_cmdWrite hr hp, if_pos hq]

/-- Settles O11: a disturbed command is accepted by a clk edge of its own. -/
theorem cmdWriteIsAcceptedAtItsEdge : Obligations.CmdWriteIsAcceptedAtItsEdge := by
  intro s v p hr hp hq
  have he := clockEdge_cmdWrite (c := Config.env) hr.idle v p
  rw [← hp] at he
  have hs : step s = .next (accept (cmdCode v) (commandSeq Config.env (decodeCmd v)) (idleEdge p s)) := by
    rw [step_cmdWrite hr hp, hq]
    exact he
  refine ⟨_, hs, rfl, rfl, accept_busy _ _ _, rfl, ?_, rfl, rfl⟩
  simp only [accept, List.isEmpty_iff]

/-! ## Reset -/

/-- Settles O14: the reset values, field by field. -/
theorem resetStateIsTheSpecs : Obligations.ResetStateIsTheSpecs := by
  have hwords : ∀ a : BitVec 3, a ≠ 0#3 → readReg a State.reset = 0x00000000#32 := by decide
  exact ⟨rfl, rfl, rfl, rfl, rfl, rfl, rfl, rfl, rfl, hwords, rfl, rfl, rfl, rfl, rfl, rfl, rfl, rfl, fun _ => rfl,
    fun _ => rfl⟩

end Sys2Proof.Machine

/-! # What OK says about the device (20_memory R81)

A program or erase command publishes the busy verdict of its check frame. That frame finds the device as it stands, and
neither it nor the READ frame of WRITE_BYTE after it starts an operation, so that a verdict of "not busy" still holds at
publish. -/

namespace Sys2Proof.Machine

variable {c : Env} {s t : State}

/-- Where the check register holds the verdict "not busy", the device is idle. -/
def CheckedIdle (c : Env) (s : State) : Prop := busyVerdict c s.sq.chk = false → s.dev.busy = false

/-! ## The check frame and the READ frame -/

/-- Elapsing time starts no operation. -/
theorem elapseDev_busy_of_idle {v : Device} (csN : Bool) (n : Nat) (h : v.busy = false) :
    (elapseDev c csN n v).busy = false := by
  rw [elapseDev_idle csN n h]
  exact h

/-- The act on READ starts no operation (45_device R230). -/
theorem devRead_busy {a : Addr} (h : devRead c a s = .next t) : t.dev.busy = s.dev.busy := by
  unfold devRead addressed at h
  split at h
  · cases h
    unfold whenIdle
    split <;> rfl
  · split at h
    · cases h; rfl
    · cases h

/-- The check frame records whether the device is busy, and starts nothing (41_data R152, 45_device R222). -/
theorem checkedIdle_of_check (h : runAction c .check s = .next t) : CheckedIdle c t := by
  obtain ⟨u, hu, hr⟩ := runFrame_eq (c := c) (s := s) .check decode_rdsr
  have hchk : u.sq.chk = srByte c s.dev := hu.checked rfl 1 _ rfl (by decide) (response_rdsr _)
  have hub : u.dev.busy = s.dev.busy := by rw [hu.dev]
  cases hr.symm.trans h
  intro hv
  have hs : s.dev.busy = false := by
    rw [← busyVerdict_srByte c s.dev, ← hchk]
    exact hv
  exact elapseDev_busy_of_idle _ _ (hub.trans hs)

/-- A READ frame leaves the check register, and an idle device idle. -/
theorem CheckedIdle.readFrame {a : Addr} {cap : Option Nat} (hs : CheckedIdle c s)
    (h : runAction c (.frame (frameAR .read a) cap) s = .next t) : CheckedIdle c t := by
  obtain ⟨u, hu, hr⟩ := runFrame_eq (c := c) (s := s) (.frame (frameAR .read a) cap) (decode_read a)
  obtain ⟨w, hw, hg⟩ := andThen_next (hr.symm.trans h)
  cases hg
  have hchk : w.sq.chk = s.sq.chk := (congrArg Sequencer.chk (deviceAct_next hw).sq).trans (hu.chkKept rfl)
  have hbusy : w.dev.busy = s.dev.busy := (devRead_busy hw).trans (by rw [hu.dev])
  intro hv
  rw [gapAfter_sq, hchk] at hv
  exact elapseDev_busy_of_idle _ _ (hbusy.trans (hs hv))

/-! ## The list of a program or erase command -/

/-- A list of actions whose check comes last, or last but for a READ frame. -/
inductive EndsInCheck : List Action → Prop where
  | last (pre : List Action) : EndsInCheck (pre ++ [.check])
  | readBack (pre : List Action) (a : Addr) (cap : Option Nat) :
      EndsInCheck (pre ++ [.check, .frame (frameAR .read a) cap])

theorem runActions_append (as bs : List Action) (s : State) :
    runActions c (as ++ bs) s = andThen (runActions c as s) (runActions c bs) := by
  induction as generalizing s with
  | nil => rfl
  | cons a as ih =>
    simp only [List.cons_append, runActions, andThen_assoc]
    exact congrArg _ (funext ih)

/-- Such a list leaves a verdict that holds. -/
theorem EndsInCheck.checkedIdle {as : List Action} (ha : EndsInCheck as) (h : runActions c as s = .next t) :
    CheckedIdle c t := by
  cases ha with
  | last pre =>
    rw [runActions_append] at h
    obtain ⟨u, -, hu⟩ := andThen_next h
    obtain ⟨v, hv, ht⟩ := andThen_next hu
    cases ht
    exact checkedIdle_of_check hv
  | readBack pre a cap =>
    rw [runActions_append] at h
    obtain ⟨u, -, hu⟩ := andThen_next h
    obtain ⟨v, hv, hr⟩ := andThen_next hu
    obtain ⟨w, hw, ht⟩ := andThen_next hr
    cases ht
    exact (checkedIdle_of_check hv).readFrame hw

/-- The five program and erase codes (30_encoding R100). -/
theorem programOrErase_cases {code : Code} (h2 : 0x2#4 ≤ code) (h6 : code ≤ 0x6#4) :
    code = 0x2#4 ∨ code = 0x3#4 ∨ code = 0x4#4 ∨ code = 0x5#4 ∨ code = 0x6#4 := by
  revert code
  decide

theorem seqErase_endsInCheck (bs : List Byte) (n : Nat) (w : Latches) : EndsInCheck (seqErase bs n w true) := by
  have h : seqErase bs n w true = (primeWren w ++ [.frame bs none, .wait n]) ++ [.check] := by
    simp [seqErase, highLevel]
  exact h ▸ .last _

theorem seqWriteByte_endsInCheck (w : Latches) : EndsInCheck (seqWriteByte c w true) := by
  have h : seqWriteByte c w true = (primeWren w ++ [.frame (frameAW .program w.addr w.data) none, .wait (waitBP c)]) ++
      [.check, .frame (frameAR .read w.addr) (some 4)] := by simp [seqWriteByte, highLevel]
  exact h ▸ .readBack _ _ _

theorem commandSeq_endsInCheck {code : Code} (h2 : 0x2#4 ≤ code) (h6 : code ≤ 0x6#4) (w : Latches) :
    EndsInCheck (commandSeq c (decodeCode code) w true) := by
  rcases programOrErase_cases h2 h6 with rfl | rfl | rfl | rfl | rfl
  · exact seqWriteByte_endsInCheck w
  all_goals exact seqErase_endsInCheck _ _ w

/-! ## The publish -/

/-- A program or erase command publishes by its check, or ILLEGAL_STATE (60_exceptions R250, R255). -/
theorem pubRule_programOrErase {code : Code} (h2 : 0x2#4 ≤ code) (h6 : code ≤ 0x6#4) (seq : List Action) :
    pubRule (decodeCode code) seq = .illegal ∨ pubRule (decodeCode code) seq = .erase ∨
      pubRule (decodeCode code) seq = .verify := by
  have hrule : ∀ r, highLevelRule seq r = .illegal ∨ highLevelRule seq r = r := fun r => by
    unfold highLevelRule
    split
    · exact .inl rfl
    · exact .inr rfl
  rcases programOrErase_cases h2 h6 with rfl | rfl | rfl | rfl | rfl
  · exact (hrule .verify).imp_right .inr
  all_goals exact (hrule .erase).imp_right .inl

/-- Each of these rules gives OK only on the verdict "not busy" (60_exceptions R252). -/
theorem verdict_of_pubResult_ok {q : Sequencer} {r : PubRule} (hr : r = .illegal ∨ r = .erase ∨ r = .verify)
    (h : pubResult c q r = .ok) : busyVerdict c q.chk = false := by
  rw [← Bool.not_eq_true]
  intro hv
  rcases hr with rfl | rfl | rfl
  · cases h
  · simp [pubResult, hv] at h
  · simp [pubResult, hv] at h

/-- Settles O56: OK means that the check read "not busy", and the actions leave a verdict that holds. -/
theorem okFromAProgramOrEraseMeansTheDeviceIsIdle : Obligations.OkFromAProgramOrEraseMeansTheDeviceIsIdle := by
  intro s t code hidle hcs h2 h6 h hok
  rw [exec_decodeCode, runCommand_idle _ _ hidle] at h
  obtain ⟨m, hm, hp⟩ := andThen_next h
  cases hp
  have hresult := congrArg HostRegs.result (published_of_actions rfl hm rfl).regs
  have hverdict := verdict_of_pubResult_ok (pubRule_programOrErase h2 h6 _) (hresult.symm.trans hok)
  rw [hcs] at hm
  have hchecked : CheckedIdle Config.env m := (commandSeq_endsInCheck h2 h6 _).checkedIdle hm
  exact hchecked hverdict

end Sys2Proof.Machine

/-! # The two encodings (30_encoding R100, R103, R105, R111, R113)

Every instruction is the command of a CODE, or a device operation with as many bytes after its opcode as R111 gives it
(`instr_cases`). For either form one lemma gives the words it encodes to and one decodes them. A frame of neither kind is
refused. -/

namespace Sys2Proof.Machine

variable {c : Env} {s : State}

/-! ## Addresses and opcodes (30_encoding R102, R105) -/

theorem addrA2_addrOf (a2 a1 a0 : Byte) : addrA2 (addrOf a2 a1 a0) = a2 :=
  (BitVec.extractLsb'_append_eq_of_le (xhi := a2 ++ a1) (xlo := a0) (by decide)).trans BitVec.extractLsb'_append_eq_left

theorem addrA1_addrOf (a2 a1 a0 : Byte) : addrA1 (addrOf a2 a1 a0) = a1 :=
  (BitVec.extractLsb'_append_eq_of_le (xhi := a2 ++ a1) (xlo := a0) (by decide)).trans BitVec.extractLsb'_append_eq_right

theorem addrA0_addrOf (a2 a1 a0 : Byte) : addrA0 (addrOf a2 a1 a0) = a0 :=
  BitVec.extractLsb'_append_eq_right (a := a2 ++ a1)

/-- The frame with the address of three bytes carries those bytes. -/
theorem addrFrame_addrOf (o : DevOp) (a2 a1 a0 : Byte) (xs : List Byte) :
    addrFrame o (addrOf a2 a1 a0) xs = o.code :: a2 :: a1 :: a0 :: xs := by
  rw [addrFrame, addrA2_addrOf, addrA1_addrOf, addrA0_addrOf]

/-- The twelve opcodes are distinct: a byte names the operation it is the opcode of, and no other. -/
theorem opOfByte_eq_some_iff {b : Byte} {o : DevOp} : opOfByte b = some o ↔ b = o.code := by
  constructor
  · intro h
    have hcode : (o.code == b) = true := List.find?_some (p := fun o : DevOp => o.code == b) h
    exact (beq_iff_eq.mp hcode).symm
  · rintro rfl
    cases o <;> rfl

/-! ## Decoding a frame (30_encoding R103, R111, R113) -/

theorem decodeFrame_of_unknownOpcode {op : Byte} (xs : List Byte) (h : opOfByte op = none) :
    decodeFrame (op :: xs) = .error .unknownOpcode := by
  rw [decodeFrame, h]

theorem decodeFrame_of_wrongLength {op : Byte} {xs : List Byte} {o : DevOp} (h : opOfByte op = some o)
    (hl : xs.length + 1 ≠ o.length) : decodeFrame (op :: xs) = .error .wrongLength := by
  rw [decodeFrame, h]
  exact if_neg hl

theorem decodeFrame_code_cons {o : DevOp} {xs : List Byte} (hl : xs.length + 1 = o.length) :
    decodeFrame (o.code :: xs) = .ok (o.instr xs) := by
  rw [decodeFrame, opOfByte_eq_some_iff.mpr rfl]
  exact if_pos hl

/-- What a frame that decodes is: an opcode with bytes of its length. -/
theorem of_decodeFrame_eq_ok {bs : List Byte} {i : Instr} (h : decodeFrame bs = .ok i) :
    ∃ o xs, bs = DevOp.code o :: xs ∧ xs.length + 1 = o.length ∧ i = o.instr xs := by
  cases bs with
  | nil => cases h
  | cons op xs =>
    cases ho : opOfByte op with
    | none => cases (decodeFrame_of_unknownOpcode xs ho).symm.trans h
    | some o =>
      by_cases hl : xs.length + 1 = o.length
      · obtain rfl := opOfByte_eq_some_iff.mp ho
        cases (decodeFrame_code_cons hl).symm.trans h
        exact ⟨o, xs, rfl, hl, rfl⟩
      · cases (decodeFrame_of_wrongLength ho hl).symm.trans h

/-! ## Encoding the two forms of an instruction -/

/-- The command of a CODE encodes to the word that holds the CODE alone (R100). -/
theorem encode_decodeCode (code : Code) : encode (decodeCode code) = .cmdWord (code.zeroExtend 32) := by
  revert code
  decide

theorem cmdCode_zeroExtend (code : Code) : cmdCode (code.zeroExtend 32) = code := by
  revert code
  decide

/-- An operation with bytes of its length encodes to the frame of its opcode and those bytes (R103, R111). -/
theorem encode_instr : ∀ (o : DevOp) (xs : List Byte), xs.length + 1 = o.length →
    encode (o.instr xs) = .spiFrame (o.code :: xs)
  | .wren, [], _ | .wrdi, [], _ | .ewsr, [], _ | .chipErase, [], _ => rfl
  | .wrsr, [_], _ | .rdsr, [_], _ => rfl
  | .rdid, [_, _, _, _], _ => rfl
  | .read, [a2, a1, a0, dummy], _ => congrArg Encoding.spiFrame (addrFrame_addrOf .read a2 a1 a0 [dummy])
  | .program, [a2, a1, a0, d], _ => congrArg Encoding.spiFrame (addrFrame_addrOf .program a2 a1 a0 [d])
  | .sectorErase, [a2, a1, a0], _ => congrArg Encoding.spiFrame (addrFrame_addrOf .sectorErase a2 a1 a0 [])
  | .blockErase32, [a2, a1, a0], _ => congrArg Encoding.spiFrame (addrFrame_addrOf .blockErase32 a2 a1 a0 [])
  | .blockErase64, [a2, a1, a0], _ => congrArg Encoding.spiFrame (addrFrame_addrOf .blockErase64 a2 a1 a0 [])

/-- Every instruction is the command of a CODE, or an operation with bytes of its length. -/
theorem instr_cases (i : Instr) :
    (∃ code, i = decodeCode code) ∨ ∃ o xs, List.length xs + 1 = DevOp.length o ∧ i = o.instr xs :=
  match i with
  | .reserved => .inl ⟨0x0#4, rfl⟩
  | .readByte => .inl ⟨0x1#4, rfl⟩
  | .writeByte => .inl ⟨0x2#4, rfl⟩
  | .eraseChip => .inl ⟨0x3#4, rfl⟩
  | .eraseSector => .inl ⟨0x4#4, rfl⟩
  | .eraseBlock32 => .inl ⟨0x5#4, rfl⟩
  | .eraseBlock64 => .inl ⟨0x6#4, rfl⟩
  | .readSr => .inl ⟨0x7#4, rfl⟩
  | .writeSr => .inl ⟨0x8#4, rfl⟩
  | .ewsr => .inl ⟨0x9#4, rfl⟩
  | .wren => .inl ⟨0xA#4, rfl⟩
  | .wrdi => .inl ⟨0xB#4, rfl⟩
  | .readId => .inl ⟨0xC#4, rfl⟩
  | .csAssert => .inl ⟨0xD#4, rfl⟩
  | .csDeassert => .inl ⟨0xE#4, rfl⟩
  | .xfer => .inl ⟨0xF#4, rfl⟩
  | .spiRead a dummy =>
    .inr ⟨.read, [addrA2 a, addrA1 a, addrA0 a, dummy], rfl, congrArg (Instr.spiRead · dummy) (addrOf_bytes a).symm⟩
  | .spiProgram a d =>
    .inr ⟨.program, [addrA2 a, addrA1 a, addrA0 a, d], rfl, congrArg (Instr.spiProgram · d) (addrOf_bytes a).symm⟩
  | .spiWren => .inr ⟨.wren, [], rfl, rfl⟩
  | .spiWrdi => .inr ⟨.wrdi, [], rfl, rfl⟩
  | .spiEwsr => .inr ⟨.ewsr, [], rfl, rfl⟩
  | .spiWrsr d => .inr ⟨.wrsr, [d], rfl, rfl⟩
  | .spiRdsr dummy => .inr ⟨.rdsr, [dummy], rfl, rfl⟩
  | .spiRdid zero0 zero1 sel dummy => .inr ⟨.rdid, [zero0, zero1, sel, dummy], rfl, rfl⟩
  | .spiSectorErase a =>
    .inr ⟨.sectorErase, [addrA2 a, addrA1 a, addrA0 a], rfl, congrArg Instr.spiSectorErase (addrOf_bytes a).symm⟩
  | .spiBlockErase32 a =>
    .inr ⟨.blockErase32, [addrA2 a, addrA1 a, addrA0 a], rfl,
      congrArg Instr.spiBlockErase32 (addrOf_bytes a).symm⟩
  | .spiBlockErase64 a =>
    .inr ⟨.blockErase64, [addrA2 a, addrA1 a, addrA0 a], rfl,
      congrArg Instr.spiBlockErase64 (addrOf_bytes a).symm⟩
  | .spiChipErase => .inr ⟨.chipErase, [], rfl, rfl⟩

/-! ## Decode and encode -/

/-- Settles O5: each of the two forms decodes from the words it encodes to. -/
theorem decodeOfEncodeIsTheInstruction : Obligations.DecodeOfEncodeIsTheInstruction := by
  intro i
  obtain ⟨code, rfl⟩ | ⟨o, xs, hl, rfl⟩ := instr_cases i
  · rw [encode_decodeCode, decode, decodeCmd, cmdCode_zeroExtend]
  · rw [encode_instr o xs hl, decode, decodeFrame_code_cons hl]

/-- Settles O6: a frame that decodes is an opcode with bytes of its length, to which the instruction read encodes. -/
theorem encodeOfADecodedFrameIsTheFrame : Obligations.EncodeOfADecodedFrameIsTheFrame := by
  intro bs i h
  obtain ⟨o, xs, rfl, hl, rfl⟩ := of_decodeFrame_eq_ok h
  exact encode_instr o xs hl

/-- Settles O4: the decoder computes each of the spec's words. -/
theorem specWordsDecodeToTheirInstruction : Obligations.SpecWordsDecodeToTheirInstruction :=
  ⟨rfl, rfl, rfl, rfl, rfl, rfl, rfl, rfl, rfl, decodeFrame_of_wrongLength (o := .wren) rfl (by decide),
    decodeFrame_of_unknownOpcode [] rfl⟩

/-! ## Frames the device does not define (30_encoding R113) -/

/-- A frame whose own rule refuses it stops the device's turn. -/
theorem deviceTurn_of_frameRefused {r : Refusal} (h : frameRule (deviceAct c) s = .refused r) :
    deviceTurn c s = .refused r := by
  rw [deviceTurn, deviceTurnBy, h, andThen_of_refused]

theorem deviceTurn_of_unknownOpcode {op : Byte} {xs : List Byte} (hrx : s.dev.rx = op :: xs) (h : opOfByte op = none) :
    deviceTurn c s = .refused .unknownOpcode := by
  refine deviceTurn_of_frameRefused ?_
  rw [frameRule, hrx, decodeFrame_of_unknownOpcode xs h]

theorem deviceTurn_of_wrongLength {op : Byte} {xs : List Byte} {o : DevOp} (hrx : s.dev.rx = op :: xs)
    (h : opOfByte op = some o) (hl : xs.length + 1 ≠ o.length) : deviceTurn c s = .refused .wrongLength := by
  refine deviceTurn_of_frameRefused ?_
  rw [frameRule, hrx, decodeFrame_of_wrongLength h hl]

/-- Settles O3: an ended frame is the device's turn, which refuses it. -/
theorem undefinedFramesAreRefused : Obligations.UndefinedFramesAreRefused := by
  intro s op xs hcs hrx
  have hturn : turnDue s = true := by simp [turnDue, hcs, hrx]
  rw [step_of_turnDue hturn]
  exact ⟨deviceTurn_of_unknownOpcode hrx, fun _ => deviceTurn_of_wrongLength hrx⟩

end Sys2Proof.Machine

/-! # The transport commands (40_transport R137 to R139)

Each has at most one action, so that the command is that action between accept and publish. CS_ASSERT's is the falling
edge of cs_n, CS_DEASSERT's ends in the device's act on the open frame, and XFER's is one exchange. -/

namespace Sys2Proof.Machine

variable {c : Env} {s : State}

/-! ## A command and its actions -/

/-- A command of an idle FCS, its list of actions given: accept, the actions, publish. -/
theorem exec_actions (code : Code) {as : List Action} (hidle : s.sq.step = .idle)
    (has : commandSeq Config.env (decodeCode code) (latch code s) s.bus.csN = as) :
    exec (decodeCode code) s =
      andThen (runActions Config.env as (accepted Config.env code (commandSeq Config.env (decodeCode code)) s))
        (fun m => .next (publish Config.env m)) := by
  rw [exec_decodeCode, runCommand_idle _ _ hidle, has]

/-- It publishes what the actions have left, by its publish rule. -/
theorem exec_published (code : Code) {as : List Action} {m : State} (hidle : s.sq.step = .idle)
    (has : commandSeq Config.env (decodeCode code) (latch code s) s.bus.csN = as)
    (hm : runActions Config.env as (accepted Config.env code (commandSeq Config.env (decodeCode code)) s) = .next m) :
    exec (decodeCode code) s = .next (publish Config.env m) ∧
      Published code (pubResult Config.env m.sq (pubRule (decodeCode code) as))
        (pubRdata m.sq s.regs.rdata (pubRule (decodeCode code) as)) s (publish Config.env m) := by
  refine ⟨by rw [exec_actions code hidle has, hm, andThen_of_next], ?_⟩
  subst has
  exact published_of_actions rfl hm rfl

/-- The device at the start edge of the first action, the level of cs_n given. -/
theorem accepted_dev {b : Bool} (hcs : s.bus.csN = b) (code : Code) (q : Latches → Bool → List Action) :
    (accepted c code q s).dev = elapseDev c b 2 s.dev := by
  subst hcs
  rfl

theorem runActions_singleton (a : Action) (s : State) : runActions c [a] s = runAction c a s := by
  rw [runActions]
  cases runAction c a s <;> rfl

/-! ## CS_ASSERT (40_transport R137) -/

/-- Settles O48: on a deselected chip the one action is the falling edge of cs_n, on a selected one there is none. -/
theorem csAssertSelectsTheChip : Obligations.CsAssertSelectsTheChip := by
  intro s hidle
  cases hcs : s.bus.csN with
  | true =>
    have has : seqCsAssert (latch 0xD#4 s) s.bus.csN = [.csLow] := by rw [hcs]; rfl
    obtain ⟨hexec, hpub⟩ := exec_published 0xD#4 hidle has rfl
    exact ⟨_, hexec, hpub, rfl, ⟨⟨rfl, rfl⟩, rfl⟩, rfl, rfl,
      congrArg (fun v : Device => { v with rx := [] }) (accepted_dev hcs 0xD#4 seqCsAssert)⟩
  | false =>
    have has : seqCsAssert (latch 0xD#4 s) s.bus.csN = [] := by rw [hcs]; rfl
    obtain ⟨hexec, hpub⟩ := exec_published 0xD#4 hidle has rfl
    exact ⟨_, hexec, hpub, rfl, ⟨⟨rfl, rfl⟩, rfl⟩, by rw [← hcs]; rfl, congrArg not hcs,
      accepted_dev hcs 0xD#4 seqCsAssert⟩

/-! ## CS_DEASSERT (40_transport R138, 45_device R221) -/

/-- A frame with an address answers a next state, or refuses an address the device does not have (45_device R220). -/
theorem addressed_next_or_refused (a : Addr) (f : Nat → State → State) (s : State) :
    (∃ t, addressed c a f s = .next t) ∨ addressed c a f s = .refused .addressOutOfRange := by
  unfold addressed
  split
  · exact .inl ⟨_, rfl⟩
  · split
    · exact .inl ⟨_, rfl⟩
    · exact .inr rfl

/-- And so does the act on any decoded frame: the frames without an address always answer a next state. -/
theorem deviceAct_next_or_refused {bs : List Byte} {i : Instr} (hi : decodeFrame bs = .ok i) (s : State) :
    (∃ t, deviceAct c i s = .next t) ∨ deviceAct c i s = .refused .addressOutOfRange := by
  obtain ⟨o, xs, -, -, rfl⟩ := of_decodeFrame_eq_ok hi
  cases o with
  | read | program | sectorErase | blockErase32 | blockErase64 => exact addressed_next_or_refused _ _ s
  | wren | wrdi | ewsr | wrsr | rdsr | rdid | chipErase => exact .inl ⟨_, rfl⟩

/-- A refusal of the act, too, depends on the device and the free values alone. -/
theorem deviceAct_refused_local {bs : List Byte} {i : Instr} {r : Refusal} {s' : State} (hi : decodeFrame bs = .ok i)
    (h : deviceAct c i s = .refused r) (hd : s'.dev = s.dev) (hf : s'.free = s.free) :
    deviceAct c i s' = .refused r := by
  rcases deviceAct_next_or_refused (c := c) hi s' with ⟨t, ht⟩ | hr'
  · cases h.symm.trans (deviceAct_local ht hd.symm hf.symm)
  · rcases deviceAct_next_or_refused (c := c) hi s with ⟨t, ht⟩ | hr
    · cases h.symm.trans ht
    · cases h.symm.trans hr
      exact hr'

/-- CsHighA on an open frame of no bytes: cs_n rises, without effect (45_device R234). -/
theorem csHigh_of_noBytes (hrx : s.dev.rx = []) :
    runAction c .csHigh s = .next (gapAfter c (takeFrame { s with bus := { s.bus with csN := true } })) := by
  rw [runAction, csRise_gap, frameRule, hrx]
  rfl

/-- CsHighA on an open frame that decodes: cs_n rises and the device acts on the frame. -/
theorem csHigh_of_decoded {i : Instr} (hi : decodeFrame s.dev.rx = .ok i) :
    runAction c .csHigh s =
      andThen (deviceAct c i (takeFrame { s with bus := { s.bus with csN := true } }))
        (fun t => .next (gapAfter c t)) := by
  rw [runAction, csRise_gap, frameRule, hi]

/-- The act reads the device and the free values alone, so that it does what it does in any state with the same ones. -/
theorem csHigh_of_acted {i : Instr} {v u : State} (hi : decodeFrame s.dev.rx = .ok i) (h : deviceAct c i v = .next u)
    (hd : v.dev = { s.dev with rx := [] }) (hf : v.free = s.free) :
    runAction c .csHigh s =
      .next (gapAfter c { s with bus := { s.bus with csN := true }, dev := u.dev, free := u.free }) :=
  (csHigh_of_decoded hi).trans (congrArg (andThen · _)
    (deviceAct_local (s' := takeFrame { s with bus := { s.bus with csN := true } }) h hd.symm hf.symm))

/-- The same where the act refuses the frame (30_encoding R113, 45_device R220). -/
theorem csHigh_of_actRefused {i : Instr} {v : State} {r : Refusal} (hi : decodeFrame s.dev.rx = .ok i)
    (h : deviceAct c i v = .refused r) (hd : v.dev = { s.dev with rx := [] }) (hf : v.free = s.free) :
    runAction c .csHigh s = .refused r :=
  (csHigh_of_decoded hi).trans (congrArg (andThen · _)
    (deviceAct_refused_local (s' := takeFrame { s with bus := { s.bus with csN := true } }) hi h hd.symm hf.symm))

theorem csHigh_of_turnRefused {r : Refusal} (h : deviceTurn c (csRise c s) = .refused r) :
    runAction c .csHigh s = .refused r := by
  rw [runAction, h, andThen_of_refused]

theorem seqCsDeassert_selected (hcs : s.bus.csN = false) : seqCsDeassert (latch 0xE#4 s) s.bus.csN = [.csHigh] := by
  rw [hcs]
  rfl

/-- CS_DEASSERT on a selected chip is CsHighA: where that is refused, so is the command. -/
theorem exec_csDeassert_of_refused {r : Refusal} (hidle : s.sq.step = .idle) (hcs : s.bus.csN = false)
    (h : runAction Config.env .csHigh (accepted Config.env 0xE#4 seqCsDeassert s) = .refused r) :
    exec .csDeassert s = .refused r := by
  refine (exec_actions 0xE#4 hidle (seqCsDeassert_selected hcs)).trans ?_
  rw [runActions_singleton]
  exact congrArg (andThen · _) h

/-- Where CsHighA leaves `m`, the command publishes OK. -/
theorem exec_csDeassert_of_next {m : State} (hidle : s.sq.step = .idle) (hcs : s.bus.csN = false)
    (h : runAction Config.env .csHigh (accepted Config.env 0xE#4 seqCsDeassert s) = .next m) :
    exec .csDeassert s = .next (publish Config.env m) ∧
      Published 0xE#4 .ok s.regs.rdata s (publish Config.env m) :=
  exec_published 0xE#4 hidle (seqCsDeassert_selected hcs) ((runActions_singleton _ _).trans h)

/-- Settles O49: the one action of CS_DEASSERT on a selected chip raises cs_n, and the device acts on the open frame as
it does in the statement's state. -/
theorem csDeassertEndsTheFrame : Obligations.CsDeassertEndsTheFrame := by
  intro s hidle
  have hdev : ∀ {b}, s.bus.csN = b →
      (accepted Config.env 0xE#4 seqCsDeassert s).dev = elapseDev Config.env b 2 s.dev :=
    fun hcs => accepted_dev hcs 0xE#4 seqCsDeassert
  have htaken : s.bus.csN = false → ({ elapseDev Config.env false 2 s.dev with rx := [] } : Device) =
      { (accepted Config.env 0xE#4 seqCsDeassert s).dev with rx := [] } := fun hcs => by rw [hdev hcs]
  refine ⟨fun hcs => ?_, fun hcs hrx => ?_, fun i u hcs hi hu => ?_, fun i r hcs hi hr => ?_,
    fun op xs hcs hrx => ?_⟩
  · have has : seqCsDeassert (latch 0xE#4 s) s.bus.csN = [] := by rw [hcs]; rfl
    obtain ⟨hexec, hpub⟩ := exec_published 0xE#4 hidle has rfl
    exact ⟨_, hexec, hpub, ⟨⟨rfl, rfl⟩, rfl⟩, rfl, hdev hcs⟩
  · obtain ⟨hexec, hpub⟩ := exec_csDeassert_of_next hidle hcs (csHigh_of_noBytes hrx)
    have hempty : ({ elapseDev Config.env false 2 s.dev with rx := [] } : Device) =
        elapseDev Config.env false 2 s.dev := by
      rw [← hrx]
      rfl
    refine ⟨_, hexec, hpub, ⟨⟨rfl, rfl⟩, rfl⟩, rfl, rfl, ?_⟩
    rw [publish_dev, gapAfter_dev, takeFrame_dev, hdev hcs, hempty]
    rfl
  · obtain ⟨hexec, hpub⟩ := exec_csDeassert_of_next hidle hcs
      (csHigh_of_acted hi ((exec_of_frame hi).symm.trans hu) (htaken hcs) rfl)
    exact ⟨_, hexec, hpub, ⟨⟨rfl, rfl⟩, rfl⟩, rfl, rfl⟩
  · exact exec_csDeassert_of_refused hidle hcs
      (csHigh_of_actRefused hi ((exec_of_frame hi).symm.trans hr) (htaken hcs) rfl)
  · have hrise : (csRise Config.env (accepted Config.env 0xE#4 seqCsDeassert s)).dev.rx = op :: xs :=
      csRise_rx.trans hrx
    exact ⟨fun ho => exec_csDeassert_of_refused hidle hcs
        (csHigh_of_turnRefused (deviceTurn_of_unknownOpcode hrise ho)),
      fun o ho hl => exec_csDeassert_of_refused hidle hcs
        (csHigh_of_turnRefused (deviceTurn_of_wrongLength hrise ho hl))⟩

/-! ## XFER (40_transport R139) -/

/-- Within a frame no operation completes, and with cs_n = 1 none does by hypothesis: only the countdown moves
(45_device R232). -/
theorem elapseDev_of_steady {n : Nat} (h : s.bus.csN = true → Steady n s) :
    elapseDev c s.bus.csN n s.dev = { s.dev with left := s.dev.left.map (fun k => k - n) } := by
  cases hcs : s.bus.csN with
  | true => exact elapseDev_steady true n (h hcs)
  | false => exact elapseDev_selected n

/-- XferA is its one exchange, whose time may as well pass before it. -/
theorem runActions_xfer (b : Byte) (s : State) :
    runActions c [.xfer b] s =
      .next (storeByte (.xfer b) 0 (exchange c b (elapse c (exchangeCycles c) s))) := by
  rw [runActions_singleton, runAction, elapse_exchangeAll]
  rfl

@[simp] theorem exchange_rxSh (c : Env) (b : Byte) (s : State) :
    (exchange c b s).bus.rxSh = (answer c s).dev.out := by simp [exchange]
@[simp] theorem exchange_sck (c : Env) (b : Byte) (s : State) : (exchange c b s).bus.sck = false := by simp [exchange]

/-- XferA captures the byte received, which stands on the receive side of the transport (10_state R32), with SCK low. -/
theorem xfer_lines (b : Byte) (s : State) :
    let t := storeByte (.xfer b) 0 (exchange c b s)
    t.bus.rxHold = t.sq.cap ∧ t.bus.rxSh = t.sq.cap ∧ t.bus.sck = false := by
  have hcap : (storeByte (.xfer b) 0 (exchange c b s)).sq.cap = (exchange c b s).bus.rxHold := rfl
  simp [hcap]

/-- A device of which only the countdown and the bytes of exchange have changed. -/
theorem devKept_of_dev {t : State} {rx : List Byte} {l : Option Nat} {o h : Byte}
    (hd : t.dev = { s.dev with rx := rx, left := l, out := o, sh := h }) :
    DevKept s t ∧ t.dev.ewsrArmed = s.dev.ewsrArmed := by
  refine ⟨⟨⟨?_, ?_, ?_, ?_⟩, ?_⟩, ?_⟩ <;> rw [hd]

/-- Settles O50: the exchange finds the device with nothing but its countdown moved, and leaves the rest of it but for
the bytes of the exchange. -/
theorem xferExchangesOneByte : Obligations.XferExchangesOneByte := by
  intro s hidle hsteady
  obtain ⟨hexec, hpub⟩ := exec_published 0xF#4 hidle rfl (runActions_xfer s.regs.wdata _)
  generalize hu : elapse Config.env (exchangeCycles Config.env) _ = u at hexec hpub
  have hbus : u.bus = s.bus := hu ▸ rfl
  have hchk : u.sq.chk = s.sq.chk := hu ▸ rfl
  have hwait : u.sq.waitCtr = s.sq.waitCtr := hu ▸ rfl
  have hdev : u.dev = { s.dev with left := s.dev.left.map (fun k => k - (2 + exchangeCycles Config.env)) } := by
    have hedges : 1 + latency Config.env 0xF#4 s = 2 + exchangeCycles Config.env := by
      have hlatency : latency Config.env 0xF#4 s = 1 + exchangeCycles Config.env := rfl
      omega
    rw [← hu]
    exact (elapseDev_add _ _ _).trans (elapseDev_of_steady (hedges ▸ hsteady))
  obtain ⟨hhold, hsh, hsck⟩ := xfer_lines (c := Config.env) s.regs.wdata u
  have hx := exchange_step (c := Config.env) (s := u) (.xfer s.regs.wdata) 0 s.regs.wdata
  generalize storeByte (.xfer s.regs.wdata) 0 (exchange Config.env s.regs.wdata u) = m at hexec hpub hhold hsh hsck hx
  obtain ⟨hkept, harmed⟩ := devKept_of_dev (s := s) (t := publish Config.env m) (hdev ▸ hx.dev)
  refine ⟨_, m.sq.cap, hexec, hpub, ⟨(hx.chkKept nofun).trans hchk,
    (congrArg Sequencer.waitCtr hx.sq).trans hwait⟩,
    hkept, harmed, hx.csN.trans (congrArg Bus.csN hbus), hhold, hsh, hsck, ?_, fun b hcs hb => ?_⟩
  · rw [publish_dev, hx.rx, hbus, hdev]
  · refine hx.captured ((congrArg Bus.csN hbus).trans hcs) 0 b rfl (Nat.le_refl 0) Nat.one_pos ?_
    rw [hdev, List.take_zero, List.append_nil]
    exact hb

/-! ## The bits on MOSI (40_transport R131) -/

/-- tx_sh after the start of a byte's exchange and `i` further bits, and MOSI as its top bit. -/
theorem nextBit_iterate_startByte (c : Env) (b : Byte) (s : State) (i : Nat) :
    (nextBit^[i] (startByte c b s)).bus.txSh = b <<< i ∧
    (nextBit^[i] (startByte c b s)).bus.mosi = (b <<< i).getLsbD 7 ∧
    (nextBit^[i] (startByte c b s)).bus.sck = false ∧
    (nextBit^[i] (startByte c b s)).bus.bitCtr = 7#3 - BitVec.ofNat 3 i := by
  induction i with
  | zero => exact ⟨(BitVec.shiftLeft_zero b).symm, by rw [BitVec.shiftLeft_zero]; rfl, rfl, rfl⟩
  | succ i ih =>
    obtain ⟨htx, -, -, hctr⟩ := ih
    have hshift : (nextBit^[i] (startByte c b s)).bus.txSh <<< 1 = b <<< (i + 1) := by
      rw [htx, BitVec.shiftLeft_add]
    rw [Function.iterate_succ_apply']
    refine ⟨hshift, congrArg (fun x : Byte => x.getLsbD 7) hshift, rfl, ?_⟩
    have hsucc : BitVec.ofNat 3 (i + 1) = BitVec.ofNat 3 i + 1#3 := BitVec.ofNat_add i 1
    rw [hsucc, ← BitVec.sub_sub, ← hctr]
    rfl

/-- Settles O59: the top bit of the byte shifted left by `i` is its bit 7 - i. -/
theorem mosiCarriesTheByteMostSignificantBitFirst : Obligations.MosiCarriesTheByteMostSignificantBitFirst := by
  intro c b s i hi
  obtain ⟨-, hmosi, hsck, hctr⟩ := nextBit_iterate_startByte c b s i
  have hbit : (b <<< i).getLsbD 7 = b.getLsbD (7 - i) := by
    have h7 : ¬ 7 < i := by omega
    rw [BitVec.getLsbD_shiftLeft]
    simp only [h7, decide_false, Bool.not_false, Bool.and_true]
    rfl
  have hcount : 7#3 - BitVec.ofNat 3 i = BitVec.ofNat 3 (7 - i) := by
    interval_cases i <;> rfl
  exact ⟨hmosi.trans hbit, hsck, hctr.trans hcount⟩

end Sys2Proof.Machine

/-! # A command and the device it runs on (40_transport R134, R135, 45_device R221, R232, R233)

What a command's actions leave is said through the device each of them finds, `DeviceIs`. An idle device waits through
whatever time passes; on a busy one an operation ends at its time, or, where a frame is open then, by the end of the
frame's chip-select gap (`elapseDev_selected_gap`). -/

namespace Sys2Proof.Machine

variable {c : Env} {s t u w : State} {a : Action} {i : Instr} {v v' x : Device}

/-! ## Time and the device -/

/-- An operation that falls due in an open frame has completed by the end of the chip-select gap, as one that falls due
with cs_n = 1. -/
theorem elapseDev_selected_gap (n : Nat) {m : Nat} (hm : 0 < m) :
    elapseDev c true m (elapseDev c false n v) = elapseDev c true (n + m) v := by
  have hdue : completionDue true m (elapseDev c false n v) = completionDue true (n + m) v := by
    rw [elapseDev_selected]
    cases hl : v.left with
    | none => simp [completionDue, hl]
    | some k =>
      have hk : k - n ≤ m ↔ k ≤ n + m := by omega
      simp [completionDue, hl, hm, hk]
  cases h : completionDue true (n + m) v with
  | true =>
    rw [elapseDev_of_due (hdue.trans h), elapseDev_of_due h, elapseDev_selected]
    rfl
  | false =>
    rw [elapseDev_of_not_due (hdue.trans h), elapseDev_of_not_due h, elapseDev_selected]
    simp [Option.map_map, Function.comp_def, Nat.sub_sub]

/-- Elapsing time neither looks at the bytes of an exchange nor changes them. -/
theorem elapseDev_withExchange (b : Bool) (n : Nat) (rx : List Byte) (o h : Byte) :
    elapseDev c b n { v with rx := rx, out := o, sh := h } =
      { elapseDev c b n v with rx := rx, out := o, sh := h } := by
  have hdue : completionDue b n { v with rx := rx, out := o, sh := h } = completionDue b n v := rfl
  unfold elapseDev
  rw [hdue]
  split <;> rfl

/-- `v` with EWSR arming as given. -/
def Device.withArming (v : Device) (e : Bool) : Device := { v with ewsrArmed := e }

@[simp] theorem withArming_withArming (e f : Bool) : (v.withArming e).withArming f = v.withArming f := rfl

/-- Nor does it look at arming. -/
theorem elapseDev_withArming (b : Bool) (n : Nat) (e : Bool) :
    elapseDev c b n (v.withArming e) = (elapseDev c b n v).withArming e := by
  have hdue : completionDue b n (v.withArming e) = completionDue b n v := rfl
  unfold elapseDev
  rw [hdue]
  split <;> rfl

/-- An operation with `k` cycles left has completed after `k` edges, and not before. -/
theorem elapseDev_ended {k n : Nat} (hb : v.busy = true) (hl : v.left = some k) (hn : 0 < n) (h : k ≤ n) :
    elapseDev c true n v = complete c v :=
  elapseDev_of_due (by simp [completionDue, hb, hl, hn, h])

theorem elapseDev_pending {k n : Nat} (hl : v.left = some k) (h : n < k) :
    elapseDev c true n v = { v with left := some (k - n) } := by
  rw [elapseDev_steady true n (fun _ j hj => by rw [hl] at hj; cases hj; exact h), hl]
  rfl

/-- Whatever the countdown, an operation in progress is as before or has completed. -/
theorem elapseDev_cases (n : Nat) (v : Device) :
    (∃ l, elapseDev c true n v = { v with left := l }) ∨ elapseDev c true n v = complete c v := by
  cases h : completionDue true n v with
  | false => exact .inl ⟨_, elapseDev_of_not_due h⟩
  | true => exact .inr (elapseDev_of_due h)

/-! ## The device but for what nothing reads -/

/-- `x` is the device `v`, but for the bytes of an exchange and for the countdown of an idle device. -/
structure SameDevice (v x : Device) : Prop where
  eq : x = { v with rx := x.rx, left := x.left, out := x.out, sh := x.sh }
  left : v.busy = true → x.left = v.left

theorem SameDevice.refl (v : Device) : SameDevice v v := ⟨rfl, fun _ => rfl⟩

theorem SameDevice.array (h : SameDevice v x) : x.array = v.array := by rw [h.eq]
theorem SameDevice.busy (h : SameDevice v x) : x.busy = v.busy := by rw [h.eq]
theorem SameDevice.wel (h : SameDevice v x) : x.wel = v.wel := by rw [h.eq]
theorem SameDevice.srOther (h : SameDevice v x) : x.srOther = v.srOther := by rw [h.eq]
theorem SameDevice.ewsrArmed (h : SameDevice v x) : x.ewsrArmed = v.ewsrArmed := by rw [h.eq]
theorem SameDevice.pending (h : SameDevice v x) : x.pending = v.pending := by rw [h.eq]

/-- The same bytes of an exchange and, on a busy device, the same countdown. -/
theorem SameDevice.of_exchange (rx : List Byte) (o h : Byte) : SameDevice v { v with rx := rx, out := o, sh := h } :=
  ⟨rfl, fun _ => rfl⟩

theorem SameDevice.trans {y : Device} (h : SameDevice v x) (k : SameDevice x y) : SameDevice v y :=
  ⟨k.eq.trans (by rw [h.eq]), fun hb => (k.left (h.busy.trans hb)).trans (h.left hb)⟩

/-- An idle device stays as it is, whatever its countdown. -/
theorem SameDevice.of_idle {l : Option Nat} (hv : v.busy = false) (h : SameDevice { v with left := l } x) :
    SameDevice v x :=
  ⟨h.eq, fun hb => by rw [hv] at hb; cases hb⟩

theorem SameDevice.elapse (h : SameDevice v x) (b : Bool) (n : Nat) :
    SameDevice (elapseDev c b n v) (elapseDev c b n x) := by
  cases hv : v.busy with
  | false =>
    rw [elapseDev_idle b n hv, elapseDev_idle b n (h.busy.trans hv)]
    refine ⟨?_, fun hb => by rw [hv] at hb; cases hb⟩
    rw [h.eq]
  | true =>
    have hx : x = { v with rx := x.rx, out := x.out, sh := x.sh } := by
      rw [← h.left hv]
      exact h.eq
    rw [hx, elapseDev_withExchange b n x.rx x.out x.sh]
    exact .of_exchange _ _ _

/-- The chip is deselected, and the device is `v`. -/
structure DeviceIs (v : Device) (s : State) : Prop where
  csN : s.bus.csN = true
  same : SameDevice v s.dev

theorem DeviceIs.of_idle (hv : v.busy = false) {b : Bool} {n : Nat} (h : DeviceIs (elapseDev c b n v) s) :
    DeviceIs v s :=
  ⟨h.csN, by rw [elapseDev_idle b n hv] at h; exact h.same.of_idle hv⟩

theorem DeviceIs.elapse (h : DeviceIs v s) (n : Nat) : DeviceIs (elapseDev c true n v) (elapse c n s) :=
  ⟨h.csN, by rw [elapse_dev, h.csN]; exact h.same.elapse _ _⟩

theorem DeviceIs.gapAfter (h : DeviceIs v s) : DeviceIs (elapseDev c true (cshCycles c) v) (gapAfter c s) :=
  DeviceIs.elapse (s := { s with bus := { s.bus with gapCtr := 0 } }) ⟨h.csN, h.same⟩ (cshCycles c)

theorem DeviceIs.runWait (h : DeviceIs v s) (n : Nat) : DeviceIs (elapseDev c true n v) (runWait c n s) :=
  DeviceIs.elapse (s := { s with sq := { s.sq with waitCtr := 0 } }) ⟨h.csN, h.same⟩ n

theorem DeviceIs.publish (h : DeviceIs v s) : DeviceIs v (publish c s) := ⟨h.csN, h.same⟩

/-- The device at the start edge of a command's first action, two edges after its accept began. -/
theorem deviceIs_accepted (hcs : s.bus.csN = true) (code : Code) (q : Latches → Bool → List Action) :
    DeviceIs (elapseDev c true 2 s.dev) (accepted c code q s) :=
  ⟨hcs, by rw [accepted_dev hcs]; exact .refl _⟩

theorem deviceIs_accepted_idle (hcs : s.bus.csN = true) (hb : s.dev.busy = false) (code : Code)
    (q : Latches → Bool → List Action) : DeviceIs s.dev (accepted c code q s) :=
  (deviceIs_accepted hcs code q).of_idle hb

/-! ## A frame -/

/-- The frame of action `a`, which decodes to `i`, has run from `s` to `t`: the device acted on it in `u`, which left
`w`, and the chip-select gap has passed. -/
structure FrameRan (c : Env) (a : Action) (i : Instr) (s u w t : State) : Prop where
  ended : FrameEnded c a s u
  act : deviceAct c i u = .next w
  run : runFrame c a s = .next t
  gap : t = Machine.gapAfter c w

theorem FrameRan.sq_eq (h : FrameRan c a i s u w t) : t.sq = u.sq := by
  rw [h.gap, gapAfter_sq, (deviceAct_next h.act).sq]

theorem FrameRan.waitCtr (h : FrameRan c a i s u w t) : t.sq.waitCtr = s.sq.waitCtr := by
  rw [h.sq_eq, h.ended.sq]

theorem FrameRan.cap (h : FrameRan c a i s u w t) (hn : a.capIdx = none) : t.sq.cap = s.sq.cap := by
  rw [h.sq_eq, h.ended.capKept hn]

theorem FrameRan.chk (h : FrameRan c a i s u w t) (hn : a.chkIdx = none) : t.sq.chk = s.sq.chk := by
  rw [h.sq_eq, h.ended.chkKept hn]

/-- A frame of which no byte is saved. -/
theorem FrameRan.capturesKept (h : FrameRan c a i s u w t) (hcap : a.capIdx = none) (hchk : a.chkIdx = none) :
    CapturesKept s t :=
  ⟨⟨h.chk hchk, h.waitCtr⟩, h.cap hcap⟩

/-- A response rests on the device but for what nothing reads. -/
theorem SameDevice.response (h : SameDevice v x) (bs : List Byte) :
    response c { x with rx := bs } = response c { v with rx := bs } := by
  rw [h.eq]
  rfl

/-- The byte an action saves in cap, or in chk, is the response that a rule defines for it. -/
theorem FrameRan.captured (h : FrameRan c a i s u w t) (hs : DeviceIs v s) {k : Nat} {b : Byte} (hk : a.capIdx = some k)
    (hlt : k < a.bytes.length) (hr : response c { v with rx := a.bytes.take k } = some b) : t.sq.cap = b := by
  rw [h.sq_eq]
  exact h.ended.captured k b hk hlt ((hs.same.response _).trans hr)

theorem FrameRan.checked (h : FrameRan c a i s u w t) (hs : DeviceIs v s) (hn : a.capIdx = none) {k : Nat} {b : Byte}
    (hk : a.chkIdx = some k) (hlt : k < a.bytes.length)
    (hr : response c { v with rx := a.bytes.take k } = some b) : t.sq.chk = b := by
  rw [h.sq_eq]
  exact h.ended.checked hn k b hk hlt ((hs.same.response _).trans hr)

/-- The device in the state in which it acts on a frame. -/
theorem FrameEnded.same (h : FrameEnded c a s u) (hs : DeviceIs v s) :
    SameDevice (elapseDev c false (lowCycles c a.bytes.length) v) u.dev := by
  refine (hs.same.elapse false _).trans ?_
  rw [elapseDev_selected, h.dev]
  exact .of_exchange _ _ _

/-- A frame on which the device acts: where the act, on the device as the frame's end finds it, leaves `v'`, the frame
leaves `v'` after the chip-select gap. -/
theorem runFrame_acted (hi : decodeFrame a.bytes = .ok i) (hs : DeviceIs v s)
    (hact : ∀ u, SameDevice (elapseDev c false (lowCycles c a.bytes.length) v) u.dev →
      ∃ w, deviceAct c i u = .next w ∧ SameDevice v' w.dev) :
    ∃ u w t, FrameRan c a i s u w t ∧ DeviceIs (elapseDev c true (cshCycles c) v') t := by
  obtain ⟨u, hu, hr⟩ := runFrame_eq (c := c) (s := s) a hi
  obtain ⟨w, hw, hsame⟩ := hact u (hu.same hs)
  have hcs : w.bus.csN = true := by rw [(deviceAct_next hw).bus, hu.csN]
  exact ⟨u, w, gapAfter c w, ⟨hu, hw, by rw [hr, hw]; rfl, rfl⟩, DeviceIs.gapAfter ⟨hcs, hsame⟩⟩

/-! ## Frames without an effect -/

/-- A frame's act has changed nothing of the device but what is on MISO, and has cleared arming. -/
def OnlyDisarmed (s t : State) : Prop := t.dev = { s.dev with out := t.dev.out, ewsrArmed := false }

/-- On the device `v`, the act on the frame `i` only disarms. -/
def Passive (c : Env) (i : Instr) (v : Device) : Prop :=
  ∀ u : State, u.dev = { v with rx := u.dev.rx, left := u.dev.left, out := u.dev.out, sh := u.dev.sh } →
    ∃ w, deviceAct c i u = .next w ∧ OnlyDisarmed u w

theorem SameDevice.withArming (h : SameDevice v x) (e : Bool) : SameDevice (v.withArming e) (x.withArming e) := by
  refine ⟨?_, h.left⟩
  rw [h.eq]
  rfl

/-- Such a frame takes its time and disarms; an operation in progress goes on meanwhile, and may end. -/
theorem runFrame_passive (hi : decodeFrame a.bytes = .ok i) (hs : DeviceIs v s) (hp : Passive c i v) :
    ∃ u w t, FrameRan c a i s u w t ∧
      DeviceIs ((elapseDev c true (frameCycles c a.bytes.length) v).withArming false) t := by
  rw [frameCycles, ← elapseDev_selected_gap _ (show 0 < cshCycles c from Nat.succ_pos _), ← elapseDev_withArming]
  refine runFrame_acted hi hs fun u hu => ?_
  rw [elapseDev_selected] at hu
  obtain ⟨w, hw, hd⟩ := hp u hu.eq
  refine ⟨w, hw, ?_⟩
  rw [hd, elapseDev_selected]
  exact (hu.withArming false).trans (.of_exchange (v := u.dev.withArming false) _ _ _)

/-- A busy device ignores every frame but RDSR, which only reads (45_device R221, R233). -/
theorem passive_of_busy {bs : List Byte} (hi : decodeFrame bs = .ok i) (hb : v.busy = true) : Passive c i v := by
  intro u hu
  have hub : u.dev.busy = true := by rw [hu]; exact hb
  obtain ⟨w, hw⟩ := deviceAct_busy (c := c) hi hub
  have hact := deviceAct_next hw
  obtain ⟨hwel, hother, hleft⟩ := hact.ignored hub
  have harray := hact.array
  have hrx := hact.rx
  have hsh := hact.sh
  have harmed := hact.disarmed hub
  obtain ⟨hbusy, hpending, -⟩ | ⟨hidle, -⟩ := hact.op
  · refine ⟨w, hw, ?_⟩
    simp only [OnlyDisarmed]
    rw [← harray, ← hbusy, ← hwel, ← hother, ← harmed, ← hpending, ← hrx, ← hleft, ← hsh]
  · rw [hub] at hidle; cases hidle

theorem passive_rdsr (d : Byte) (v : Device) : Passive c (.spiRdsr d) v := fun _ _ => ⟨_, rfl, rfl⟩

theorem whenIdle_onlyDisarmed {f : State → State} (h : s.dev.busy = false → OnlyDisarmed s (f s)) :
    OnlyDisarmed s (whenIdle c f s) := by
  unfold whenIdle
  split
  · rfl
  · rename_i hb
    exact h (by simpa using hb)

theorem addressed_of_located {ad : Addr} {y : Nat} (h : locate c ad = some y) (f : Nat → State → State) (s : State) :
    addressed c ad f s = .next (whenIdle c (f y) s) := by
  simp [addressed, h]

theorem addressed_of_absent {ad : Addr} (h : locate c ad = none) (hb : s.dev.busy = false) (f : Nat → State → State) :
    addressed c ad f s = .refused .addressOutOfRange := by
  simp [addressed, h, hb]

/-- Without WEL a program or erase has no effect (45_device R226, R227, R231). -/
theorem arrayOp_of_not_wel (h : s.dev.wel = false) (prot : Bool) (p : Pending) : arrayOp c prot p s = s := by
  simp [arrayOp, h]

theorem arrayOp_onlyDisarmed (h : s.dev.wel = false) (prot : Bool) (p : Pending) :
    OnlyDisarmed s (endFrame false (arrayOp c prot p (drive c none s))) := by
  rw [arrayOp_of_not_wel (s := drive c none s) h]
  rfl

theorem passive_read {ad : Addr} {y : Nat} (h : locate c ad = some y) (d : Byte) (v : Device) :
    Passive c (.spiRead ad d) v :=
  fun _ _ => ⟨_, addressed_of_located h _ _, whenIdle_onlyDisarmed fun _ => rfl⟩

theorem passive_program {ad : Addr} {y : Nat} (h : locate c ad = some y) (d : Byte) (hw : v.wel = false) :
    Passive c (.spiProgram ad d) v := fun u hu =>
  ⟨_, addressed_of_located h _ _, whenIdle_onlyDisarmed fun _ => arrayOp_onlyDisarmed (by rw [hu]; exact hw) _ _⟩

theorem passive_erase {ad : Addr} {y : Nat} (h : locate c ad = some y) (hw : v.wel = false)
    (hi : ∃ e, ∀ u, deviceAct c i u = eraseFrame c e ad u) : Passive c i v := fun u hu => by
  obtain ⟨e, he⟩ := hi
  exact ⟨_, (he u).trans (addressed_of_located h _ _),
    whenIdle_onlyDisarmed fun _ => arrayOp_onlyDisarmed (by rw [hu]; exact hw) _ _⟩

theorem passive_chipErase (hw : v.wel = false) : Passive c .spiChipErase v := fun u hu =>
  ⟨_, rfl, whenIdle_onlyDisarmed fun _ => arrayOp_onlyDisarmed (by rw [hu]; exact hw) _ _⟩

/-- WRSR without arming and without WEL has no effect (45_device R223). -/
theorem passive_wrsr (d : Byte) (ha : v.ewsrArmed = false) (hw : v.wel = false) :
    Passive c (.spiWrsr d) v := fun u hu =>
  ⟨_, rfl, whenIdle_onlyDisarmed fun _ => by
    have hua : u.dev.ewsrArmed = false := by rw [hu]; exact ha
    have huw : u.dev.wel = false := by rw [hu]; exact hw
    have hsame : writeSrOther c d (drive c none u) = drive c none u := by simp [writeSrOther, hua, huw]
    rw [hsame]
    rfl⟩

end Sys2Proof.Machine

/-! # The data and erase commands (41_data R150 to R154, 42_erase R165 to R169)

READ_BYTE is one READ frame. A program or erase command is PrimeWREN, its main frame, a wait and the check, and for
WRITE_BYTE a READ frame (`ArrayCommand`). -/

namespace Sys2Proof.Machine

variable {c : Env} {s t u m : State} {a : Action} {i : Instr} {v v' x : Device} {code : Code} {w : Latches}

/-! ## A frame to an idle device, and a frame that is refused -/

/-- A frame on which an idle device acts. -/
theorem runFrame_idle (hi : decodeFrame a.bytes = .ok i) (hs : DeviceIs v s) (hb : v.busy = false)
    (hact : ∀ u, SameDevice v u.dev → ∃ w, deviceAct c i u = .next w ∧ SameDevice v' w.dev) :
    ∃ u w t, FrameRan c a i s u w t ∧ DeviceIs (elapseDev c true (cshCycles c) v') t :=
  runFrame_acted hi hs fun u hu => hact u (by rw [elapseDev_idle _ _ hb] at hu; exact hu.of_idle hb)

theorem whenIdle_of_idle (hb : s.dev.busy = false) (f : State → State) : whenIdle c f s = f s := by
  simp [whenIdle, hb]

theorem runFrame_refused {r : Refusal} (hi : decodeFrame a.bytes = .ok i)
    (h : ∀ u, u.dev.busy = s.dev.busy → deviceAct c i u = .refused r) : runFrame c a s = .refused r := by
  obtain ⟨u, hu, hr⟩ := runFrame_eq (c := c) (s := s) a hi
  rw [hr, h u (by rw [hu.dev])]
  rfl

theorem locate_of_absent {ad : Addr} (ha : flashSize c ≤ ad.toNat) (hp : c.p.addrPolicy = .refuse) :
    locate c ad = none := by
  have hpos := flashSize_pos c
  have h0 : ad ≠ 0x000000#24 := by
    rintro rfl
    have hz : (0x000000#24).toNat = 0 := rfl
    omega
  have hlt : ¬ ad.toNat < flashSize c := by omega
  simp [locate, h0, hlt, hp]

/-! ## The check frame and the READ frame (41_data R150, R152) -/

/-- The check saves the status byte of the device as the check frame finds it. -/
theorem runCheck (hs : DeviceIs v s) :
    ∃ t, runAction c .check s = .next t ∧
      DeviceIs ((elapseDev c true (frameCycles c 2) v).withArming false) t ∧
      t.sq.chk = srByte c v ∧ t.sq.waitCtr = s.sq.waitCtr := by
  obtain ⟨u, w, t, hran, ht⟩ := runFrame_passive (c := c) (a := .check) decode_rdsr hs (passive_rdsr _ v)
  exact ⟨t, hran.run, ht, hran.checked hs rfl rfl (by decide) (response_rdsr v), hran.waitCtr⟩

/-- On an idle device the READ frame saves the array byte. -/
theorem runRead {ad : Addr} {y : Nat} (hs : DeviceIs v s) (hloc : v.busy = false → locate c ad = some y) :
    ∃ t, runAction c (.frame (frameAR .read ad) (some 4)) s = .next t ∧
      DeviceIs ((elapseDev c true (frameCycles c 5) v).withArming false) t ∧
      t.sq.chk = s.sq.chk ∧ t.sq.waitCtr = s.sq.waitCtr ∧
      (v.busy = false → t.sq.cap = Memory.read c.d.array v.array y) := by
  have hp : Passive c (.spiRead ad dummyByte) v := by
    cases hb : v.busy with
    | true => exact passive_of_busy (decode_read ad) hb
    | false => exact passive_read (hloc hb) _ v
  obtain ⟨u, w, t, hran, ht⟩ :=
    runFrame_passive (a := .frame (frameAR .read ad) (some 4)) (decode_read ad) hs hp
  exact ⟨t, hran.run, ht, hran.chk rfl, hran.waitCtr, fun hb =>
    hran.captured hs rfl (show 4 < 5 by decide) (response_read hb (hloc hb))⟩

/-! ## READ_BYTE (41_data R150) -/

theorem latency_of_seq {as : List Action} (has : commandSeq c (decodeCode code) (latch code s) s.bus.csN = as) :
    latency c code s = 1 + seqCycles c as := by
  rw [latency, has]

theorem seqCycles_append (c : Env) (as bs : List Action) :
    seqCycles c (as ++ bs) = seqCycles c as + seqCycles c bs := by
  simp [seqCycles]

theorem seqCycles_singleton (c : Env) (a : Action) : seqCycles c [a] = a.cycles c := by simp [seqCycles]

/-- A device that is as in `s`, but for its countdown and arming. -/
theorem DeviceIs.devKept {l : Option Nat} {e : Bool}
    (h : DeviceIs (({ s.dev with left := l } : Device).withArming e) t) : DevKept s t :=
  ⟨⟨h.same.array, h.same.busy, h.same.pending, h.same.srOther⟩, h.same.wel⟩

theorem seqReadByte_deselected (hcs : s.bus.csN = true) :
    commandSeq c (decodeCode 0x1#4) (latch 0x1#4 s) s.bus.csN = [.frame (frameAR .read s.regs.addr) (some 4)] := by
  rw [hcs]
  rfl

/-- Settles O33: the one frame of READ_BYTE only disarms, and the device is as at the CMD write throughout. -/
theorem readBytePublishesTheArrayByte : Obligations.ReadBytePublishesTheArrayByte := by
  intro s y hidle hcs hsteady hloc
  have has := seqReadByte_deselected (c := Config.env) hcs
  have hedges : 1 + latency Config.env 0x1#4 s = 2 + frameCycles Config.env 5 := by
    have hcycles : (Action.frame (frameAR .read s.regs.addr) (some 4)).cycles Config.env =
      frameCycles Config.env 5 := rfl
    rw [latency_of_seq has, seqCycles_singleton, hcycles]
    omega
  rw [hedges] at hsteady
  have hdev := deviceIs_accepted (c := Config.env) hcs 0x1#4 (commandSeq Config.env (decodeCode 0x1#4))
  rw [elapseDev_steady true 2 (hsteady.mono (by omega))] at hdev
  obtain ⟨m, hm, hmdev, hchk, hwait, hcap⟩ := runRead hdev hloc
  rw [← elapseDev_steady true 2 (hsteady.mono (by omega)), elapseDev_add, elapseDev_steady true _ hsteady] at hmdev
  obtain ⟨hexec, hpub⟩ := exec_published 0x1#4 hidle has ((runActions_singleton _ _).trans hm)
  exact ⟨_, m.sq.cap, hexec, hpub, ⟨hchk, hwait⟩, hmdev.publish.devKept, hmdev.same.ewsrArmed, hmdev.csN, hcap⟩

/-! ## The program and erase commands (41_data R153, R154, 42_erase R165 to R169) -/

/-- The time PrimeWREN takes, or PrimeEWSR. -/
def primeCycles (c : Env) (w : Latches) : Nat := if w.prime then frameCycles c 1 else 0

theorem seqCycles_prime (c : Env) (w : Latches) (o : DevOp) :
    seqCycles c (if w.prime then [.frame (frameN o) none] else []) = primeCycles c w := by
  unfold primeCycles
  split
  · exact seqCycles_singleton c _
  · rfl

/-- The READ frame at the end of WRITE_BYTE; an erase has none. -/
def readBack (code : Code) (w : Latches) : List Action :=
  if code = 0x2#4 then [.frame (frameAR .read w.addr) (some 4)] else []

/-- `code` is a program or erase command: its main frame is `bs`, which decodes to `i`, and its wait is `n`. -/
structure ArrayCommand (c : Env) (code : Code) (w : Latches) (bs : List Byte) (i : Instr) (n : Nat) : Prop where
  seq : commandSeq c (decodeCode code) w true =
    primeWren w ++ ([.frame bs none, .wait n, .check] ++ readBack code w)
  decodes : decodeFrame bs = .ok i
  passive : (code = 0x3#4 ∨ ∃ y, locate c w.addr = some y) → ∀ {v}, v.wel = false → Passive c i v
  rule : ∀ seq, pubRule (decodeCode code) seq = highLevelRule seq (if code = 0x2#4 then .verify else .erase)
  refused : code ≠ 0x3#4 → locate c w.addr = none → ∀ u, u.dev.busy = false →
    deviceAct c i u = .refused .addressOutOfRange

theorem arrayCommand_writeByte (c : Env) (w : Latches) :
    ArrayCommand c 0x2#4 w (frameAW .program w.addr w.data) (.spiProgram w.addr w.data) (waitBP c) where
  seq := rfl
  decodes := decode_program _ _
  passive h _ hw := by
    obtain ⟨y, hy⟩ := h.resolve_left (by decide)
    exact passive_program hy _ hw
  rule _ := rfl
  refused _ h _ hb := addressed_of_absent h hb _

theorem arrayCommand_eraseChip (c : Env) (w : Latches) :
    ArrayCommand c 0x3#4 w (frameN .chipErase) .spiChipErase (waitCE c) where
  seq := rfl
  decodes := decode_chipErase
  passive _ _ hw := passive_chipErase hw
  rule _ := rfl
  refused h := absurd rfl h

/-- The erases with an address differ in their frame, the size of their region and their wait. -/
theorem arrayCommand_erase {bs : List Byte} {n e : Nat} (hcode : code ≠ 0x2#4 ∧ code ≠ 0x3#4)
    (hseq : commandSeq c (decodeCode code) w true = seqErase bs n w true)
    (hrule : ∀ seq, pubRule (decodeCode code) seq = highLevelRule seq .erase) (hi : decodeFrame bs = .ok i)
    (hact : ∀ u, deviceAct c i u = eraseFrame c e w.addr u) : ArrayCommand c code w bs i n where
  seq := by
    rw [hseq, readBack, if_neg hcode.1]
    rfl
  decodes := hi
  passive h _ hw := by
    obtain ⟨y, hy⟩ := h.resolve_left hcode.2
    exact passive_erase hy hw ⟨e, hact⟩
  rule seq := by rw [hrule, if_neg hcode.1]
  refused _ h u hb := (hact u).trans (addressed_of_absent h hb _)

theorem arrayCommand (c : Env) (w : Latches) (h2 : 0x2#4 ≤ code) (h6 : code ≤ 0x6#4) :
    ∃ bs i n, ArrayCommand c code w bs i n := by
  rcases programOrErase_cases h2 h6 with rfl | rfl | rfl | rfl | rfl
  · exact ⟨_, _, _, arrayCommand_writeByte c w⟩
  · exact ⟨_, _, _, arrayCommand_eraseChip c w⟩
  · exact ⟨_, _, _, arrayCommand_erase (by decide) rfl (fun _ => rfl) (decode_sectorErase _) fun _ => rfl⟩
  · exact ⟨_, _, _, arrayCommand_erase (by decide) rfl (fun _ => rfl) (decode_blockErase32 _) fun _ => rfl⟩
  · exact ⟨_, _, _, arrayCommand_erase (by decide) rfl (fun _ => rfl) (decode_blockErase64 _) fun _ => rfl⟩

theorem ArrayCommand.latency_eq {bs : List Byte} {n : Nat} (h : ArrayCommand c code (latch code s) bs i n)
    (hcs : s.bus.csN = true) :
    1 + latency c code s = 2 + primeCycles c (latch code s) + frameCycles c bs.length + n + frameCycles c 2 +
      (if code = 0x2#4 then frameCycles c 5 else 0) := by
  have hback : seqCycles c (readBack code (latch code s)) = if code = 0x2#4 then frameCycles c 5 else 0 := by
    unfold readBack
    split
    · exact seqCycles_singleton c _
    · rfl
  have htoCheck : seqCycles c [.frame bs none, .wait n, .check] = frameCycles c bs.length + (n + frameCycles c 2) := rfl
  rw [latency, hcs, h.seq, seqCycles_append, seqCycles_append, primeWren, seqCycles_prime, htoCheck, hback]
  omega

/-! ### PrimeWREN (41_data R154) -/

/-- An idle device takes PrimeWREN, and has WEL set after it. -/
theorem prime_idle (w : Latches) (hs : DeviceIs v s) (hb : v.busy = false) :
    ∃ m e, runActions c (primeWren w) s = .next m ∧
      DeviceIs (({ v with wel := w.prime || v.wel } : Device).withArming e) m ∧ m.free.delay = s.free.delay := by
  cases hw : w.prime with
  | false => exact ⟨s, v.ewsrArmed, by simp [primeWren, hw, runActions], hs, rfl⟩
  | true =>
    have hb' : (({ v with wel := true } : Device).withArming false).busy = false := hb
    obtain ⟨u, x, t, hran, ht⟩ := runFrame_idle (c := c) (a := .frame (frameN .wren) none)
      (v' := ({ v with wel := true } : Device).withArming false) decode_wren hs hb fun u hu => by
        refine ⟨_, rfl, ?_⟩
        rw [whenIdle_of_idle (hu.busy.trans hb)]
        exact ⟨by rw [endFrame_dev, setWel_dev, drive_dev, hu.eq]; rfl, hu.left⟩
    refine ⟨t, false, ?_, ht.of_idle hb', ?_⟩
    · rw [primeWren, hw, if_pos rfl, runActions_singleton]
      exact hran.run
    · have hx := hran.act
      cases hx
      rw [hran.gap, gapAfter_free, whenIdle_of_idle (by rw [hran.ended.dev]; exact hs.same.busy.trans hb)]
      show u.free.delay = s.free.delay
      rw [hran.ended.free]

/-- A busy device ignores the frame that primes a command, PrimeWREN or PrimeEWSR (41_data R154, 43_status_register
R186). -/
theorem prime_busy {o : DevOp} (hi : decodeFrame (frameN o) = .ok i) (w : Latches) (hs : DeviceIs v s)
    (hb : w.prime = true → v.busy = true) :
    ∃ m, runActions c (if w.prime then [.frame (frameN o) none] else []) s = .next m ∧ CapturesKept s m ∧
      DeviceIs ((elapseDev c true (primeCycles c w) v).withArming (!w.prime && v.ewsrArmed)) m := by
  unfold primeCycles
  cases hw : w.prime with
  | false =>
    have hzero : elapseDev c true 0 v = v := by
      rw [elapseDev_of_not_due (by simp [completionDue])]
      simp
    refine ⟨s, rfl, ⟨⟨rfl, rfl⟩, rfl⟩, ?_⟩
    rw [if_neg Bool.false_ne_true, hzero]
    exact hs
  | true =>
    obtain ⟨u, x, t, hran, ht⟩ := runFrame_passive (c := c) (a := .frame (frameN o) none) hi hs
      (passive_of_busy hi (hb hw))
    exact ⟨t, (runActions_singleton _ _).trans hran.run, hran.capturesKept rfl rfl, ht⟩

/-! ### The main frame, the wait and the check -/

/-- A command whose main frame only disarms, up to the end of its check. -/
theorem runActions_toCheck {bs : List Byte} (n : Nat) (hi : decodeFrame bs = .ok i) (hs : DeviceIs v s)
    (hp : Passive c i v) :
    ∃ m, runActions c [.frame bs none, .wait n, .check] s = .next m ∧
      DeviceIs ((elapseDev c true (frameCycles c bs.length + n + frameCycles c 2) v).withArming false) m ∧
      m.sq.chk = srByte c (elapseDev c true (frameCycles c bs.length + n) v) := by
  obtain ⟨u, w, t1, hran, h1⟩ := runFrame_passive (a := .frame bs none) hi hs hp
  have h2 := h1.runWait (c := c) n
  obtain ⟨t3, hrun3, h3, hchk, -⟩ := runCheck (c := c) h2
  have hrun1 : runAction c (.frame bs none) s = .next t1 := hran.run
  have hrun2 : runAction c (.wait n) t1 = .next (runWait c n t1) := rfl
  simp only [elapseDev_withArming, elapseDev_add, withArming_withArming] at h3 hchk
  exact ⟨t3, by simp only [runActions, hrun1, hrun2, hrun3, andThen_of_next], h3, hchk⟩

/-- On a device that is busy when the command is accepted, an operation ends at its time. The command's own frame is
ignored, or finds WEL cleared. -/
theorem ArrayCommand.runToCheck {bs : List Byte} {n k : Nat} (h : ArrayCommand c code w bs i n)
    (hs : DeviceIs (elapseDev c true 2 v) s) (hb : v.busy = true) (hl : v.left = some k)
    (hprime : w.prime = true → 2 < k)
    (hmain : k ≤ 2 + primeCycles c w → code = 0x3#4 ∨ ∃ y, locate c w.addr = some y) :
    ∃ m, runActions c (primeWren w ++ [.frame bs none, .wait n, .check]) s = .next m ∧
      DeviceIs ((elapseDev c true
        (2 + primeCycles c w + frameCycles c bs.length + n + frameCycles c 2) v).withArming false) m ∧
      m.sq.chk = srByte c (elapseDev c true (2 + primeCycles c w + frameCycles c bs.length + n) v) := by
  obtain ⟨m1, hrun1, -, h1⟩ := prime_busy (c := c) decode_wren w hs fun hw => by
    rw [elapseDev_pending hl (hprime hw)]
    exact hb
  rw [elapseDev_add] at h1
  have hp : Passive c i ((elapseDev c true (2 + primeCycles c w) v).withArming
      (!w.prime && (elapseDev c true 2 v).ewsrArmed)) := by
    rcases Nat.lt_or_ge (2 + primeCycles c w) k with hk | hk
    · rw [elapseDev_pending hl hk]
      exact passive_of_busy h.decodes hb
    · rw [elapseDev_ended hb hl (by omega) hk]
      exact h.passive (hmain hk) rfl
  obtain ⟨m, hrun, hm, hchk⟩ := runActions_toCheck n h.decodes h1 hp
  simp only [elapseDev_withArming, elapseDev_add, withArming_withArming, ← Nat.add_assoc] at hm hchk
  exact ⟨m, by rw [runActions_append, primeWren, hrun1, andThen_of_next, hrun], hm, hchk⟩

/-! ### Addresses the device does not have (45_device R220) -/

/-- The main frame of a command with an absent address, if it finds the device idle, is refused. -/
theorem ArrayCommand.refused_of_idle {bs : List Byte} {n : Nat} (h : ArrayCommand c code w bs i n)
    (hcode : code ≠ 0x3#4) (hloc : locate c w.addr = none) (hrun : runActions c (primeWren w) s = .next m)
    (hb : m.dev.busy = false) :
    runActions c (commandSeq c (decodeCode code) w true) s = .refused .addressOutOfRange := by
  have hframe : runAction c (.frame bs none) m = .refused .addressOutOfRange :=
    runFrame_refused h.decodes fun u hu => h.refused hcode hloc u (hu.trans hb)
  rw [h.seq, runActions_append, hrun, andThen_of_next, List.cons_append, runActions, hframe, andThen_of_refused]

theorem runRead_refused {ad : Addr} {cap : Option Nat} (hloc : locate c ad = none) (hb : s.dev.busy = false) :
    runAction c (.frame (frameAR .read ad) cap) s = .refused .addressOutOfRange :=
  runFrame_refused (decode_read ad) fun _ hu => addressed_of_absent hloc (hu.trans hb) _

/-- A refusal in a command's actions is the command's. -/
theorem runCommand_refused {r : Refusal} (hidle : s.sq.step = .idle) (hcs : s.bus.csN = true)
    {seqOf : Latches → Bool → List Action}
    (h : runActions c (seqOf (latch code s) true) (accepted c code seqOf s) = .refused r) :
    runCommand c code seqOf s = .refused r := by
  rw [runCommand_idle _ _ hidle, hcs, h, andThen_of_refused]

/-- Settles O29: the device is idle at the frame with the address, since PrimeWREN starts no operation. -/
theorem commandsToAbsentAddressesAreRefused : Obligations.CommandsToAbsentAddressesAreRefused := by
  intro c s hidle hcs hb ha hp code hcode
  have hcases : code = 0x1#4 ∨ 0x2#4 ≤ code ∧ code ≤ 0x6#4 ∧ code ≠ 0x3#4 := by
    revert code
    decide
  refine ⟨exec_decodeCode code s, runCommand_refused hidle hcs ?_⟩
  have hloc := locate_of_absent ha hp
  have hdev := deviceIs_accepted_idle (c := c) hcs hb code (commandSeq c (decodeCode code))
  rcases hcases with rfl | ⟨h2, h6, h3⟩
  · exact (runActions_singleton _ _).trans (runRead_refused hloc (hdev.same.busy.trans hb))
  · obtain ⟨bs, i, n, harray⟩ := arrayCommand c (latch code s) h2 h6
    obtain ⟨m, e, hrun, hm, -⟩ := prime_idle (c := c) (latch code s) hdev hb
    exact harray.refused_of_idle h3 hloc hrun (hm.same.busy.trans hb)

end Sys2Proof.Machine

/-! # An operation that ends during a command (45_device R232, R233)

A command that finds the device busy at its first frame changes nothing of it but arming, so that once the operation's
time has passed the device is `complete` of what it was at the CMD write. -/

namespace Sys2Proof.Machine

variable {c : Env} {s t m : State} {i : Instr} {v : Device} {code : Code} {w : Latches} {bs : List Byte} {n k : Nat}

/-! ## The completed operation -/

theorem programmed_eq (old d : Byte) :
    programmed c old d = if c.p.programMode = .replace then d else old &&& d := by
  unfold programmed
  cases c.p.programMode <;> rfl

/-- The operation in progress has completed on a device whose array is still that of `s`. -/
theorem DeviceIs.operationApplied {op : Pending} {e : Bool} (hwf : Memory.wf Config.env.d.array s.dev.array)
    (ha : v.array = s.dev.array) (hp : v.pending = some op)
    (h : DeviceIs ((complete Config.env v).withArming e) t) : OperationApplied op s t := by
  have harray : t.dev.array = applyPending Config.env s.dev.array (some op) := by
    rw [← ha, ← hp]
    exact h.same.array
  refine ⟨h.same.busy, h.same.wel, h.same.pending, fun a d hop y => ?_, fun lo hi hop y => ?_⟩
  · subst hop
    rw [arrayByte, harray, applyPending, Memory.read_write hwf, programmed_eq]
    rfl
  · subst hop
    rw [arrayByte, harray]
    exact Memory.read_fill hwf lo hi y

/-- A completed operation has nothing left to complete. -/
theorem elapseDev_complete (b : Bool) (n : Nat) : elapseDev c b n (complete c v) = complete c v :=
  elapseDev_idle b n rfl

/-- An operation that ends by the edge of the first frame might as well have ended before the CMD write. -/
theorem accepted_complete (hcs : s.bus.csN = true) (hb : s.dev.busy = true) (hl : s.dev.left = some k) (hk : k ≤ 2)
    (q : Latches → Bool → List Action) :
    accepted c code q { s with dev := complete c s.dev } = accepted c code q s := by
  have hdev : elapseDev c s.bus.csN 2 (complete c s.dev) = elapseDev c s.bus.csN 2 s.dev := by
    rw [elapseDev_complete, hcs, elapseDev_ended hb hl (by decide) hk]
  simp only [accepted, hdev]
  rfl

/-! ## What a program or erase command publishes -/

theorem highLevelRule_of_ne_nil {seq : List Action} (h : seq ≠ []) (r : PubRule) : highLevelRule seq r = r := by
  simp [highLevelRule, h]

theorem ArrayCommand.runActions_eq (h : ArrayCommand c code w bs i n) (s : State) :
    runActions c (commandSeq c (decodeCode code) w true) s =
      andThen (runActions c (primeWren w ++ [.frame bs none, .wait n, .check]) s) (runActions c (readBack code w)) := by
  rw [h.seq, ← List.append_assoc, runActions_append]

theorem ArrayCommand.pubRule_eq (h : ArrayCommand c code w bs i n) :
    pubRule (decodeCode code) (commandSeq c (decodeCode code) w true) = if code = 0x2#4 then .verify else .erase := by
  rw [h.rule, h.seq]
  exact highLevelRule_of_ne_nil (by simp) _

/-- What a command whose actions have left `m` publishes, and when, in every environment. -/
theorem publish_of_actions {r : PubRule} (hcs : s.bus.csN = true)
    (hm : runActions c (commandSeq c (decodeCode code) (latch code s) true)
      (accepted c code (commandSeq c (decodeCode code)) s) = .next m)
    (hr : pubRule (decodeCode code) (commandSeq c (decodeCode code) (latch code s) true) = r) :
    (publish c m).regs = { s.regs with
        lastCode := code, done := true, result := pubResult c m.sq r, rdata := pubRdata m.sq s.regs.rdata r } ∧
      (publish c m).now = s.now + 1 + latency c code s := by
  have h := runActions_done hm
  have hw : m.sq.w = latch code s := by rw [h.sq]; rfl
  have hseq : m.sq.seq = commandSeq c (decodeCode code) (latch code s) true := by rw [h.sq, ← hcs]; rfl
  have hrule : pubRule (decodeCode m.sq.w.code) m.sq.seq = r := by rw [hw, hseq]; exact hr
  constructor
  · simp only [publish, hrule, h.regs, accepted]
  · simp only [publish_now, h.now, accepted, latency, hcs]
    omega

/-- An erase ends with its check, and publishes by it alone (42_erase R169). -/
theorem ArrayCommand.erase_actions (h : ArrayCommand c code w bs i n) (hcode : code ≠ 0x2#4)
    (hrun : runActions c (primeWren w ++ [.frame bs none, .wait n, .check]) s = .next m) :
    runActions c (commandSeq c (decodeCode code) w true) s = .next m := by
  rw [h.runActions_eq, hrun, readBack, if_neg hcode]
  rfl

theorem publish_erase_of_check {q : Sequencer} (hchk : q.chk = srByte c v) :
    pubResult c q .erase = (if v.busy then .deviceBusy else .ok) ∧ ∀ old, pubRdata q old .erase = srByte c v :=
  ⟨by rw [pubResult, hchk, busyVerdict_srByte], fun _ => hchk⟩

/-- WRITE_BYTE publishes by its check and by the byte read back (41_data R153). -/
theorem writeByte_published (hidle : s.sq.step = .idle) (hcs : s.bus.csN = true)
    (hrun : runActions Config.env (commandSeq Config.env (decodeCode 0x2#4) (latch 0x2#4 s) true)
      (accepted Config.env 0x2#4 (commandSeq Config.env (decodeCode 0x2#4)) s) = .next m)
    (hchk : m.sq.chk = srByte Config.env v) :
    exec .writeByte s = .next (publish Config.env m) ∧
      Published 0x2#4 (if v.busy then .deviceBusy else if m.sq.cap = s.regs.wdata then .ok else .verifyFail) m.sq.cap s
        (publish Config.env m) := by
  have hdata : m.sq.w.data = s.regs.wdata := by rw [(runActions_done hrun).sq]; rfl
  have hresult : pubResult Config.env m.sq .verify =
      if v.busy then .deviceBusy else if m.sq.cap = s.regs.wdata then .ok else .verifyFail := by
    rw [pubResult, hchk, busyVerdict_srByte, hdata]
  obtain ⟨hexec, hpub⟩ := exec_published 0x2#4 hidle (by rw [hcs]) hrun
  rw [(arrayCommand_writeByte Config.env (latch 0x2#4 s)).pubRule_eq, if_pos rfl, hresult] at hpub
  exact ⟨hexec, hpub⟩

/-- Settles O38: by the check the device is `complete` of what it was, so that the check and the read-back say so. -/
theorem operationsThatEndDuringACommandShowInItsCheck : Obligations.OperationsThatEndDuringACommandShowInItsCheck := by
  intro s code op k hidle hcs hwf hb hp hl
  refine ⟨fun hk => ?_, fun y h2 h6 hloc hprime hk => ?_⟩
  · rw [exec_decodeCode, exec_decodeCode, runCommand_idle _ _ hidle,
      runCommand_idle (s := { s with dev := complete Config.env s.dev }) _ _ hidle, accepted_complete hcs hb hl hk]
    rfl
  · obtain ⟨bs, i, n, harray⟩ := arrayCommand Config.env (latch code s) h2 h6
    obtain ⟨m1, hrun1, hm1, hchk1⟩ := harray.runToCheck
      (deviceIs_accepted hcs code (commandSeq Config.env (decodeCode code))) hb hl hprime
      fun _ => hloc.imp_right fun h => ⟨y, h⟩
    rw [harray.latency_eq hcs] at hk
    rw [elapseDev_ended hb hl (by omega) (by omega)] at hm1 hchk1
    by_cases hcode : code = 0x2#4
    · subst hcode
      obtain ⟨m, hrun, hm, hchk, -, hcap⟩ := runRead (ad := s.regs.addr) hm1 fun _ => hloc.resolve_left (by decide)
      have hactions : runActions Config.env (commandSeq Config.env (decodeCode 0x2#4) (latch 0x2#4 s) true)
          (accepted Config.env 0x2#4 (commandSeq Config.env (decodeCode 0x2#4)) s) = .next m := by
        rw [harray.runActions_eq, hrun1, andThen_of_next]
        exact (runActions_singleton _ _).trans hrun
      obtain ⟨hexec, hpub⟩ := writeByte_published hidle hcs hactions (hchk.trans hchk1)
      rw [elapseDev_withArming, elapseDev_complete, withArming_withArming] at hm
      have hbyte : m.sq.cap = arrayByte (publish Config.env m) y :=
        (hcap rfl).trans (congrArg (Memory.read _ · y) hm.same.array.symm)
      rw [hbyte] at hpub
      exact ⟨_, hexec, hm.csN, hm.publish.operationApplied hwf rfl hp, hm.same.srOther, hm.same.ewsrArmed,
        fun h => absurd h (by decide), fun _ => hpub⟩
    · obtain ⟨hexec, hpub⟩ := exec_published code hidle (by rw [hcs]) (harray.erase_actions hcode hrun1)
      obtain ⟨hresult, hrdata⟩ := publish_erase_of_check hchk1
      rw [harray.pubRule_eq, if_neg hcode, hresult, hrdata] at hpub
      exact ⟨_, hexec, hm1.csN, hm1.publish.operationApplied hwf rfl hp, hm1.same.srOther,
        hm1.same.ewsrArmed, fun _ => hpub, fun h => absurd h hcode⟩

/-! ## Absent addresses (45_device R220) -/

/-- Where the operation has ended by the main frame, PrimeWREN leaves an idle device. -/
theorem prime_ended (hs : DeviceIs (elapseDev c true 2 v) s) (hb : v.busy = true) (hl : v.left = some k)
    (hk : k ≤ 2 + primeCycles c w) : ∃ m, runActions c (primeWren w) s = .next m ∧ m.dev.busy = false := by
  rcases Nat.lt_or_ge 2 k with h2 | h2
  · obtain ⟨m, hrun, -, hm⟩ := prime_busy (c := c) decode_wren w hs fun _ => by
      rw [elapseDev_pending hl h2]
      exact hb
    rw [elapseDev_add, elapseDev_ended hb hl (by omega) hk] at hm
    exact ⟨m, hrun, hm.same.busy⟩
  · rw [elapseDev_ended hb hl (by decide) h2] at hs
    obtain ⟨m, e, hrun, hm, -⟩ := prime_idle (c := c) w hs rfl
    exact ⟨m, hrun, hm.same.busy⟩

/-- Settles O39: the first frame with the address that finds the device idle is refused; an erase has none after its
main frame. -/
theorem absentAddressesAfterAnEarlierOperation : Obligations.AbsentAddressesAfterAnEarlierOperation := by
  intro c s k hidle hcs hb hl ha hpolicy start code hmem
  have hcode : 0x2#4 ≤ code ∧ code ≤ 0x6#4 ∧ code ≠ 0x3#4 := by
    revert code
    decide
  obtain ⟨h2, h6, h3⟩ := hcode
  have hloc : locate c s.regs.addr = none := locate_of_absent ha hpolicy
  obtain ⟨bs, i, n, harray⟩ := arrayCommand c (latch code s) h2 h6
  have hstart : start = 2 + primeCycles c (latch code s) := rfl
  have hdev := deviceIs_accepted (c := c) hcs code (commandSeq c (decodeCode code))
  have htoCheck := fun hmain : start < k => harray.runToCheck hdev hb hl (fun _ => by omega)
    (fun hk => absurd hk (by omega))
  rw [harray.latency_eq hcs]
  refine ⟨exec_decodeCode code s, fun hk => ?_, fun hne hmain hk => ?_⟩
  · refine runCommand_refused hidle hcs ?_
    rcases Nat.lt_or_ge start k with hmain | hmain
    · obtain ⟨rfl, hk⟩ := hk.resolve_left (by omega)
      obtain ⟨m, hrun, hm, -⟩ := htoCheck hmain
      rw [if_pos rfl] at hk
      rw [elapseDev_ended hb hl (by omega) (by omega)] at hm
      rw [harray.runActions_eq, hrun, andThen_of_next]
      exact (runActions_singleton _ _).trans (runRead_refused hloc hm.same.busy)
    · obtain ⟨m, hrun, hm⟩ := prime_ended (w := latch code s) hdev hb hl (by omega)
      exact harray.refused_of_idle h3 hloc hrun hm
  · obtain ⟨m, hrun, hm, hchk⟩ := htoCheck hmain
    rw [if_neg hne] at hk
    rw [elapseDev_ended hb hl (by omega) (by omega)] at hm hchk
    have hactions := harray.erase_actions hne hrun
    obtain ⟨hregs, hnow⟩ := publish_of_actions hcs hactions (harray.pubRule_eq.trans (if_neg hne))
    obtain ⟨hresult, hrdata⟩ := publish_erase_of_check hchk
    rw [hresult, hrdata] at hregs
    refine ⟨publish c m, ?_, hregs, hnow, hm.csN, hm.same.busy, hm.same.wel, hm.same.pending, hm.same.srOther,
      hm.same.ewsrArmed, hm.same.array⟩
    rw [runCommand_idle _ _ hidle, hcs, hactions, andThen_of_next]

/-! ## Commands that neither program nor erase -/

/-- What the actions of such a command leave where the device, busy at the first frame, has completed its operation by
the publish. -/
structure EndedMeanwhile (code : Code) (s m : State) : Prop extends CheckKept s m where
  device : DeviceIs ((complete Config.env s.dev).withArming (decide (code = 0xF#4) && s.dev.ewsrArmed)) m
  rx : code = 0xF#4 → m.dev.rx = s.dev.rx
  status : code = 0x7#4 → m.sq.cap = srByte Config.env s.dev
  cap : 0x8#4 ≤ code → code ≤ 0xB#4 → m.sq.cap = s.sq.cap

/-- The commands of one frame: READ_SR captures byte 1 of its RDSR frame, and EWSR, WREN and WRDI capture none. -/
theorem oneFrame_cases (c : Env) (w : Latches) (h : code ∈ [0x1#4, 0x7#4, 0x9#4, 0xA#4, 0xB#4, 0xC#4]) :
    ∃ bs cap i, commandSeq c (decodeCode code) w true = [.frame bs cap] ∧ decodeFrame bs = .ok i ∧
      (code = 0x7#4 → bs = frameR .rdsr ∧ cap = some 1) ∧ (0x8#4 ≤ code → code ≤ 0xB#4 → cap = none) := by
  simp only [List.mem_cons, List.not_mem_nil, or_false] at h
  rcases h with rfl | rfl | rfl | rfl | rfl | rfl
  · exact ⟨_, _, _, rfl, decode_read w.addr, nofun, nofun⟩
  · exact ⟨_, _, _, rfl, decode_rdsr, fun _ => ⟨rfl, rfl⟩, nofun⟩
  · exact ⟨_, _, _, rfl, decode_ewsr, nofun, fun _ _ => rfl⟩
  · exact ⟨_, _, _, rfl, decode_wren, nofun, fun _ _ => rfl⟩
  · exact ⟨_, _, _, rfl, decode_wrdi, nofun, fun _ _ => rfl⟩
  · exact ⟨_, _, _, rfl, decode_rdid w.data, nofun, nofun⟩

/-- The device at the start of the first frame, where its operation has not ended by then. -/
theorem deviceIs_accepted_pending {c : Env} (hcs : s.bus.csN = true) (hl : s.dev.left = some k) (h : 2 < k)
    (q : Latches → Bool → List Action) :
    DeviceIs { s.dev with left := some (k - 2) } (accepted c code q s) := by
  rw [← elapseDev_pending (c := c) hl h]
  exact deviceIs_accepted hcs code q

/-- The one frame is ignored, or only read from, and the operation ends during it. -/
theorem oneFrame_ended (hcs : s.bus.csN = true) (hb : s.dev.busy = true) (hl : s.dev.left = some k) (h : 2 < k)
    (hk : k ≤ 1 + latency Config.env code s) (hcode : code ∈ [0x1#4, 0x7#4, 0x9#4, 0xA#4, 0xB#4, 0xC#4]) :
    ∃ m, runActions Config.env (commandSeq Config.env (decodeCode code) (latch code s) true)
      (accepted Config.env code (commandSeq Config.env (decodeCode code)) s) = .next m ∧ EndedMeanwhile code s m := by
  have hF : code ≠ 0xF#4 := by
    rintro rfl
    revert hcode
    decide
  obtain ⟨bs, cap, i, hseq, hi, hstatus, hnone⟩ := oneFrame_cases Config.env (latch code s) hcode
  have hlatency : latency Config.env code s = 1 + frameCycles Config.env bs.length :=
    latency_of_seq (by rw [hcs, hseq]) |>.trans (by rw [seqCycles_singleton]; rfl)
  have hdev := deviceIs_accepted_pending (c := Config.env) (code := code) hcs hl h
    (commandSeq Config.env (decodeCode code))
  obtain ⟨u, w, m, hran, hm⟩ :=
    runFrame_passive (c := Config.env) (a := .frame bs cap) hi hdev (passive_of_busy hi hb)
  rw [← elapseDev_pending (c := Config.env) hl h, elapseDev_add,
    elapseDev_ended hb hl (by omega) (by simp only [Action.bytes]; omega)] at hm
  refine ⟨m, by rw [hseq, runActions_singleton]; exact hran.run, ⟨hran.chk rfl, hran.waitCtr⟩, ?_, fun h => absurd h hF,
    fun h7 => ?_, fun h8 hB => hran.cap (hnone h8 hB)⟩
  · rw [decide_eq_false hF]
    exact hm
  · obtain ⟨rfl, rfl⟩ := hstatus h7
    exact hran.captured hdev rfl (show 1 < 2 by decide) (response_rdsr _)

/-- PrimeEWSR is ignored, and so is the WRSR frame, or the completion has left neither arming nor WEL for it. -/
theorem writeSr_ended (hcs : s.bus.csN = true) (hb : s.dev.busy = true) (hl : s.dev.left = some k) (h : 2 < k)
    (hk : k ≤ 1 + latency Config.env 0x8#4 s) :
    ∃ m, runActions Config.env (commandSeq Config.env (decodeCode 0x8#4) (latch 0x8#4 s) true)
      (accepted Config.env 0x8#4 (commandSeq Config.env (decodeCode 0x8#4)) s) = .next m ∧
      EndedMeanwhile 0x8#4 s m := by
  have hseq : commandSeq Config.env (decodeCode 0x8#4) (latch 0x8#4 s) true =
      primeEwsr (latch 0x8#4 s) ++ [.frame (frameW .wrsr s.regs.wdata) none] := rfl
  have hlatency : latency Config.env 0x8#4 s =
      1 + (primeCycles Config.env (latch 0x8#4 s) + frameCycles Config.env 2) := by
    rw [latency_of_seq (by rw [hcs, hseq]), seqCycles_append, primeEwsr, seqCycles_prime, seqCycles_singleton]
    rfl
  obtain ⟨m1, hrun1, hkept1, h1⟩ := prime_busy (c := Config.env) decode_ewsr (latch 0x8#4 s)
    (deviceIs_accepted_pending hcs hl h (commandSeq Config.env (decodeCode 0x8#4))) fun _ => hb
  rw [← elapseDev_pending (c := Config.env) hl h, elapseDev_add] at h1
  have hp : Passive Config.env (.spiWrsr s.regs.wdata)
      ((elapseDev Config.env true (2 + primeCycles Config.env (latch 0x8#4 s)) s.dev).withArming
        (!s.regs.autoPrime && (elapseDev Config.env true 2 s.dev).ewsrArmed)) := by
    rcases Nat.lt_or_ge (2 + primeCycles Config.env (latch 0x8#4 s)) k with hk2 | hk2
    · rw [elapseDev_pending hl hk2]
      exact passive_of_busy (decode_wrsr _) hb
    · rw [elapseDev_ended hb hl (by omega) hk2]
      have hprime : s.regs.autoPrime = true := by
        by_contra hnot
        have hcycles : primeCycles Config.env (latch 0x8#4 s) = 0 := if_neg hnot
        omega
      rw [hprime]
      exact passive_wrsr _ rfl rfl
  obtain ⟨u, w, m, hran, hm⟩ := runFrame_passive (a := .frame (frameW .wrsr s.regs.wdata) none) (decode_wrsr _) h1 hp
  have hbytes : (Action.frame (frameW .wrsr s.regs.wdata) none).bytes.length = 2 := rfl
  rw [hbytes, elapseDev_withArming, elapseDev_add, withArming_withArming,
    elapseDev_ended hb hl (by omega) (by omega)] at hm
  have hkept := hran.capturesKept rfl rfl
  refine ⟨m, ?_, ⟨hkept.chk.trans hkept1.chk, hkept.waitCtr.trans hkept1.waitCtr⟩, hm, nofun, nofun,
    fun _ _ => hkept.cap.trans hkept1.cap⟩
  rw [hseq, runActions_append, primeEwsr, hrun1, andThen_of_next, runActions_singleton]
  exact hran.run

/-- XFER sends nothing to a deselected device. -/
theorem xfer_ended (hcs : s.bus.csN = true) (hb : s.dev.busy = true) (hl : s.dev.left = some k)
    (hk : k ≤ 1 + latency Config.env 0xF#4 s) :
    ∃ m, runActions Config.env (commandSeq Config.env (decodeCode 0xF#4) (latch 0xF#4 s) true)
      (accepted Config.env 0xF#4 (commandSeq Config.env (decodeCode 0xF#4)) s) = .next m ∧
      EndedMeanwhile 0xF#4 s m := by
  have hlatency : latency Config.env 0xF#4 s = 1 + exchangeCycles Config.env := rfl
  refine ⟨_, runActions_xfer s.regs.wdata _, ?_⟩
  have hdev := (deviceIs_accepted (c := Config.env) hcs 0xF#4 (commandSeq Config.env (decodeCode 0xF#4))).elapse
    (c := Config.env) (exchangeCycles Config.env)
  rw [elapseDev_add, elapseDev_ended hb hl (by omega) (by omega)] at hdev
  generalize hu : elapse Config.env (exchangeCycles Config.env) _ = u at hdev
  have hrx : u.dev.rx = s.dev.rx := hu ▸ rfl
  have hchk : u.sq.chk = s.sq.chk := hu ▸ rfl
  have hwait : u.sq.waitCtr = s.sq.waitCtr := hu ▸ rfl
  have hx := exchange_step (c := Config.env) (s := u) (.xfer s.regs.wdata) 0 s.regs.wdata
  generalize storeByte (.xfer s.regs.wdata) 0 (exchange Config.env s.regs.wdata u) = m at hx
  refine ⟨⟨(hx.chkKept nofun).trans hchk, (congrArg Sequencer.waitCtr hx.sq).trans hwait⟩,
    ⟨hx.csN.trans hdev.csN, hdev.same.trans ?_⟩, fun _ => ?_, nofun, nofun⟩
  · rw [hx.dev]
    exact .of_exchange _ _ _
  · rw [hx.rx, if_pos hdev.csN, hrx]

/-- The rules these commands publish by (30_encoding R108). -/
theorem otherCommand_rule (c : Env) (w : Latches)
    (hcode : code ∈ [0x1#4, 0x7#4, 0x8#4, 0x9#4, 0xA#4, 0xB#4, 0xC#4, 0xF#4]) :
    pubRule (decodeCode code) (commandSeq c (decodeCode code) w true) =
      if 0x8#4 ≤ code ∧ code ≤ 0xB#4 then .okKeep else .okCap := by
  simp only [List.mem_cons, List.not_mem_nil, or_false] at hcode
  rcases hcode with rfl | rfl | rfl | rfl | rfl | rfl | rfl | rfl
  case inr.inr.inl => exact highLevelRule_of_ne_nil (List.append_ne_nil_of_right_ne_nil _ (List.cons_ne_nil _ _)) _
  all_goals rfl

/-- Settles O40: the operation ends during the command, whose frames have no effect of their own. -/
theorem operationsThatEndDuringAnyOtherCommandAreApplied :
    Obligations.OperationsThatEndDuringAnyOtherCommandAreApplied := by
  intro s code op k hidle hcs hwf hb hp hl h2 hk hcode
  have hcases : ∀ code : Code, code ∈ [0x1#4, 0x7#4, 0x8#4, 0x9#4, 0xA#4, 0xB#4, 0xC#4, 0xF#4] →
      code = 0x8#4 ∨ code = 0xF#4 ∨ code ∈ [0x1#4, 0x7#4, 0x9#4, 0xA#4, 0xB#4, 0xC#4] := by decide
  have hrun : ∃ m, runActions Config.env (commandSeq Config.env (decodeCode code) (latch code s) true)
      (accepted Config.env code (commandSeq Config.env (decodeCode code)) s) = .next m ∧ EndedMeanwhile code s m := by
    rcases hcases code hcode with rfl | rfl | hone
    · exact writeSr_ended hcs hb hl h2 hk
    · exact xfer_ended hcs hb hl hk
    · exact oneFrame_ended hcs hb hl h2 hk hone
  obtain ⟨m, hrun, hm⟩ := hrun
  obtain ⟨hexec, hpub⟩ := exec_published code hidle (by rw [hcs]) hrun
  have hresult : pubResult Config.env m.sq (if 0x8#4 ≤ code ∧ code ≤ 0xB#4 then .okKeep else .okCap) = .ok := by
    split <;> rfl
  have hrdata : pubRdata m.sq s.regs.rdata (if 0x8#4 ≤ code ∧ code ≤ 0xB#4 then .okKeep else .okCap) =
      if 0x8#4 ≤ code ∧ code ≤ 0xB#4 then s.regs.rdata else m.sq.cap := by
    split <;> rfl
  rw [otherCommand_rule _ _ hcode, hresult, hrdata] at hpub
  refine ⟨_, _, hexec, hpub, ⟨hm.chk, hm.waitCtr⟩, hm.device.csN, hm.device.publish.operationApplied hwf rfl hp,
    hm.device.same.srOther, hm.device.same.ewsrArmed, hm.rx, fun h7 => ?_,
    fun h8 hB => ⟨if_pos ⟨h8, hB⟩, ⟨hm.chk, hm.waitCtr⟩, hm.cap h8 hB⟩⟩
  rw [if_neg (by rw [h7]; decide), hm.status h7]

end Sys2Proof.Machine

/-! # WRITE_BYTE on an idle device (41_data R153, 45_device R226)

The main frame leaves the device as it was, with WEL at any value, or with the program in progress (`afterArrayOp`).
From there on only time passes: what the check and the read-back find is the device after that time
(`WriteByteRan`). -/

namespace Sys2Proof.Machine

variable {c : Env} {s t m : State} {i : Instr} {v d : Device} {w : Latches} {code : Code} {bs : List Byte} {n : Nat}

/-! ## The main frame of a program or erase on an idle device (45_device R226, R227, R231) -/

/-- The device with the operation `op` in progress, `l` cycles being left of it. -/
def Device.starting (v : Device) (op : Pending) (l : Option Nat) : Device :=
  { v with pending := some op, busy := true, left := l }

/-- What a program or erase of `op` makes of the device `v`: without WEL no effect; protected, WEL becomes `b`; else the
operation starts. -/
def afterArrayOp (prot : Bool) (op : Pending) (b : Bool) (l : Option Nat) (v : Device) : Device :=
  if v.wel then if prot then { v with wel := b } else v.starting op l else v

theorem afterArrayOp_of_not_wel (h : v.wel = false) (prot : Bool) (op : Pending) (b : Bool) (l : Option Nat) :
    afterArrayOp prot op b l v = v := by
  simp [afterArrayOp, h]

theorem afterArrayOp_of_protected (h : v.wel = true) (op : Pending) (b : Bool) (l : Option Nat) :
    afterArrayOp true op b l v = { v with wel := b } := by
  simp [afterArrayOp, h]

theorem afterArrayOp_of_started (h : v.wel = true) (op : Pending) (b : Bool) (l : Option Nat) :
    afterArrayOp false op b l v = v.starting op l := by
  simp [afterArrayOp, h]

theorem afterArrayOp_withArming (prot : Bool) (op : Pending) (b e : Bool) (l : Option Nat) (v : Device) :
    afterArrayOp prot op b l (v.withArming e) = (afterArrayOp prot op b l v).withArming e := by
  have hwel : (v.withArming e).wel = v.wel := rfl
  unfold afterArrayOp
  rw [hwel]
  split
  · split <;> rfl
  · rfl

theorem arrayOp_dev (prot : Bool) (op : Pending) (s : State) :
    (arrayOp c prot op s).dev = afterArrayOp prot op (c.d.wel s.free.wel) (c.d.delay s.free.delay) s.dev := by
  unfold arrayOp afterArrayOp
  split
  · split <;> rfl
  · rfl

theorem SameDevice.afterArrayOp {x : Device} (h : SameDevice v x) (prot : Bool) (op : Pending) (b : Bool)
    (l : Option Nat) : SameDevice (afterArrayOp prot op b l v) (afterArrayOp prot op b l x) := by
  unfold Machine.afterArrayOp
  rw [h.wel]
  split
  · split
    · exact ⟨by rw [h.eq], h.left⟩
    · exact ⟨by rw [h.eq]; rfl, fun _ => rfl⟩
  · exact h

/-- The main frame of a program or erase command on an idle device, with the chip-select gap after it. -/
theorem runFrame_arrayOp {prot : Bool} {op : Pending} (hi : decodeFrame bs = .ok i) (hs : DeviceIs v s)
    (hb : v.busy = false)
    (hact : ∀ u, SameDevice v u.dev → deviceAct c i u = .next (endFrame false (arrayOp c prot op (drive c none u)))) :
    ∃ b t, runAction c (.frame bs none) s = .next t ∧
      DeviceIs (elapseDev c true (cshCycles c)
        ((afterArrayOp prot op b (c.d.delay s.free.delay) v).withArming false)) t := by
  obtain ⟨u, hu, hr⟩ := runFrame_eq (c := c) (s := s) (.frame bs none) hi
  have hsame : SameDevice v u.dev := by
    have h := hu.same hs
    rw [elapseDev_idle _ _ hb] at h
    exact h.of_idle hb
  have hdelay : u.free.delay = s.free.delay := by rw [hu.free]
  refine ⟨c.d.wel u.free.wel, _, by rw [runAction, hr, hact u hsame]; rfl, ?_⟩
  have hcs : (endFrame false (arrayOp c prot op (drive c none u))).bus.csN = true := by
    rw [(deviceAct_next (hact u hsame)).bus, hu.csN]
  refine DeviceIs.gapAfter ⟨hcs, ?_⟩
  rw [endFrame_dev, arrayOp_dev, drive_dev, ← hdelay]
  exact (SameDevice.afterArrayOp (hsame.trans (.of_exchange _ _ _)) _ _ _ _).withArming false

/-- A program or erase command on an idle device, up to the end of its check: the operation it may start runs on through
the wait and the check frame. -/
theorem ArrayCommand.runToCheck_idle {prot : Bool} {op : Pending} (h : ArrayCommand c code w bs i n) (hs : DeviceIs v s)
    (hb : v.busy = false)
    (hact : ∀ u, u.dev.busy = false → u.dev.srOther = v.srOther → u.dev.wel = (w.prime || v.wel) →
      deviceAct c i u = .next (endFrame false (arrayOp c prot op (drive c none u)))) :
    ∃ b m d, runActions c (primeWren w ++ [.frame bs none, .wait n, .check]) s = .next m ∧
      d = afterArrayOp prot op b (c.d.delay s.free.delay) { v with wel := w.prime || v.wel } ∧
      DeviceIs ((elapseDev c true (cshCycles c + n + frameCycles c 2) d).withArming false) m ∧
      m.sq.chk = srByte c (elapseDev c true (cshCycles c + n) d) ∧ m.sq.waitCtr = 0 := by
  obtain ⟨m1, e, hrun1, h1, hdelay⟩ := prime_idle (c := c) w hs hb
  obtain ⟨b, m2, hrun2, h2⟩ := runFrame_arrayOp (prot := prot) (op := op) h.decodes h1 hb fun u hu =>
    hact u (hu.busy.trans hb) hu.srOther hu.wel
  have hrun3 : runAction c (.wait n) m2 = .next (runWait c n m2) := rfl
  obtain ⟨m, hrun4, hm, hchk, hwait⟩ := runCheck (c := c) (h2.runWait (c := c) n)
  rw [hdelay] at hm hchk
  simp only [afterArrayOp_withArming, elapseDev_withArming, elapseDev_add, withArming_withArming] at hm hchk
  refine ⟨b, m, _, ?_, rfl, hm, hchk, hwait⟩
  rw [runActions_append, hrun1, andThen_of_next]
  simp only [runActions, hrun2, hrun3, hrun4, andThen_of_next]

/-! ## WRITE_BYTE -/

/-- The device as WRITE_BYTE's check frame finds it, where the main frame has left `d`. -/
def atCheck (d : Device) : Device := elapseDev Config.env true (cshCycles Config.env + waitBP Config.env) d

/-- WRITE_BYTE to array address `y`, the main frame having left the device `d`. -/
structure WriteByteRan (s : State) (y : Nat) (d : Device) (t : State) : Prop where
  run : exec .writeByte s = .next t
  published : Published 0x2#4
    (if (atCheck d).busy then .deviceBusy else if t.sq.cap = s.regs.wdata then .ok else .verifyFail) t.sq.cap s t
  device : DeviceIs ((elapseDev Config.env true (cshCycles Config.env + waitBP Config.env + frameCycles Config.env 2 +
    frameCycles Config.env 5) d).withArming false) t
  waitCtr : t.sq.waitCtr = 0
  cap : (atCheck d).busy = false → t.sq.cap = arrayByte t y

/-- The program WRITE_BYTE sends to an idle device that has the address (45_device R226). -/
theorem deviceAct_program_idle {a : Addr} {y : Nat} (hloc : locate c a = some y) (x : Byte) (hb : s.dev.busy = false) :
    deviceAct c (.spiProgram a x) s =
      .next (endFrame false (arrayOp c (protectedAt c (srByte c s.dev) y) (.program y x) (drive c none s))) :=
  (addressed_of_located hloc _ s).trans (congrArg _ (whenIdle_of_idle hb _))

theorem writeByte_ran {y : Nat} (hidle : s.sq.step = .idle) (hcs : s.bus.csN = true) (hb : s.dev.busy = false)
    (hloc : locate Config.env s.regs.addr = some y) :
    ∃ b t, WriteByteRan s y
      (afterArrayOp (protectedAt Config.env (idleSr s (enabled s)) y) (.program y s.regs.wdata) b
        (Config.env.d.delay s.free.delay) { s.dev with wel := enabled s }) t := by
  have harray := arrayCommand_writeByte Config.env (latch 0x2#4 s)
  obtain ⟨b, m1, d, hrun1, hd, h1, hchk1, hwait1⟩ := harray.runToCheck_idle
    (prot := protectedAt Config.env (idleSr s (enabled s)) y) (op := .program y s.regs.wdata)
    (deviceIs_accepted_idle hcs hb 0x2#4 (commandSeq Config.env (decodeCode 0x2#4))) hb fun u hub hother hwel => by
      have hsr : srByte Config.env u.dev = idleSr s (enabled s) := srByte_congr hother hub hwel
      rw [← hsr]
      exact deviceAct_program_idle hloc _ hub
  obtain ⟨m, hrun2, hm, hchk, hwait, hcap⟩ := runRead (ad := s.regs.addr) h1 fun _ => hloc
  rw [elapseDev_withArming, elapseDev_add, withArming_withArming] at hm
  have hactions : runActions Config.env (commandSeq Config.env (decodeCode 0x2#4) (latch 0x2#4 s) true)
      (accepted Config.env 0x2#4 (commandSeq Config.env (decodeCode 0x2#4)) s) = .next m := by
    rw [harray.runActions_eq, hrun1, andThen_of_next]
    exact (runActions_singleton _ _).trans hrun2
  obtain ⟨hexec, hpub⟩ := writeByte_published hidle hcs hactions (hchk.trans hchk1)
  refine ⟨b, publish Config.env m, hd ▸ ⟨hexec, hpub, hm.publish, hwait.trans hwait1, fun hidle => ?_⟩⟩
  have hread := elapseDev_busy_of_idle (c := Config.env) true (frameCycles Config.env 2) hidle
  rw [atCheck, elapseDev_add] at hread
  rw [← elapseDev_add, elapseDev_idle _ _ hread] at hm
  exact (hcap hread).trans (congrArg (Memory.read _ · y) hm.same.array.symm)

/-- The main frame has left an idle device. -/
theorem WriteByteRan.of_idle {y : Nat} (h : WriteByteRan s y d t) (hb : d.busy = false)
    (ha : d.array = s.dev.array) :
    Published 0x2#4 (if arrayByte s y = s.regs.wdata then .ok else .verifyFail) (arrayByte s y) s t ∧
      t.dev.array = s.dev.array ∧ t.dev.busy = false ∧ t.dev.wel = d.wel := by
  have hcheck : (atCheck d).busy = false := elapseDev_busy_of_idle _ _ hb
  have hdev := h.device
  rw [elapseDev_idle _ _ hb] at hdev
  have harray : t.dev.array = s.dev.array := hdev.same.array.trans ha
  have hbyte : t.sq.cap = arrayByte s y := (h.cap hcheck).trans (congrArg (Memory.read _ · y) harray)
  have hpub := h.published
  rw [hcheck, if_neg Bool.false_ne_true, hbyte] at hpub
  exact ⟨hpub, harray, hdev.same.busy.trans hb, hdev.same.wel⟩

/-- A started operation completes in the chip-select gap and `n` edges after it exactly where its delay is no longer. -/
theorem completionDue_starting (n : Nat) (op : Pending) (l : Option Nat) :
    completionDue true (cshCycles c + n) (v.starting op l) = l.any (fun k => decide (k ≤ cshCycles c + n)) := by
  have hn : 0 < cshCycles c + n := Nat.add_pos_left (Nat.succ_pos _) n
  simp [completionDue, Device.starting, hn]

/-- The program has started, and the device meets the budget: it has completed by the check. -/
theorem WriteByteRan.of_meetsBudget {y : Nat} {l : Option Nat}
    (h : WriteByteRan s y (v.starting (.program y s.regs.wdata) l) t)
    (hwf : Memory.wf Config.env.d.array s.dev.array) (ha : v.array = s.dev.array)
    (hl : l.any (fun k => decide (k ≤ cshCycles Config.env + waitBP Config.env)) = true) :
    Published 0x2#4 (if arrayByte t y = s.regs.wdata then .ok else .verifyFail) (arrayByte t y) s t ∧
      OperationApplied (.program y s.regs.wdata) s t := by
  have hcheck : atCheck (v.starting (.program y s.regs.wdata) l) =
      complete Config.env (v.starting (.program y s.regs.wdata) l) :=
    elapseDev_of_due ((completionDue_starting _ _ _).trans hl)
  have hdev := h.device
  rw [← elapseDev_add, ← elapseDev_add, ← atCheck, hcheck, elapseDev_complete, elapseDev_complete] at hdev
  have hpub := h.published
  have hidle : (atCheck (v.starting (.program y s.regs.wdata) l)).busy = false := by rw [hcheck]; rfl
  rw [hidle, if_neg Bool.false_ne_true, h.cap hidle] at hpub
  exact ⟨hpub, hdev.operationApplied (v := v.starting _ l) hwf ha rfl⟩

/-- The program has started, and the device does not meet the budget: the check finds it busy, and by the publish it has
completed or is busy still. -/
theorem WriteByteRan.of_overBudget {y : Nat} {l : Option Nat}
    (h : WriteByteRan s y (v.starting (.program y s.regs.wdata) l) t)
    (hwf : Memory.wf Config.env.d.array s.dev.array) (ha : v.array = s.dev.array) (hw : v.wel = true)
    (hl : l.any (fun k => decide (k ≤ cshCycles Config.env + waitBP Config.env)) = false) :
    Published 0x2#4 .deviceBusy t.sq.cap s t ∧
      (OperationInProgress (.program y s.regs.wdata) s t ∨ OperationApplied (.program y s.regs.wdata) s t) := by
  have hcheck : (atCheck (v.starting (.program y s.regs.wdata) l)).busy = true := by
    rw [atCheck, elapseDev_of_not_due ((completionDue_starting _ _ _).trans hl)]
    rfl
  have hpub := h.published
  rw [if_pos hcheck] at hpub
  have hdev := h.device
  refine ⟨hpub, ?_⟩
  rcases elapseDev_cases (c := Config.env) (cshCycles Config.env + waitBP Config.env + frameCycles Config.env 2 +
    frameCycles Config.env 5) (v.starting (.program y s.regs.wdata) l) with ⟨l', hl'⟩ | hdone
  · rw [hl'] at hdev
    exact .inl ⟨hdev.same.busy, hdev.same.wel.trans hw, hdev.same.pending, hdev.same.array.trans ha⟩
  · rw [hdone] at hdev
    exact .inr (hdev.operationApplied (v := v.starting _ l) hwf ha rfl)

/-- A program that has been applied, or not yet, leaves every byte but its own. -/
theorem OperationApplied.program_other {y z : Nat} {x : Byte} (h : OperationApplied (.program y x) s t) (hz : z ≠ y) :
    arrayByte t z = arrayByte s z :=
  (h.program y x rfl z).trans (if_neg hz)

theorem arrayByte_congr (h : t.dev.array = s.dev.array) (z : Nat) : arrayByte t z = arrayByte s z :=
  congrArg (Memory.read _ · z) h

/-- What every WRITE_BYTE leaves, whatever its main frame does. -/
theorem WriteByteRan.kept {y : Nat} (h : WriteByteRan s y d t) :
    t.bus.csN = true ∧ t.dev.srOther = d.srOther ∧ t.dev.ewsrArmed = false ∧ t.sq.cap = t.regs.rdata :=
  ⟨h.device.csN, h.device.same.srOther.trans (elapseDev_srOther _ _), h.device.same.ewsrArmed, by
    rw [h.published.regs]⟩

theorem afterArrayOp_srOther (prot : Bool) (op : Pending) (b : Bool) (l : Option Nat) (v : Device) :
    (afterArrayOp prot op b l v).srOther = v.srOther := by
  unfold afterArrayOp
  split
  · split <;> rfl
  · rfl

/-- Settles O34: the cases of the statement are those of the main frame, and of whether its program has ended by the
check. -/
theorem writeByteProgramsChecksAndVerifies : Obligations.WriteByteProgramsChecksAndVerifies := by
  intro s y hidle hcs hb hwf hloc
  obtain ⟨b, t, h⟩ := writeByte_ran hidle hcs hb hloc
  obtain ⟨hcsN, hother, harmed, hcap⟩ := h.kept
  refine ⟨t, h.run, hcsN, hother.trans (afterArrayOp_srOther _ _ _ _ _), harmed, hcap, h.waitCtr, ?_⟩
  cases hen : enabled s with
  | false =>
    rw [hen, afterArrayOp_of_not_wel rfl] at h
    obtain ⟨hpub, harray, hbusy, hwel⟩ := h.of_idle hb rfl
    rw [if_pos rfl]
    exact ⟨fun z _ => arrayByte_congr harray z, hpub, harray, hbusy, hwel⟩
  | true =>
    rw [hen] at h
    rw [if_neg (by decide)]
    cases hprot : protectedAt Config.env (idleSr s true) y with
    | true =>
      rw [hprot, afterArrayOp_of_protected rfl] at h
      obtain ⟨hpub, harray, hbusy, -⟩ := h.of_idle hb rfl
      rw [if_pos rfl]
      exact ⟨fun z _ => arrayByte_congr harray z, hpub, harray, hbusy⟩
    | false =>
      rw [hprot, afterArrayOp_of_started rfl] at h
      rw [if_neg (by decide)]
      cases hmeets : meetsBudget Config.env (cshCycles Config.env + waitBP Config.env) s with
      | true =>
        obtain ⟨hpub, happlied⟩ := h.of_meetsBudget hwf rfl hmeets
        have hbyte := (happlied.program y _ rfl y).trans (if_pos rfl)
        rw [if_pos rfl]
        exact ⟨fun z hz => happlied.program_other hz, arrayByte t y, hbyte, hpub, rfl, happlied.busy, happlied.wel⟩
      | false =>
        obtain ⟨hpub, hdone⟩ := h.of_overBudget hwf rfl rfl hmeets
        rw [if_neg (by decide)]
        refine ⟨fun z hz => ?_, ⟨_, hpub⟩, hdone⟩
        rcases hdone with hprogress | happlied
        · exact arrayByte_congr hprogress.array z
        · exact happlied.program_other hz

end Sys2Proof.Machine

/-! # The erase commands on an idle device (42_erase R165 to R169, 45_device R227, R231)

An erase publishes by its check alone, and saves no byte in cap. Its main frame leaves the device as it was, with WEL at
any value, or with the erase in progress (`leftByErase`); from there on only time passes (`EraseRan`). -/

namespace Sys2Proof.Machine

variable {c : Env} {s t : State} {a : Action} {i : Instr} {d : Device} {code : Code} {bs : List Byte} {n e : Nat}
  {prot b : Bool} {op : Pending}

/-! ## Actions that save no byte in cap -/

theorem runFrame_cap (hn : a.capIdx = none) (h : runFrame c a s = .next t) : t.sq.cap = s.sq.cap := by
  obtain ⟨x, hx, hgap⟩ := andThen_next h
  obtain ⟨u, hturn, rfl⟩ := deviceTurn_taken hx
  cases hgap
  have hsq : u.sq = (exchangeAll c a 0 a.bytes (csFall s)).sq := hturn.sq
  rw [gapAfter_sq, releaseHeld_sq, hsq]
  exact (exchangeAll_exchanged a a.bytes 0 (csFall s)).capKept fun k hk => by rw [hn] at hk; cases hk

theorem runAction_cap (hn : a.capIdx = none) (h : runAction c a s = .next t) : t.sq.cap = s.sq.cap := by
  cases a with
  | frame bs cap => exact runFrame_cap hn h
  | wait n => cases h; rfl
  | csLow => cases h; rfl
  | csHigh =>
    obtain ⟨x, hx, hgap⟩ := andThen_next h
    obtain ⟨u, hturn, rfl⟩ := deviceTurn_taken hx
    cases hgap
    exact congrArg Sequencer.cap hturn.sq
  | xfer b => cases hn
  | check => exact runFrame_cap hn h

theorem runActions_cap {as : List Action} (hn : ∀ a ∈ as, a.capIdx = none) (h : runActions c as s = .next t) :
    t.sq.cap = s.sq.cap := by
  induction as generalizing s with
  | nil => cases h; rfl
  | cons a as ih =>
    obtain ⟨u, hu, hrest⟩ := andThen_next h
    exact (ih (fun x hx => hn x (.tail _ hx)) hrest).trans (runAction_cap (hn a (.head _)) hu)

/-- An erase saves no byte in cap: neither its frames nor its check. -/
theorem toCheck_capIdx (w : Latches) (bs : List Byte) (n : Nat) :
    ∀ a ∈ primeWren w ++ [.frame bs none, .wait n, .check], a.capIdx = none := by
  intro a ha
  rcases List.mem_append.mp ha with hprime | hmain
  · unfold primeWren at hprime
    split at hprime
    · rw [List.mem_singleton.mp hprime]; rfl
    · cases hprime
  · simp only [List.mem_cons, List.not_mem_nil, or_false] at hmain
    rcases hmain with rfl | rfl | rfl <;> rfl

/-! ## An erase up to its publish -/

/-- The device as the check frame of a command with the wait `n` finds it, where the main frame has left `d`. -/
def foundByCheck (n : Nat) (d : Device) : Device := elapseDev Config.env true (cshCycles Config.env + n) d

/-- What the main frame of the erase `op`, sent by a command accepted in `s`, leaves of the idle device: `prot` says
whether the region is protected, and `b` is the WEL it leaves if so. -/
def leftByErase (prot : Bool) (op : Pending) (b : Bool) (s : State) : Device :=
  afterArrayOp prot op b (Config.env.d.delay s.free.delay) { s.dev with wel := enabled s }

/-- The erase command `code` with the wait `n`, the main frame having left the device `d`. -/
structure EraseRan (code : Code) (n : Nat) (s : State) (d : Device) (t : State) : Prop where
  run : exec (decodeCode code) s = .next t
  published : Published code (if (foundByCheck n d).busy then .deviceBusy else .ok)
    (srByte Config.env (foundByCheck n d)) s t
  device : DeviceIs ((elapseDev Config.env true (cshCycles Config.env + n + frameCycles Config.env 2) d).withArming
    false) t
  chk : t.sq.chk = t.regs.rdata
  waitCtr : t.sq.waitCtr = 0
  cap : t.sq.cap = s.sq.cap

/-- An erase command on an idle device runs to its publish; `hact` is the device's act on its frame. -/
theorem ArrayCommand.erase_ran (h : ArrayCommand Config.env code (latch code s) bs i n) (hcode : code ≠ 0x2#4)
    (hidle : s.sq.step = .idle) (hcs : s.bus.csN = true) (hb : s.dev.busy = false)
    (hact : ∀ u, u.dev.busy = false → srByte Config.env u.dev = idleSr s (enabled s) →
      deviceAct Config.env i u = .next (endFrame false (arrayOp Config.env prot op (drive Config.env none u)))) :
    ∃ b t, EraseRan code n s (leftByErase prot op b s) t := by
  obtain ⟨b, m, d, hrun, hd, hm, hchk, hwait⟩ := h.runToCheck_idle (prot := prot) (op := op)
    (deviceIs_accepted_idle hcs hb code (commandSeq Config.env (decodeCode code))) hb fun u hub hother hwel =>
      hact u hub (srByte_congr hother hub hwel)
  subst hd
  have hcap := runActions_cap (toCheck_capIdx _ _ _) hrun
  obtain ⟨hexec, hpub⟩ := exec_published code hidle (by rw [hcs]) (h.erase_actions hcode hrun)
  obtain ⟨hresult, hrdata⟩ := publish_erase_of_check hchk
  rw [h.pubRule_eq, if_neg hcode, hresult, hrdata] at hpub
  exact ⟨b, publish Config.env m, hexec, hpub, hm.publish, by rw [hpub.regs]; exact hchk, hwait,
    hcap⟩

/-- The main frame has left an idle device. -/
theorem EraseRan.of_idle (h : EraseRan code n s d t) (hb : d.busy = false) (ha : d.array = s.dev.array)
    (ho : d.srOther = s.dev.srOther) :
    Published code .ok (idleSr s t.dev.wel) s t ∧ t.dev.array = s.dev.array ∧ t.dev.busy = false ∧
      t.dev.wel = d.wel := by
  have hdev := h.device
  rw [elapseDev_idle _ _ hb] at hdev
  have hcheck : (foundByCheck n d).busy = false := elapseDev_busy_of_idle _ _ hb
  have hwel : t.dev.wel = d.wel := hdev.same.wel
  have hsr : srByte Config.env (foundByCheck n d) = idleSr s t.dev.wel :=
    srByte_congr ((elapseDev_srOther _ _).trans ho) hcheck (by rw [foundByCheck, elapseDev_idle _ _ hb, hwel])
  have hpub := h.published
  rw [hcheck, if_neg Bool.false_ne_true, hsr] at hpub
  exact ⟨hpub, hdev.same.array.trans ha, hdev.same.busy.trans hb, hwel⟩

/-! ## A started erase -/

section Started

variable {v : Device} {l : Option Nat} (h : EraseRan code n s (v.starting op l) t)

include h

/-- By the publish a started erase is in progress, or it has completed. -/
theorem EraseRan.of_started (hwf : Memory.wf Config.env.d.array s.dev.array) (ha : v.array = s.dev.array)
    (hw : v.wel = true) : OperationInProgress op s t ∨ OperationApplied op s t := by
  have hdev := h.device
  rcases elapseDev_cases (c := Config.env) (cshCycles Config.env + n + frameCycles Config.env 2) (v.starting op l) with
    ⟨l', hl'⟩ | hdone
  · rw [hl'] at hdev
    exact .inl ⟨hdev.same.busy, hdev.same.wel.trans hw, hdev.same.pending, hdev.same.array.trans ha⟩
  · rw [hdone] at hdev
    exact .inr (hdev.operationApplied (v := v.starting op l) hwf ha rfl)

/-- The device meets the budget: the check finds the erase completed. -/
theorem EraseRan.of_meetsBudget (hwf : Memory.wf Config.env.d.array s.dev.array) (ha : v.array = s.dev.array)
    (ho : v.srOther = s.dev.srOther) (hl : l.any (fun k => decide (k ≤ cshCycles Config.env + n)) = true) :
    Published code .ok (idleSr s false) s t ∧ OperationApplied op s t := by
  have hcheck : foundByCheck n (v.starting op l) = complete Config.env (v.starting op l) :=
    elapseDev_of_due ((completionDue_starting _ _ _).trans hl)
  have hsr : srByte Config.env (complete Config.env (v.starting op l)) = idleSr s false := srByte_congr ho rfl rfl
  have hpub := h.published
  rw [hcheck, hsr] at hpub
  have hdev := h.device
  rw [← elapseDev_add, ← foundByCheck, hcheck, elapseDev_complete] at hdev
  exact ⟨hpub, hdev.operationApplied (v := v.starting op l) hwf ha rfl⟩

/-- The device does not meet the budget: the check finds it busy. -/
theorem EraseRan.of_overBudget (ho : v.srOther = s.dev.srOther) (hw : v.wel = true)
    (hl : l.any (fun k => decide (k ≤ cshCycles Config.env + n)) = false) :
    Published code .deviceBusy (srByte Config.env { s.dev with busy := true, wel := true }) s t := by
  have hcheck : foundByCheck n (v.starting op l) =
      { v.starting op l with left := l.map (fun k => k - (cshCycles Config.env + n)) } :=
    elapseDev_of_not_due ((completionDue_starting _ _ _).trans hl)
  have hbusy : (foundByCheck n (v.starting op l)).busy = true := by rw [hcheck]; rfl
  have hsr : srByte Config.env (foundByCheck n (v.starting op l)) =
      srByte Config.env { s.dev with busy := true, wel := true } :=
    srByte_congr ((elapseDev_srOther _ _).trans ho) hbusy (by rw [hcheck]; exact hw)
  have hpub := h.published
  rw [if_pos hbusy, hsr] at hpub
  exact hpub

end Started

/-! ## What an erase publishes and leaves -/

/-- What every erase leaves of the lines and the device, whatever its main frame does. -/
theorem EraseRan.kept (h : EraseRan code n s (leftByErase prot op b s) t) :
    t.bus.csN = true ∧ t.dev.srOther = s.dev.srOther ∧ t.dev.ewsrArmed = false :=
  ⟨h.device.csN, h.device.same.srOther.trans ((elapseDev_srOther _ _).trans (afterArrayOp_srOther _ _ _ _ _)),
    h.device.same.ewsrArmed⟩

/-- The cases of an erase: those of the main frame, and of whether its operation has ended by the check. Protection
(`protOn`) is tested on a device with WEL set, and `erased` is what the operation makes of the array. -/
theorem EraseRan.published_cases {protOn : Bool} {erased : Prop} (h : EraseRan code n s (leftByErase prot op b s) t)
    (hb : s.dev.busy = false) (hwf : Memory.wf Config.env.d.array s.dev.array)
    (hprotOn : enabled s = true → prot = protOn) (herased : OperationApplied op s t → erased) :
    if enabled s = false then
      Published code .ok (idleSr s false) s t ∧ t.dev.array = s.dev.array ∧ t.dev.busy = false ∧ t.dev.wel = false
    else if protOn = true then
      Published code .ok (idleSr s t.dev.wel) s t ∧ t.dev.array = s.dev.array ∧ t.dev.busy = false
    else if meetsBudget Config.env (cshCycles Config.env + n) s = true then
      Published code .ok (idleSr s false) s t ∧ t.dev.busy = false ∧ t.dev.wel = false ∧ erased
    else Published code .deviceBusy (srByte Config.env { s.dev with busy := true, wel := true }) s t ∧
      (OperationInProgress op s t ∨ OperationApplied op s t) := by
  unfold leftByErase at h
  cases hen : enabled s with
  | false =>
    rw [hen, afterArrayOp_of_not_wel rfl] at h
    obtain ⟨hpub, harray, hbusy, hwel⟩ := h.of_idle hb rfl rfl
    rw [hwel] at hpub
    rw [if_pos rfl]
    exact ⟨hpub, harray, hbusy, hwel⟩
  | true =>
    rw [hen, hprotOn hen] at h
    rw [if_neg (by decide)]
    split_ifs with hprot hmeets
    · rw [hprot, afterArrayOp_of_protected rfl] at h
      obtain ⟨hpub, harray, hbusy, -⟩ := h.of_idle hb rfl rfl
      exact ⟨hpub, harray, hbusy⟩
    · rw [Bool.eq_false_of_not_eq_true hprot, afterArrayOp_of_started rfl] at h
      obtain ⟨hpub, happlied⟩ := h.of_meetsBudget hwf rfl rfl hmeets
      exact ⟨hpub, happlied.busy, happlied.wel, herased happlied⟩
    · rw [Bool.eq_false_of_not_eq_true hprot, afterArrayOp_of_started rfl] at h
      exact ⟨h.of_overBudget rfl rfl (Bool.eq_false_of_not_eq_true hmeets), h.of_started hwf rfl rfl⟩

/-- A byte outside the region, and one inside, of an erase that has been applied. -/
theorem OperationApplied.erase_outside {lo hi y : Nat} (h : OperationApplied (.erase lo hi) s t)
    (hy : y < lo ∨ hi ≤ y) : arrayByte t y = arrayByte s y :=
  (h.erase lo hi rfl y).trans (if_neg (by omega))

theorem OperationApplied.erase_inside {lo hi y : Nat} (h : OperationApplied (.erase lo hi) s t) (hlo : lo ≤ y)
    (hhi : y < hi) : arrayByte t y = 0xFF#8 :=
  (h.erase lo hi rfl y).trans (if_pos ⟨hlo, hhi⟩)

/-- Whatever its main frame does, by its publish an erase has left the array as it was, or has been applied. -/
theorem EraseRan.array_cases (h : EraseRan code n s (leftByErase prot op b s) t) (hb : s.dev.busy = false)
    (hwf : Memory.wf Config.env.d.array s.dev.array) :
    t.dev.array = s.dev.array ∨ OperationApplied op s t := by
  have hcases := h.published_cases hb hwf (fun _ => rfl) id
  split_ifs at hcases
  · obtain ⟨-, harray, -⟩ := hcases
    exact .inl harray
  · obtain ⟨-, harray, -⟩ := hcases
    exact .inl harray
  · obtain ⟨-, -, -, happlied⟩ := hcases
    exact .inr happlied
  · obtain ⟨-, hdone⟩ := hcases
    exact hdone.imp_left OperationInProgress.array

theorem EraseRan.outside {lo hi y : Nat} (h : EraseRan code n s (leftByErase prot (.erase lo hi) b s) t)
    (hb : s.dev.busy = false) (hwf : Memory.wf Config.env.d.array s.dev.array) (hy : y < lo ∨ hi ≤ y) :
    arrayByte t y = arrayByte s y := by
  rcases h.array_cases hb hwf with harray | happlied
  · exact arrayByte_congr harray y
  · exact happlied.erase_outside hy

/-! ## The erase commands with an address, and ERASE_CHIP -/

/-- The erase frame an idle device takes that has the address (45_device R227). -/
theorem eraseFrame_idle {ad : Addr} {y : Nat} (hloc : locate c ad = some y) (hb : s.dev.busy = false) :
    eraseFrame c e ad s = .next (endFrame false (arrayOp c (protectedRegion c (srByte c s.dev) (y - y % e) e)
      (.erase (y - y % e) (min (y - y % e + e) (flashSize c))) (drive c none s))) :=
  (addressed_of_located hloc _ s).trans (congrArg _ (whenIdle_of_idle hb _))

theorem chipErase_idle (hb : s.dev.busy = false) :
    deviceAct c .spiChipErase s = .next (endFrame false (arrayOp c (protectedChip c (srByte c s.dev))
      (.erase 0 (flashSize c)) (drive c none s))) :=
  congrArg _ (whenIdle_of_idle hb _)

/-- The three commands differ in their code, the size `e` of their region, their wait `n` and their frame. -/
theorem addressedErase_cases {j : Instr} (s : State)
    (hf : (j, code, e, n) ∈ [(Instr.eraseSector, 0x4#4, sectorSize Config.env, waitSE Config.env),
      (Instr.eraseBlock32, 0x5#4, 32768, waitBE32 Config.env),
      (Instr.eraseBlock64, 0x6#4, 65536, waitBE64 Config.env)]) :
    j = decodeCode code ∧ code ≠ 0x2#4 ∧ ∃ bs i, ArrayCommand Config.env code (latch code s) bs i n ∧
      ∀ u, deviceAct Config.env i u = eraseFrame Config.env e s.regs.addr u := by
  simp only [List.mem_cons, Prod.mk.injEq, List.not_mem_nil, or_false] at hf
  rcases hf with ⟨rfl, rfl, rfl, rfl⟩ | ⟨rfl, rfl, rfl, rfl⟩ | ⟨rfl, rfl, rfl, rfl⟩
  · exact ⟨rfl, by decide, _, _,
      arrayCommand_erase (by decide) rfl (fun _ => rfl) (decode_sectorErase _) fun _ => rfl, fun _ => rfl⟩
  · exact ⟨rfl, by decide, _, _,
      arrayCommand_erase (by decide) rfl (fun _ => rfl) (decode_blockErase32 _) fun _ => rfl, fun _ => rfl⟩
  · exact ⟨rfl, by decide, _, _,
      arrayCommand_erase (by decide) rfl (fun _ => rfl) (decode_blockErase64 _) fun _ => rfl, fun _ => rfl⟩

/-- Settles O35: the three commands are one erase, of the region its frame names. -/
theorem eraseCommandsEraseTheirRegion : Obligations.EraseCommandsEraseTheirRegion := by
  rintro s x hidle hcs hb hwf hloc ⟨j, code, e, n⟩ hf
  obtain ⟨rfl, hcode, bs, i, harray, hact⟩ := addressedErase_cases s hf
  obtain ⟨b, t, h⟩ := harray.erase_ran (prot := protectedRegion Config.env (idleSr s (enabled s)) (x - x % e) e)
    (op := .erase (x - x % e) (min (x - x % e + e) (flashSize Config.env))) hcode hidle hcs hb fun u hub hsr => by
      rw [hact, eraseFrame_idle hloc hub, hsr]
  obtain ⟨hcsN, hother, harmed⟩ := h.kept
  refine ⟨t, h.run, hcsN, hother, harmed, h.cap, h.chk, h.waitCtr,
    fun y hy => h.outside hb hwf (hy.imp_right min_le_iff.mpr), ?_⟩
  exact h.published_cases hb hwf (fun hen => by rw [hen]) fun happlied y hlo hhi hsize =>
    happlied.erase_inside hlo (lt_min hhi hsize)

/-- Settles O36: ERASE_CHIP is the erase of the whole array. -/
theorem eraseChipErasesEveryByte : Obligations.EraseChipErasesEveryByte := by
  intro s hidle hcs hb hwf
  obtain ⟨b, t, h⟩ := (arrayCommand_eraseChip Config.env (latch 0x3#4 s)).erase_ran
    (prot := protectedChip Config.env (idleSr s (enabled s))) (op := .erase 0 (flashSize Config.env))
    (by decide) hidle hcs hb fun u hub hsr => by rw [chipErase_idle hub, hsr]
  obtain ⟨hcsN, hother, harmed⟩ := h.kept
  refine ⟨t, h.run, hcsN, hother, harmed, h.cap, h.chk, h.waitCtr, fun y hy => h.outside hb hwf (.inr hy), ?_⟩
  exact h.published_cases hb hwf (fun hen => by rw [hen]) fun happlied y hy => happlied.erase_inside (Nat.zero_le y) hy

end Sys2Proof.Machine

/-! # The status-register and write-latch commands (43_status_register R180 to R186)

Their frames change nothing of the device but its status bits, WEL and arming (`StatusLatches`), and say how by what the
latches were (`SetsLatches`). While no operation completes, only the countdown moves between them. -/

namespace Sys2Proof.Machine

variable {c : Env} {s t m : State} {a : Action} {i : Instr} {v x : Device} {w : Latches} {code : Code} {bs : List Byte}
  {n : Nat}

/-! ## The status latches of the device -/

/-- The status bits, WEL and EWSR arming (10_state R45): what the frames of these commands may change of the device. -/
structure StatusLatches where
  srOther : Byte
  wel : Bool
  armed : Bool

/-- The status latches of `v`. -/
def Device.latches (v : Device) : StatusLatches := ⟨v.srOther, v.wel, v.ewsrArmed⟩

/-- `v` with its status latches as given. -/
def Device.withLatches (v : Device) (q : StatusLatches) : Device :=
  { v with srOther := q.srOther, wel := q.wel, ewsrArmed := q.armed }

theorem SameDevice.withLatches (h : SameDevice v x) (q : StatusLatches) :
    SameDevice (v.withLatches q) (x.withLatches q) := by
  refine ⟨?_, h.left⟩
  rw [h.eq]
  rfl

theorem SameDevice.latches (h : SameDevice v x) : x.latches = v.latches := by
  rw [h.eq]
  rfl

theorem elapseDev_latches (h : completionDue true n v = false) : (elapseDev c true n v).latches = v.latches := by
  rw [elapseDev_of_not_due h]
  rfl

/-- Elapsing time in which no operation completes neither looks at the status latches nor changes them. -/
theorem elapseDev_withLatches (h : completionDue true n v = false) (q : StatusLatches) :
    elapseDev c true n (v.withLatches q) = (elapseDev c true n v).withLatches q := by
  rw [elapseDev_of_not_due h, elapseDev_of_not_due (v := v.withLatches q) h]
  rfl

/-- The latches after an RDSR frame, and after any other that has no effect (45_device R221, R222, R224). -/
def StatusLatches.disarm (q : StatusLatches) : StatusLatches := { q with armed := false }

/-- After an EWSR frame (R224). -/
def StatusLatches.ewsr (q : StatusLatches) : StatusLatches := { q with armed := true }

/-- After a WREN frame, or a WRDI frame (R225). -/
def StatusLatches.setWel (b : Bool) (q : StatusLatches) : StatusLatches := { q with wel := b, armed := false }

/-- After a WRSR frame (R223). -/
def StatusLatches.wrsr (c : Env) (d : Byte) (q : StatusLatches) : StatusLatches :=
  if q.armed || (c.p.wrenEnablesWrsr && q.wel) then
    { srOther := (q.srOther &&& ~~~(writableMask c)) ||| (d &&& writableMask c)
      wel := !c.p.wrsrClearsWel && q.wel
      armed := false }
  else q.disarm

/-- `f`, but on a busy device, which ignores the frame (45_device R233). -/
def unlessBusy (f : StatusLatches → StatusLatches) (busy : Bool) (q : StatusLatches) : StatusLatches :=
  if busy then q.disarm else f q

/-! ## Frames that set the latches -/

/-- The act on the frame `i` takes the latches of a device, busy or not, to what `f` says, and changes nothing else of it
but what is on MISO. -/
def SetsLatches (c : Env) (i : Instr) (f : Bool → StatusLatches → StatusLatches) : Prop :=
  ∀ u : State, ∃ x, deviceAct c i u = .next x ∧
    x.dev = { u.dev.withLatches (f u.dev.busy u.dev.latches) with out := x.dev.out }

theorem setsLatches_of_whenIdle {g : State → State} {f : StatusLatches → StatusLatches}
    (hi : ∀ u, deviceAct c i u = .next (whenIdle c g u))
    (hg : ∀ u, (g u).dev = { u.dev.withLatches (f u.dev.latches) with out := (g u).dev.out }) :
    SetsLatches c i (unlessBusy f) := by
  refine fun u => ⟨_, hi u, ?_⟩
  unfold whenIdle unlessBusy
  split
  · rfl
  · exact hg u

theorem setsLatches_rdsr (d : Byte) : SetsLatches c (.spiRdsr d) fun _ => .disarm := fun _ => ⟨_, rfl, rfl⟩

theorem setsLatches_ewsr : SetsLatches c .spiEwsr (unlessBusy .ewsr) :=
  setsLatches_of_whenIdle (fun _ => rfl) fun _ => rfl

theorem setsLatches_wren : SetsLatches c .spiWren (unlessBusy (.setWel true)) :=
  setsLatches_of_whenIdle (fun _ => rfl) fun _ => rfl

theorem setsLatches_wrdi : SetsLatches c .spiWrdi (unlessBusy (.setWel false)) :=
  setsLatches_of_whenIdle (fun _ => rfl) fun _ => rfl

theorem setsLatches_wrsr (d : Byte) : SetsLatches c (.spiWrsr d) (unlessBusy (.wrsr c d)) := by
  refine setsLatches_of_whenIdle (fun _ => rfl) fun u => ?_
  have harmed : (drive c none u).dev.ewsrArmed = u.dev.latches.armed := rfl
  have hwel : (drive c none u).dev.wel = u.dev.latches.wel := rfl
  simp only [writeSrOther, StatusLatches.wrsr, harmed, hwel]
  split
  · cases c.p.wrsrClearsWel <;> rfl
  · rfl

/-! ## Their run, while no operation completes -/

/-- The device `n` edges after the CMD write in `s`, none of which has completed an operation, with its latches at `q`. -/
def LatchedAfter (c : Env) (n : Nat) (q : StatusLatches) (s t : State) : Prop :=
  DeviceIs ((elapseDev c true n s.dev).withLatches q) t

/-- What is left of a time in which no operation completes, after its first `n` edges. -/
theorem Steady.not_due {k : Nat} (h : Steady (n + k) s) : completionDue true k (elapseDev c true n s.dev) = false := by
  rw [elapseDev_steady true n (h.mono (Nat.le_add_right n k))]
  refine completionDue_steady fun hb j hj => ?_
  obtain ⟨l, hl, rfl⟩ := Option.map_eq_some_iff.mp hj
  have := h hb l hl
  omega

/-- The first frame starts two edges after the CMD write. -/
theorem latchedAfter_accepted (hcs : s.bus.csN = true) (h : Steady 2 s) (q : Latches → Bool → List Action) :
    LatchedAfter c 2 s.dev.latches s (accepted c code q s) := by
  have hdev := deviceIs_accepted (c := c) hcs code q
  rw [← elapseDev_latches (c := c) (completionDue_steady h)]
  exact hdev

/-- A frame that sets the latches. -/
theorem LatchedAfter.frame {q : StatusLatches} {f : Bool → StatusLatches → StatusLatches} (h : LatchedAfter c n q s t)
    (hsteady : Steady (n + frameCycles c a.bytes.length) s) (hi : decodeFrame a.bytes = .ok i)
    (hf : SetsLatches c i f) :
    ∃ u x m, FrameRan c a i t u x m ∧ LatchedAfter c (n + frameCycles c a.bytes.length) (f s.dev.busy q) s m := by
  have hbusy : (elapseDev c true n s.dev).busy = s.dev.busy := by
    rw [elapseDev_steady true n (hsteady.mono (Nat.le_add_right _ _))]
  unfold LatchedAfter
  rw [← elapseDev_add, ← elapseDev_withLatches hsteady.not_due, frameCycles,
    ← elapseDev_selected_gap _ (show 0 < cshCycles c from Nat.succ_pos _)]
  refine runFrame_acted hi h fun u hu => ?_
  rw [elapseDev_selected] at hu
  have hub : u.dev.busy = s.dev.busy := hu.busy.trans hbusy
  obtain ⟨y, hy, hdev⟩ := hf u
  refine ⟨y, hy, ?_⟩
  rw [hdev, hu.latches, hub, elapseDev_selected]
  exact (hu.withLatches (f s.dev.busy q)).trans (.of_exchange _ _ _)

/-- What a command has left of the device that has set its latches to `q`. -/
structure OnlyLatched (q : StatusLatches) (s t : State) : Prop where
  csN : t.bus.csN = true
  array : t.dev.array = s.dev.array
  busy : t.dev.busy = s.dev.busy
  pending : t.dev.pending = s.dev.pending
  latches : t.dev.latches = q

theorem LatchedAfter.onlyLatched {q : StatusLatches} (h : LatchedAfter c n q s t) (hsteady : Steady n s) :
    OnlyLatched q s t := by
  rw [LatchedAfter, elapseDev_steady true n hsteady] at h
  exact ⟨h.csN, h.same.array, h.same.busy, h.same.pending, h.same.latches⟩

theorem OnlyLatched.of_eq {q q' : StatusLatches} (h : OnlyLatched q s t) (hq : q = q') : OnlyLatched q' s t := hq ▸ h

theorem OnlyLatched.srOther {q : StatusLatches} (h : OnlyLatched q s t) : t.dev.srOther = q.srOther :=
  congrArg StatusLatches.srOther h.latches

theorem OnlyLatched.wel {q : StatusLatches} (h : OnlyLatched q s t) : t.dev.wel = q.wel :=
  congrArg StatusLatches.wel h.latches

theorem OnlyLatched.armed {q : StatusLatches} (h : OnlyLatched q s t) : t.dev.ewsrArmed = q.armed :=
  congrArg StatusLatches.armed h.latches

theorem OnlyLatched.arrayKept {q : StatusLatches} (h : OnlyLatched q s t) (hq : q.srOther = s.dev.srOther) :
    ArrayKept s t :=
  ⟨h.array, h.busy, h.pending, h.srOther.trans hq⟩

theorem OnlyLatched.publish {q : StatusLatches} (h : OnlyLatched q s t) : OnlyLatched q s (publish c t) :=
  ⟨h.csN, h.array, h.busy, h.pending, h.latches⟩

/-! ## The commands of one frame: READ_SR, EWSR, WREN and WRDI (43_status_register R180, R182 to R184) -/

theorem latency_oneFrame {cap : Option Nat}
    (hseq : commandSeq c (decodeCode code) (latch code s) s.bus.csN = [.frame bs cap]) :
    1 + latency c code s = 2 + frameCycles c bs.length := by
  have hcycles : (Action.frame bs cap).cycles c = frameCycles c bs.length := rfl
  rw [latency_of_seq hseq, seqCycles_singleton, hcycles]
  omega

theorem seqReadSr_deselected (hcs : s.bus.csN = true) :
    commandSeq c (decodeCode 0x7#4) (latch 0x7#4 s) s.bus.csN = [.frame (frameR .rdsr) (some 1)] := by
  rw [hcs]
  rfl

/-- Settles O42: the one frame of READ_SR captures the status byte and only disarms. -/
theorem readSrPublishesTheStatusByte : Obligations.ReadSrPublishesTheStatusByte := by
  intro s hidle hcs hsteady
  have hseq := seqReadSr_deselected (c := Config.env) hcs
  rw [latency_oneFrame hseq] at hsteady
  have hdev := latchedAfter_accepted (c := Config.env) (code := 0x7#4) hcs (hsteady.mono (Nat.le_add_right _ _))
    (commandSeq Config.env (decodeCode 0x7#4))
  obtain ⟨u, y, m, hran, hm⟩ := hdev.frame (a := .frame (frameR .rdsr) (some 1)) hsteady decode_rdsr
    (setsLatches_rdsr _)
  obtain ⟨hexec, hpub⟩ := exec_published 0x7#4 hidle hseq ((runActions_singleton _ _).trans hran.run)
  have hleft := (hm.onlyLatched hsteady).publish (c := Config.env)
  have hcap : m.sq.cap = srByte Config.env s.dev := by
    refine hran.captured hdev rfl (show 1 < 2 by decide) ((response_rdsr _).trans ?_)
    rw [elapseDev_steady true 2 (hsteady.mono (Nat.le_add_right 2 _))]
    rfl
  refine ⟨_, hexec, ?_, ⟨hran.chk rfl, hran.waitCtr⟩, ⟨hleft.arrayKept rfl, hleft.wel⟩, hleft.armed, hleft.csN⟩
  rw [← hcap]
  exact hpub

/-- A command of one frame that saves no byte publishes OK and sets the latches as its frame does. -/
theorem latchCommand_published {f : Bool → StatusLatches → StatusLatches} (hidle : s.sq.step = .idle)
    (hcs : s.bus.csN = true) (hsteady : Steady (2 + frameCycles Config.env bs.length) s)
    (hseq : commandSeq Config.env (decodeCode code) (latch code s) true = [.frame bs none])
    (hrule : pubRule (decodeCode code) [.frame bs none] = .okKeep) (hi : decodeFrame bs = .ok i)
    (hf : SetsLatches Config.env i f) :
    ∃ t, exec (decodeCode code) s = .next t ∧ Published code .ok s.regs.rdata s t ∧ CapturesKept s t ∧
      OnlyLatched (f s.dev.busy s.dev.latches) s t := by
  have hdev := latchedAfter_accepted (c := Config.env) (code := code) hcs (hsteady.mono (Nat.le_add_right _ _))
    (commandSeq Config.env (decodeCode code))
  obtain ⟨u, y, m, hran, hm⟩ := hdev.frame (a := .frame bs none) hsteady hi hf
  obtain ⟨hexec, hpub⟩ := exec_published code hidle (as := [.frame bs none]) (by rw [hcs, hseq])
    ((runActions_singleton _ _).trans hran.run)
  rw [hrule] at hpub
  have hkept := hran.capturesKept rfl rfl
  exact ⟨_, hexec, hpub, ⟨⟨hkept.chk, hkept.waitCtr⟩, hkept.cap⟩, (hm.onlyLatched hsteady).publish⟩

theorem unlessBusy_ewsr (busy : Bool) (q : StatusLatches) :
    unlessBusy .ewsr busy q = { q with armed := !busy } := by
  cases busy <;> rfl

theorem unlessBusy_wren (busy : Bool) (q : StatusLatches) :
    unlessBusy (.setWel true) busy q = { q with wel := !busy || q.wel, armed := false } := by
  cases busy <;> rfl

theorem unlessBusy_wrdi (busy : Bool) (q : StatusLatches) :
    unlessBusy (.setWel false) busy q = { q with wel := busy && q.wel, armed := false } := by
  cases busy <;> rfl

/-- Settles O44: each of the three commands sets the latches as its one frame does. -/
theorem latchCommandsSetWelAndArming : Obligations.LatchCommandsSetWelAndArming := by
  intro s hidle hcs hsteady
  have hseq : commandSeq Config.env (decodeCode 0xA#4) (latch 0xA#4 s) s.bus.csN = [.frame (frameN .wren) none] := by
    rw [hcs]
    rfl
  rw [latency_oneFrame hseq] at hsteady
  refine ⟨?_, ?_, ?_⟩
  · obtain ⟨t, hexec, hpub, hkept, hleft⟩ :=
      latchCommand_published (bs := frameN .ewsr) (code := 0x9#4) hidle hcs hsteady rfl rfl decode_ewsr setsLatches_ewsr
    rw [unlessBusy_ewsr] at hleft
    exact ⟨t, hexec, hpub, hkept, ⟨hleft.arrayKept rfl, hleft.wel⟩, hleft.csN, hleft.armed⟩
  · obtain ⟨t, hexec, hpub, hkept, hleft⟩ :=
      latchCommand_published (bs := frameN .wren) (code := 0xA#4) hidle hcs hsteady rfl rfl decode_wren setsLatches_wren
    rw [unlessBusy_wren] at hleft
    exact ⟨t, hexec, hpub, hkept, hleft.arrayKept rfl, hleft.csN, hleft.armed, hleft.wel⟩
  · obtain ⟨t, hexec, hpub, hkept, hleft⟩ :=
      latchCommand_published (bs := frameN .wrdi) (code := 0xB#4) hidle hcs hsteady rfl rfl decode_wrdi setsLatches_wrdi
    rw [unlessBusy_wrdi] at hleft
    exact ⟨t, hexec, hpub, hkept, hleft.arrayKept rfl, hleft.csN, hleft.armed, hleft.wel⟩

/-! ## WRITE_SR (43_status_register R181, R186) -/

theorem seqWriteSr_deselected (hcs : s.bus.csN = true) :
    commandSeq c (decodeCode 0x8#4) (latch 0x8#4 s) s.bus.csN =
      primeEwsr (latch 0x8#4 s) ++ [.frame (frameW .wrsr s.regs.wdata) none] := by
  rw [hcs]
  rfl

theorem latency_writeSr (hcs : s.bus.csN = true) :
    1 + latency c 0x8#4 s = 2 + primeCycles c (latch 0x8#4 s) + frameCycles c 2 := by
  have hcycles : (Action.frame (frameW .wrsr s.regs.wdata) none).cycles c = frameCycles c 2 := rfl
  rw [latency_of_seq (seqWriteSr_deselected hcs), seqCycles_append, primeEwsr, seqCycles_prime, seqCycles_singleton,
    hcycles]
  omega

/-- The latches after PrimeEWSR, where the command primes. -/
def StatusLatches.primed (prime busy : Bool) (q : StatusLatches) : StatusLatches :=
  if prime then unlessBusy .ewsr busy q else q

theorem LatchedAfter.primeEwsr {q : StatusLatches} (h : LatchedAfter c n q s t)
    (hsteady : Steady (n + primeCycles c w) s) :
    ∃ m, runActions c (primeEwsr w) t = .next m ∧ CapturesKept t m ∧
      LatchedAfter c (n + primeCycles c w) (q.primed w.prime s.dev.busy) s m := by
  unfold Machine.primeEwsr StatusLatches.primed
  unfold primeCycles at hsteady ⊢
  cases hw : w.prime with
  | false => exact ⟨t, rfl, ⟨⟨rfl, rfl⟩, rfl⟩, h⟩
  | true =>
    rw [hw] at hsteady
    obtain ⟨u, y, m, hran, hm⟩ := h.frame (a := .frame (frameN .ewsr) none) hsteady decode_ewsr setsLatches_ewsr
    exact ⟨m, (runActions_singleton _ _).trans hran.run, hran.capturesKept rfl rfl, hm⟩

/-- PrimeEWSR arms a WRSR frame on an idle device; without it the device must have been armed, or WEL must arm it. -/
theorem wrsr_primed (d : Byte) (prime busy : Bool) (q : StatusLatches) :
    unlessBusy (.wrsr c d) busy (q.primed prime busy) =
      if busy = false ∧ (prime = true ∨ q.armed = true ∨ c.p.wrenEnablesWrsr = true ∧ q.wel = true) then
        { srOther := (q.srOther &&& ~~~(writableMask c)) ||| (d &&& writableMask c)
          wel := !c.p.wrsrClearsWel && q.wel
          armed := false }
      else q.disarm := by
  cases busy with
  | true => cases prime <;> rfl
  | false =>
    cases prime with
    | true => rfl
    | false => simp [unlessBusy, StatusLatches.primed, StatusLatches.wrsr]

/-- Settles O43: PrimeEWSR and the WRSR frame set the latches one after the other. -/
theorem writeSrWritesTheWritableBits : Obligations.WriteSrWritesTheWritableBits := by
  intro s hidle hcs hsteady
  rw [latency_writeSr hcs] at hsteady
  have hdev := latchedAfter_accepted (c := Config.env) (code := 0x8#4) hcs (hsteady.mono (by omega))
    (commandSeq Config.env (decodeCode 0x8#4))
  obtain ⟨m1, hrun1, hkept1, h1⟩ := hdev.primeEwsr (w := latch 0x8#4 s) (hsteady.mono (Nat.le_add_right _ _))
  obtain ⟨u, y, m, hran, hm⟩ := h1.frame (a := .frame (frameW .wrsr s.regs.wdata) none) hsteady (decode_wrsr _)
    (setsLatches_wrsr _)
  have hrun : runActions Config.env (primeEwsr (latch 0x8#4 s) ++ [.frame (frameW .wrsr s.regs.wdata) none])
      (accepted Config.env 0x8#4 (commandSeq Config.env (decodeCode 0x8#4)) s) = .next m := by
    rw [runActions_append, hrun1, andThen_of_next, runActions_singleton]
    exact hran.run
  have hrule : pubRule (decodeCode 0x8#4)
      (primeEwsr (latch 0x8#4 s) ++ [.frame (frameW .wrsr s.regs.wdata) none]) = .okKeep :=
    highLevelRule_of_ne_nil (List.append_ne_nil_of_right_ne_nil _ (List.cons_ne_nil _ _)) _
  obtain ⟨hexec, hpub⟩ := exec_published 0x8#4 hidle (seqWriteSr_deselected hcs) hrun
  rw [hrule] at hpub
  have hkept := hran.capturesKept rfl rfl
  have hleft := (hm.onlyLatched hsteady).publish (c := Config.env)
  have hlatches := wrsr_primed (c := Config.env) s.regs.wdata s.regs.autoPrime s.dev.busy s.dev.latches
  refine ⟨_, hexec, hpub, ⟨⟨hkept.chk.trans hkept1.chk, hkept.waitCtr.trans hkept1.waitCtr⟩,
    hkept.cap.trans hkept1.cap⟩, hleft.csN, hleft.array, hleft.busy, hleft.pending, ?_, ?_⟩
  · refine (hleft.of_eq hlatches).armed.trans ?_
    split <;> rfl
  · split
    case isTrue hwrites =>
      have hset := hleft.of_eq (hlatches.trans (if_pos hwrites))
      exact ⟨hset.srOther, hset.wel⟩
    case isFalse hignored =>
      have hset := hleft.of_eq (hlatches.trans (if_neg hignored))
      exact ⟨hset.srOther, hset.wel⟩

end Sys2Proof.Machine

/-! # READ_ID (44_identification R200, R201)

Its one frame, RDID, saves byte 4, and changes nothing of the device but arming. On an idle device that byte rests on the
selector alone (`idByte`), which is why the command repeats. -/

namespace Sys2Proof.Machine

variable {c : Env} {s t : State}

/-! ## The RDID frame (45_device R228) -/

theorem setsLatches_rdid (zero0 zero1 sel dummy : Byte) :
    SetsLatches c (.spiRdid zero0 zero1 sel dummy) (unlessBusy .disarm) :=
  setsLatches_of_whenIdle (fun _ => rfl) fun _ => rfl

theorem unlessBusy_disarm (busy : Bool) (q : StatusLatches) : unlessBusy .disarm busy q = q.disarm := by
  cases busy <;> rfl

theorem idByte_mfr : idByte c 0x00#8 = some c.p.mfrId := rfl

theorem idByte_dev : idByte c 0x01#8 = some c.p.devId := rfl

theorem idByte_of_selector {sel : Byte} (h : sel = 0x00#8 ∨ sel = 0x01#8) : ∃ b, idByte c sel = some b := by
  rcases h with rfl | rfl
  · exact ⟨_, idByte_mfr⟩
  · exact ⟨_, idByte_dev⟩

/-! ## The command -/

theorem seqReadId_deselected (hcs : s.bus.csN = true) :
    commandSeq c (decodeCode 0xC#4) (latch 0xC#4 s) s.bus.csN = [.frame (frameID .rdid s.regs.wdata) (some 4)] := by
  rw [hcs]
  rfl

/-- READ_ID publishes the byte its frame has saved: on an idle device the identification byte of WDATA, where there is
one. -/
theorem readId_published (hidle : s.sq.step = .idle) (hcs : s.bus.csN = true)
    (hsteady : Steady (1 + latency Config.env 0xC#4 s) s) :
    ∃ t d, exec .readId s = .next t ∧ Published 0xC#4 .ok d s t ∧ CheckKept s t ∧ DevKept s t ∧
      t.dev.ewsrArmed = false ∧ t.bus.csN = true ∧
      (s.dev.busy = false → ∀ b, idByte Config.env s.regs.wdata = some b → d = b) := by
  have hseq := seqReadId_deselected (c := Config.env) hcs
  rw [latency_oneFrame hseq] at hsteady
  have hdev := latchedAfter_accepted (c := Config.env) (code := 0xC#4) hcs (hsteady.mono (Nat.le_add_right _ _))
    (commandSeq Config.env (decodeCode 0xC#4))
  obtain ⟨u, y, m, hran, hm⟩ := hdev.frame (a := .frame (frameID .rdid s.regs.wdata) (some 4)) hsteady
    (decode_rdid _) (setsLatches_rdid _ _ _ _)
  obtain ⟨hexec, hpub⟩ := exec_published 0xC#4 hidle hseq ((runActions_singleton _ _).trans hran.run)
  have hleft := ((hm.onlyLatched hsteady).publish (c := Config.env)).of_eq (unlessBusy_disarm _ _)
  refine ⟨_, m.sq.cap, hexec, hpub, ⟨hran.chk rfl, hran.waitCtr⟩, ⟨hleft.arrayKept rfl, hleft.wel⟩, hleft.armed,
    hleft.csN, fun hb b hid => ?_⟩
  have hidleDev : ((elapseDev Config.env true 2 s.dev).withLatches s.dev.latches).busy = false := by
    rw [elapseDev_idle true 2 hb]
    exact hb
  exact hran.captured hdev rfl (show 4 < 5 by decide) ((response_rdid _ hidleDev).trans hid)

/-- Settles O45: the identification byte of selector 0x00 is MFR_ID, and of 0x01 DEV_ID. -/
theorem readIdPublishesTheIdentification : Obligations.ReadIdPublishesTheIdentification := by
  intro s hidle hcs hsteady
  obtain ⟨t, d, hexec, hpub, hcheck, hkept, harmed, hcsN, hid⟩ := readId_published hidle hcs hsteady
  exact ⟨t, d, hexec, hpub, hcheck, hkept, harmed, hcsN,
    fun hb hw => hid hb _ (by rw [hw, idByte_mfr]), fun hb hw => hid hb _ (by rw [hw, idByte_dev])⟩

/-- On an idle device RDATA is a function of the selector. -/
theorem readId_rdata {b : Byte} (hidle : s.sq.step = .idle) (hcs : s.bus.csN = true) (hb : s.dev.busy = false)
    (hid : idByte Config.env s.regs.wdata = some b) (h : exec .readId s = .next t) : t.regs.rdata = b := by
  obtain ⟨t', d, hexec, hpub, -, -, -, -, hd⟩ := readId_published hidle hcs (steady_of_idle _ hb)
  obtain rfl : t' = t := by simpa using hexec.symm.trans h
  rw [hpub.regs]
  exact hd hb b hid

/-- Settles O57: both commands publish the identification byte of the selector. -/
theorem readIdIsRepeatable : Obligations.ReadIdIsRepeatable := by
  intro s s' t t' hidle hcs hb hidle' hcs' hb' hsame hsel hexec hexec'
  obtain ⟨b, hid⟩ := idByte_of_selector (c := Config.env) hsel
  have hid' : idByte Config.env s'.regs.wdata = some b := by rw [← hsame, hid]
  rw [readId_rdata hidle hcs hb hid hexec, readId_rdata hidle' hcs' hb' hid' hexec']

end Sys2Proof.Machine

/-! # The device's frames (45_device R220 to R233)

A frame that only disarms (`OnlyDisarmed`), one that sets the status latches (`SetsLatches`) and one that may start an
operation (`arrayOp`) each leave of the machine what one lemma says; the frames differ in which of them they are. -/

namespace Sys2Proof.Machine

variable {c : Env} {s t : State} {i : Instr} {a : Addr} {x : Nat} {prot : Bool} {op : Pending}

/-! ## Frames that only disarm -/

theorem OnlyDisarmed.devKept (h : OnlyDisarmed s t) : DevKept s t := by
  refine ⟨⟨?_, ?_, ?_, ?_⟩, ?_⟩ <;> rw [h]

theorem OnlyDisarmed.left (h : OnlyDisarmed s t) : t.dev.left = s.dev.left := by rw [h]

theorem OnlyDisarmed.armed (h : OnlyDisarmed s t) : t.dev.ewsrArmed = false := by rw [h]

/-- Such a frame acts in every state whose device is `v`. -/
theorem Passive.act (h : Passive c i s.dev) : ∃ t, deviceAct c i s = .next t ∧ OnlyDisarmed s t := h s rfl

/-- Settles O27: a busy device ignores the frame, or answers it, and in either case only disarms. -/
theorem busyDeviceIgnoresEveryFrameButRdsr : Obligations.BusyDeviceIgnoresEveryFrameButRdsr := by
  intro s bs i hb hi _
  obtain ⟨t, hact, hd⟩ := (passive_of_busy (c := Config.env) hi hb).act
  have hk := deviceAct_next hact
  exact ⟨t, (exec_of_frame hi).trans hact, hk.toFcsKept, hd.devKept, hk.rx, hd.left, hd.armed⟩

theorem decode_spiRead (a : Addr) (dummy : Byte) :
    decodeFrame (addrFrame .read a [dummy]) = .ok (.spiRead a dummy) :=
  decodeOfEncodeIsTheInstruction (.spiRead a dummy)

theorem deviceAct_read_idle (hloc : locate c a = some x) (hb : s.dev.busy = false) (dummy : Byte) :
    deviceAct c (.spiRead a dummy) s =
      .next (endFrame false (drive c (some (Memory.read c.d.array s.dev.array x)) s)) :=
  (addressed_of_located hloc _ s).trans (congrArg _ (whenIdle_of_idle hb _))

/-- Settles O18: a READ frame only disarms, and an idle device answers with the array byte. -/
theorem readFrameAnswersWithTheArrayByte : Obligations.ReadFrameAnswersWithTheArrayByte := by
  intro s a dummy x hloc
  cases hb : s.dev.busy with
  | true =>
    obtain ⟨t, hact, hd⟩ := (passive_of_busy (c := Config.env) (decode_spiRead a dummy) hb).act
    have hk := deviceAct_next hact
    exact ⟨t, hact, hk.toFcsKept, hd.devKept, hk.rx, hd.armed, nofun⟩
  | false =>
    have hact := deviceAct_read_idle (hloc hb) hb dummy
    have hk := deviceAct_next hact
    exact ⟨_, hact, hk.toFcsKept, OnlyDisarmed.devKept rfl, hk.rx, rfl, fun _ => rfl⟩

/-! ## Frames that set the status latches -/

/-- What such a frame leaves: the latches set, and the rest of the device and all of the FCS as before. -/
structure LatchesSet (q : StatusLatches) (s t : State) : Prop extends FcsKept s t where
  array : t.dev.array = s.dev.array
  busy : t.dev.busy = s.dev.busy
  pending : t.dev.pending = s.dev.pending
  rx : t.dev.rx = s.dev.rx
  srOther : t.dev.srOther = q.srOther
  wel : t.dev.wel = q.wel
  armed : t.dev.ewsrArmed = q.armed

theorem SetsLatches.act {f : Bool → StatusLatches → StatusLatches} (h : SetsLatches c i f) (s : State) :
    ∃ t, deviceAct c i s = .next t ∧ LatchesSet (f s.dev.busy s.dev.latches) s t := by
  obtain ⟨t, hact, hd⟩ := h s
  have hk := deviceAct_next hact
  refine ⟨t, hact, hk.toFcsKept, hk.array, ?_, ?_, hk.rx, ?_, ?_, ?_⟩ <;> rw [hd] <;> rfl

theorem LatchesSet.arrayKept {q : StatusLatches} (h : LatchesSet q s t) (hq : q.srOther = s.dev.srOther) :
    ArrayKept s t :=
  ⟨h.array, h.busy, h.pending, h.srOther.trans hq⟩

theorem LatchesSet.devKept {q : StatusLatches} (h : LatchesSet q s t) (hq : q.srOther = s.dev.srOther)
    (hw : q.wel = s.dev.wel) : DevKept s t :=
  ⟨h.arrayKept hq, h.wel.trans hw⟩

/-- Settles O23: the latches each of the three frames sets. -/
theorem latchFramesSetWelAndArming : Obligations.LatchFramesSetWelAndArming := by
  intro s
  obtain ⟨t1, hact1, h1⟩ := (setsLatches_wren (c := Config.env)).act s
  obtain ⟨t2, hact2, h2⟩ := (setsLatches_wrdi (c := Config.env)).act s
  obtain ⟨t3, hact3, h3⟩ := (setsLatches_ewsr (c := Config.env)).act s
  rw [unlessBusy_wren] at h1
  rw [unlessBusy_wrdi] at h2
  rw [unlessBusy_ewsr] at h3
  exact ⟨⟨t1, hact1, h1.toFcsKept, h1.arrayKept rfl, h1.rx, h1.armed, h1.wel⟩,
    ⟨t2, hact2, h2.toFcsKept, h2.arrayKept rfl, h2.rx, h2.armed, h2.wel⟩,
    ⟨t3, hact3, h3.toFcsKept, h3.devKept rfl rfl, h3.rx, h3.armed⟩⟩

/-- Settles O25: RDSR only disarms, and its answer is the status byte. -/
theorem rdsrFrameAnswersWithTheStatusByte : Obligations.RdsrFrameAnswersWithTheStatusByte := by
  intro s dummy
  have hact : deviceAct Config.env (.spiRdsr dummy) s =
    .next (endFrame false (drive Config.env (some (srByte Config.env s.dev)) s)) := rfl
  have hk := deviceAct_next hact
  exact ⟨_, hact, hk.toFcsKept, OnlyDisarmed.devKept rfl, hk.rx, rfl, fun _ hi => srByte_bit Config.env s.dev hi⟩

/-- On an idle device an RDID frame leaves the identification byte on MISO, where its selector has one. -/
theorem devRdid_out {sel b : Byte} (hact : devRdid c sel s = .next t) (hb : s.dev.busy = false)
    (hid : idByte c sel = some b) : t.dev.out = b := by
  rw [devRdid, whenIdle_of_idle hb, hid] at hact
  cases hact
  rfl

/-- Settles O26: RDID only disarms, and its answer is that of its selector. -/
theorem rdidFrameAnswersWithTheIdentification : Obligations.RdidFrameAnswersWithTheIdentification := by
  intro s zero0 zero1 sel dummy
  obtain ⟨t, hact, h⟩ := (setsLatches_rdid (c := Config.env) zero0 zero1 sel dummy).act s
  rw [unlessBusy_disarm] at h
  refine ⟨t, hact, h.toFcsKept, h.devKept rfl rfl, h.rx, h.armed, fun hb hsel => ?_, fun hb hsel => ?_⟩
  · exact devRdid_out hact hb (by rw [hsel, idByte_mfr])
  · exact devRdid_out hact hb (by rw [hsel, idByte_dev])

/-- The status bits after a WRSR frame, bit by bit (45_device R223). -/
theorem written_srOther_bit (c : Env) (old d : Byte) {i : Nat} (hi : i < 8) :
    ((old &&& ~~~(writableMask c)) ||| (d &&& writableMask c)).getLsbD i =
      if c.p.srWritable.getLsbD i = true ∧ i ≠ c.p.busyBit.val ∧ i ≠ welBit c then d.getLsbD i else old.getLsbD i := by
  have hmask : (c.p.srWritable.getLsbD i = true ∧ i ≠ c.p.busyBit.val ∧ i ≠ welBit c) ↔
      (writableMask c).getLsbD i = true := by
    simp only [writableMask_bit c hi, Bool.and_eq_true, decide_eq_true_eq, and_assoc]
  rw [if_congr hmask rfl rfl, BitVec.getLsbD_or, BitVec.getLsbD_and, BitVec.getLsbD_and, BitVec.getLsbD_not]
  cases (writableMask c).getLsbD i <;> simp [hi]

/-- The latches a WRSR frame leaves, by the condition of 45_device R223. -/
theorem unlessBusy_wrsr (d : Byte) (busy : Bool) (q : StatusLatches) :
    unlessBusy (.wrsr c d) busy q =
      if busy = false ∧ (q.armed = true ∨ c.p.wrenEnablesWrsr = true ∧ q.wel = true) then
        { srOther := (q.srOther &&& ~~~(writableMask c)) ||| (d &&& writableMask c)
          wel := !c.p.wrsrClearsWel && q.wel
          armed := false }
      else q.disarm := by
  simpa [StatusLatches.primed] using wrsr_primed (c := c) d false busy q

/-- Settles O24: the latches a WRSR frame leaves, the status bits bit by bit. -/
theorem wrsrFrameWritesTheWritableBits : Obligations.WrsrFrameWritesTheWritableBits := by
  intro s d
  obtain ⟨t, hact, h⟩ := (setsLatches_wrsr (c := Config.env) d).act s
  have hlatches := unlessBusy_wrsr (c := Config.env) d s.dev.busy s.dev.latches
  refine ⟨t, hact, h.toFcsKept, h.array, h.busy, h.pending, h.rx, ?_, ?_⟩
  · rw [h.armed, hlatches]
    split <;> rfl
  · split
    case isTrue hwrites =>
      rw [hlatches.trans (if_pos hwrites)] at h
      rw [h.srOther]
      exact ⟨fun _ hi => written_srOther_bit Config.env s.dev.srOther d hi, h.wel⟩
    case isFalse hignored =>
      rw [hlatches.trans (if_neg hignored)] at h
      exact ⟨h.srOther, h.wel⟩

/-! ## Frames that may start an operation -/

/-- The act of a program or erase frame of `op` on an idle device: without WEL it has no effect; `prot` says whether its
region is protected; else `op` starts, and is due after the next delay drawn. -/
structure ArrayFrameActed (c : Env) (prot : Bool) (op : Pending) (s t : State) : Prop extends FrameKept s t where
  srOther : t.dev.srOther = s.dev.srOther
  armed : t.dev.ewsrArmed = false
  unset : s.dev.wel = false → t.dev.busy = false ∧ t.dev.pending = s.dev.pending ∧ t.dev.wel = false
  blocked : s.dev.wel = true → prot = true → t.dev.busy = false ∧ t.dev.pending = s.dev.pending
  started : s.dev.wel = true → prot = false →
    t.dev.busy = true ∧ t.dev.pending = some op ∧ t.dev.wel = true ∧ t.dev.left = c.d.delay s.free.delay

theorem arrayFrame_acted (hb : s.dev.busy = false) (prot : Bool) (op : Pending) :
    ArrayFrameActed c prot op s (endFrame false (arrayOp c prot op (drive c none s))) := by
  have hkept := ((drive_kept none).trans (arrayOp_kept (c := c) (s := drive c none s) prot op)).trans
    (endFrame_kept false)
  have hdev := arrayOp_dev (c := c) prot op (drive c none s)
  refine ⟨hkept, ?_, rfl, fun hw => ?_, fun hw hp => ?_, fun hw hp => ?_⟩ <;> rw [endFrame_dev, hdev]
  · exact afterArrayOp_srOther _ _ _ _ _
  · rw [afterArrayOp_of_not_wel (v := (drive c none s).dev) hw]
    exact ⟨hb, rfl, hw⟩
  · rw [hp, afterArrayOp_of_protected (v := (drive c none s).dev) hw]
    exact ⟨hb, rfl⟩
  · rw [hp, afterArrayOp_of_started (v := (drive c none s).dev) hw]
    exact ⟨rfl, rfl, hw, rfl⟩

/-- Settles O19: PROGRAM is the program of its byte. -/
theorem programFrameStartsTheProgram : Obligations.ProgramFrameStartsTheProgram := by
  intro s a d x hb hloc
  have h := arrayFrame_acted (c := Config.env) hb (protectedAt Config.env (srByte Config.env s.dev) x) (.program x d)
  refine ⟨_, deviceAct_program_idle hloc d hb, h.toFcsKept, h.array, h.srOther, h.rx, h.armed, ?_⟩
  split_ifs with hw hp
  · exact h.unset hw
  · exact h.blocked (by simpa using hw) hp
  · exact h.started (by simpa using hw) (by simpa using hp)

/-- Settles O20: each of the three frames is the erase of its aligned region. -/
theorem eraseFramesStartTheErase : Obligations.EraseFramesStartTheErase := by
  rintro s a x hb hloc ⟨i, e⟩ hf
  have hact : exec i s = eraseFrame Config.env e a s := by
    simp only [List.mem_cons, Prod.mk.injEq, List.not_mem_nil, or_false] at hf
    rcases hf with ⟨rfl, rfl⟩ | ⟨rfl, rfl⟩ | ⟨rfl, rfl⟩ <;> rfl
  have h := arrayFrame_acted (c := Config.env) hb
    (protectedRegion Config.env (srByte Config.env s.dev) (x - x % e) e)
    (.erase (x - x % e) (min (x - x % e + e) (flashSize Config.env)))
  refine ⟨_, hact.trans (eraseFrame_idle hloc hb), h.toFcsKept, h.array, h.srOther, h.rx, h.armed, ?_⟩
  split_ifs with hw hp
  · exact h.unset hw
  · exact h.blocked (by simpa using hw) hp
  · obtain ⟨hbusy, hpending, hwel, hleft⟩ := h.started (by simpa using hw) (by simpa using hp)
    exact ⟨hbusy, hwel, hleft, hpending⟩

/-- Settles O21: CHIP ERASE is the erase of the whole array. -/
theorem chipEraseFrameStartsTheErase : Obligations.ChipEraseFrameStartsTheErase := by
  intro s hb
  have h := arrayFrame_acted (c := Config.env) hb (protectedChip Config.env (srByte Config.env s.dev))
    (.erase 0 (flashSize Config.env))
  refine ⟨_, chipErase_idle hb, h.toFcsKept, h.array, h.srOther, h.rx, h.armed, ?_⟩
  split_ifs with hw hp
  · exact h.unset hw
  · exact h.blocked (by simpa using hw) hp
  · exact h.started (by simpa using hw) (by simpa using hp)

/-! ## Protection and addresses (45_device R220, R227, R229) -/

/-- Where every writable bit of dev.sr_other is 0, none is set in the status byte that protection is tested on. -/
theorem srByte_writable_eq_zero {v : Device} (h : v.srOther &&& c.p.srWritable = 0x00#8) :
    srByte c v &&& writableMask c = 0x00#8 := by
  rw [srByte_and_writableMask, writableMask, ← BitVec.and_assoc, h, BitVec.zero_and]

/-- Settles O22: a region is searched address by address, and the law of R229 is laid on both predicates. -/
theorem protectionMeetsItsLaw : Obligations.ProtectionMeetsItsLaw := by
  intro c v lo e
  refine ⟨protectedRegion_iff, fun h => ?_⟩
  have hz := srByte_writable_eq_zero h
  exact ⟨fun a => by simp [protectedAt, hz], by simp [protectedChip, hz]⟩

theorem locate_of_lt (h : a.toNat < flashSize c) : locate c a = some a.toNat := if_pos (.inr h)

theorem locate_of_wrap (ha : flashSize c ≤ a.toNat) (hp : c.p.addrPolicy = .wrap) :
    locate c a = some (a.toNat % flashSize c) := by
  have hpos := flashSize_pos c
  have hne : a ≠ 0x000000#24 := by
    rintro rfl
    exact absurd (show flashSize c ≤ 0 from ha) (by omega)
  rw [locate, if_neg (by simp [hne, ha]), hp]

theorem flashSize_le (c : Env) : flashSize c ≤ 2 ^ 24 :=
  Nat.pow_le_pow_right (by decide) (Nat.le_of_lt_succ c.p.flashLog.isLt)

theorem toNat_lastAddress (c : Env) : (BitVec.ofNat 24 (flashSize c - 1)).toNat = flashSize c - 1 := by
  have hpos := flashSize_pos c
  have hle := flashSize_le c
  rw [BitVec.toNat_ofNat, Nat.mod_eq_of_lt (by omega)]

/-- The five frames with an address find it before anything else. -/
theorem deviceAct_addressed {d : Byte} (hi : i ∈ [Instr.spiRead a d, .spiProgram a d, .spiSectorErase a,
    .spiBlockErase32 a, .spiBlockErase64 a]) (s : State) :
    exec i s = deviceAct Config.env i s ∧ ∀ c, ∃ f, deviceAct c i s = addressed c a f s := by
  simp only [List.mem_cons, List.not_mem_nil, or_false] at hi
  rcases hi with rfl | rfl | rfl | rfl | rfl <;> exact ⟨rfl, fun _ => ⟨_, rfl⟩⟩

/-- Settles O28: an absent address is refused or wrapped where the frame's rule finds it. -/
theorem addressesBeyondTheArrayFollowThePolicy : Obligations.AddressesBeyondTheArrayFollowThePolicy := by
  refine ⟨fun _ _ => locate_of_lt, fun c => ?_, fun c a d s hb ha i hi => ?_⟩
  · have hlast := toNat_lastAddress c
    have hpos := flashSize_pos c
    rw [locate_of_lt (by omega), hlast]
  · obtain ⟨hexec, hact⟩ := deviceAct_addressed hi s
    obtain ⟨f, hf⟩ := hact c
    refine ⟨hexec, ?_⟩
    cases hp : c.p.addrPolicy with
    | refuse => exact hf.trans (addressed_of_absent (locate_of_absent ha hp) hb f)
    | wrap =>
      have hloc := locate_of_wrap ha hp
      exact ⟨hloc, _, hf.trans (addressed_of_located hloc f s)⟩

end Sys2Proof.Machine

/-! # The completion step at an edge (45_device R221, R232)

At a rising cs_n edge a held operation completes after the frame's own rule; at any other edge with cs_n = 1 an
operation due completes first. Either way `complete` of the device is all that is left of it. -/

namespace Sys2Proof.Machine

variable {c : Env} {s t : State} {v : Device} {i : Instr} {op : Pending}

/-! ## The turn on an ended frame (45_device R221) -/

/-- Settles O2: where an ended frame waits, the step is the device's turn, whose rule decodes it. -/
theorem stepRunsTheEndedFrame : Obligations.StepRunsTheEndedFrame := by
  intro s i hcs hi
  have hrx : s.dev.rx ≠ [] := by
    intro h
    rw [h] at hi
    cases hi
  have hturn : turnDue s = true := by simp [turnDue, hcs, hrx]
  have hrule : frameRule exec s = exec i (takeFrame s) := by rw [frameRule, hi]
  rw [step, stepBy, if_pos hturn, deviceTurnBy, hrule]
  rfl

/-- The frame's own rule, then a held operation's completion. -/
theorem step_of_act (hcs : s.bus.csN = true) (hi : decodeFrame s.dev.rx = .ok i)
    (hact : deviceAct Config.env i (takeFrame s) = .next t) : step s = .next (releaseHeld Config.env t) := by
  have hexec : exec i (takeFrame s) = .next t := (exec_of_frame hi).trans hact
  exact (stepRunsTheEndedFrame s i hcs hi).trans (congrArg (andThen · _) hexec)

/-- Neither taking the frame nor a completion touches the FCS. -/
theorem FcsKept.ofTurn (h : FcsKept (takeFrame s) t) : FcsKept s (releaseHeld c t) :=
  ⟨h.regs, h.bus, h.sq, h.port, h.hRdata, h.now⟩

/-! ## The operation applied -/

/-- The operation in progress has completed on a device whose array is still that of `s`, whatever becomes of the bytes
of an exchange and of arming. -/
theorem operationApplied_of_complete {e : Bool} (hwf : Memory.wf Config.env.d.array s.dev.array)
    (ha : v.array = s.dev.array) (hp : v.pending = some op)
    (h : SameDevice ((complete Config.env v).withArming e) t.dev) : OperationApplied op s t := by
  have happlied := DeviceIs.operationApplied (t := { t with bus := Bus.reset }) hwf ha hp ⟨rfl, h⟩
  exact ⟨happlied.busy, happlied.wel, happlied.pending, happlied.program, happlied.erase⟩

theorem OnlyDisarmed.complete (h : OnlyDisarmed s t) :
    SameDevice ((complete c s.dev).withArming false) (complete c t.dev) := by
  rw [h]
  exact .of_exchange _ _ _

/-! ## An operation held up by a frame, or started by it with a delay of 0 (45_device R232) -/

/-- A frame with the opcode of RDSR leaves the status byte on MISO. -/
theorem deviceAct_out_of_rdsr {bs : List Byte} (hi : decodeFrame bs = .ok i) (hop : bs.head? = some DevOp.rdsr.code)
    (hact : deviceAct c i s = .next t) : t.dev.out = srByte c s.dev := by
  obtain ⟨o, xs, rfl, -, rfl⟩ := of_decodeFrame_eq_ok hi
  obtain rfl : o = .rdsr := by
    have hcode : o.code = DevOp.rdsr.code := by simpa using hop
    revert hcode
    cases o <;> decide
  cases hact
  rfl

/-- The frame only disarms the busy device, and the operation it held up completes after it. -/
theorem heldUpOperation_completes (hcs : s.bus.csN = true) (hi : decodeFrame s.dev.rx = .ok i)
    (hwf : Memory.wf Config.env.d.array s.dev.array) (hb : s.dev.busy = true) (hp : s.dev.pending = some op)
    (hl : s.dev.left = some 0) :
    ∃ t, step s = .next t ∧ FcsKept s t ∧ OperationApplied op s t ∧ t.dev.srOther = s.dev.srOther ∧
      t.dev.ewsrArmed = false ∧ t.dev.rx = [] ∧
      (s.dev.rx.head? = some DevOp.rdsr.code → t.dev.out = srByte Config.env s.dev) := by
  have hb' : (takeFrame s).dev.busy = true := hb
  obtain ⟨w, hact, hd⟩ := (passive_of_busy (c := Config.env) hi hb').act
  obtain ⟨⟨-, hbusy, -, hother⟩, -⟩ := hd.devKept
  have hkept := deviceAct_next hact
  have hheld : (releaseHeld Config.env w).dev = complete Config.env w.dev :=
    completeHeld_of_held (hbusy.trans hb) (hd.left.trans hl)
  have hsame := hd.complete (c := Config.env)
  rw [← hheld] at hsame
  refine ⟨_, step_of_act hcs hi hact, hkept.toFcsKept.ofTurn,
    operationApplied_of_complete (v := (takeFrame s).dev) hwf rfl hp hsame, ?_, ?_, ?_, fun hop => ?_⟩ <;> rw [hheld]
  · exact hother
  · exact hd.armed
  · exact hkept.rx
  · exact deviceAct_out_of_rdsr (s := takeFrame s) hi hop hact

/-- What a frame to an idle device leaves that has started the operation `op`. -/
structure OpStartedBy (c : Env) (op : Pending) (s t : State) : Prop extends OperationInProgress op s t where
  srOther : t.dev.srOther = s.dev.srOther
  left : t.dev.left = c.d.delay s.free.delay

theorem deviceAct_started (hact : deviceAct c i s = .next t) (hb : s.dev.busy = false) (hbt : t.dev.busy = true)
    (hp : t.dev.pending = some op) : OpStartedBy c op s t := by
  have hkept := deviceAct_next hact
  have hne : t.dev.busy ≠ s.dev.busy := by rw [hb, hbt]; decide
  obtain ⟨hsame, -⟩ | ⟨-, -, -, hwel, hother, -⟩ := hkept.op
  · exact absurd hsame hne
  obtain ⟨hsame, -⟩ | ⟨-, -, hleft⟩ := deviceAct_delay hact
  · exact absurd hsame hne
  exact ⟨⟨hbt, hwel, hp, hkept.array⟩, hother, hleft⟩

/-- The frame starts the operation, which completes at once with a delay of 0. -/
theorem startedOperation_step (hcs : s.bus.csN = true) (hi : decodeFrame s.dev.rx = .ok i)
    (hwf : Memory.wf Config.env.d.array s.dev.array) (hact : deviceAct Config.env i (takeFrame s) = .next t)
    (h : OpStartedBy Config.env op (takeFrame s) t) :
    ∃ u, step s = .next u ∧ FcsKept s u ∧ u.dev.srOther = s.dev.srOther ∧ u.dev.rx = [] ∧
      if Config.env.d.delay s.free.delay = some 0 then OperationApplied op s u
      else OperationInProgress op s u ∧ u.dev.left = Config.env.d.delay s.free.delay := by
  have hkept := deviceAct_next hact
  refine ⟨_, step_of_act hcs hi hact, hkept.toFcsKept.ofTurn, completeHeld_srOther.trans h.srOther,
    completeHeld_rx.trans hkept.rx, ?_⟩
  split
  case isTrue hzero =>
    have hheld : (releaseHeld Config.env t).dev = complete Config.env t.dev :=
      completeHeld_of_held h.busy (h.left.trans hzero)
    exact operationApplied_of_complete (e := t.dev.ewsrArmed) hwf h.array h.pending (by rw [hheld]; exact .refl _)
  case isFalse hlater =>
    have hheld : (releaseHeld Config.env t).dev = t.dev :=
      completeHeld_of_not fun hdue => hlater (h.left.symm.trans hdue.2)
    refine ⟨⟨?_, ?_, ?_, ?_⟩, ?_⟩ <;> rw [hheld]
    · exact h.busy
    · exact h.wel
    · exact h.pending
    · exact h.array
    · exact h.left

/-- Settles O32: the frame's own rule on a busy device, and on an idle one. -/
theorem heldUpOperationsCompleteWithTheirFrame : Obligations.HeldUpOperationsCompleteWithTheirFrame := by
  refine ⟨fun s i op hcs hi => heldUpOperation_completes hcs hi, fun s t i op hcs hi hwf hb hexec hbt hp => ?_⟩
  have hact : deviceAct Config.env i (takeFrame s) = .next t := (exec_of_frame hi).symm.trans hexec
  exact startedOperation_step hcs hi hwf hact (deviceAct_started hact hb hbt hp)

/-! ## An operation due at a clk edge (45_device R232) -/

/-- What the edge of `s` leaves of the device, `v` being the device after one clk period: a held operation completes
where cs_n rises on a frame of no bytes, and nothing else of the device changes but for the bytes of the open frame. -/
def DeviceAtEdge (c : Env) (v : Device) (s t : State) : Prop :=
  (t.bus.csN = true → s.bus.csN = true ∨ t.dev.rx ≠ []) ∧
    t.dev = { v with rx := t.dev.rx, out := t.dev.out, sh := t.dev.sh } ∨
  t.bus.csN = true ∧ t.dev.rx = [] ∧
    t.dev = { completeHeld c v with rx := t.dev.rx, out := t.dev.out, sh := t.dev.sh }

/-- A running command whose step state is legal goes on (10_state R37). -/
theorem progress_total (h : s.sq.stepLegal) : ∃ t, progress c s = .next t := by
  unfold progress
  unfold Sequencer.stepLegal at h
  cases hstep : s.sq.step with
  | idle => exact ⟨_, rfl⟩
  | fin => exact ⟨_, rfl⟩
  | run k =>
    rw [hstep] at h
    have hk : s.sq.seq[k]? = some s.sq.seq[k] := List.getElem?_eq_getElem h
    simp only [hk]
    split
    · exact ⟨_, rfl⟩
    · split <;> exact ⟨_, rfl⟩

/-- An edge of a running command leaves an action under way, or publishes, which alone changes the registers. -/
theorem progress_device (h : progress c s = .next t) (hb : s.busy = true) :
    DeviceAtEdge c s.dev s t ∧ t.now = s.now ∧ (t.busy = true → t.regs = s.regs) := by
  obtain ⟨u, hu, rfl⟩ | ⟨hedge, -⟩ := progress_next h hb
  · have hdev : DeviceAtEdge c s.dev s u := (show EdgeDone c s u from .inl hu).dev
    exact ⟨hdev, hu.now, nofun⟩
  · obtain ⟨hregs, -, -, hnow, -⟩ := hedge.fcs
    exact ⟨hedge.dev, hnow, fun _ => hregs⟩

/-- The step of an idle cycle: time passes, and a running command goes on, or publishes. -/
theorem step_idleCycle_device {p : List Cycle} (hn : turnDue s = false) (hlegal : s.sq.stepLegal)
    (hport : s.port = Cycle.idle :: p) :
    ∃ t, step s = .next t ∧ (s.busy = false ∨ t.busy = true → t.regs = s.regs) ∧
      DeviceAtEdge Config.env (elapseDev Config.env s.bus.csN 1 s.dev) s t := by
  have hstep := step_idleCycle hn p
  rw [← hport] at hstep
  cases hb : s.busy with
  | false =>
    rw [hb, if_neg Bool.false_ne_true] at hstep
    exact ⟨_, hstep, fun _ => rfl, .inl ⟨.inl, rfl⟩⟩
  | true =>
    obtain ⟨t, ht⟩ := progress_total (c := Config.env) (s := idleEdge p s) hlegal
    rw [hb, if_pos rfl, ht] at hstep
    obtain ⟨hdev, -, hregs⟩ := progress_device ht hb
    exact ⟨t, hstep, fun h => hregs (h.resolve_left nofun), hdev⟩

theorem DeviceAtEdge.srOther (h : DeviceAtEdge c v s t) : t.dev.srOther = v.srOther := by
  obtain ⟨-, hd⟩ | ⟨-, -, hd⟩ := h <;> rw [hd]
  exact completeHeld_srOther

/-- An edge at which the operation has completed already. -/
theorem DeviceAtEdge.of_complete (h : DeviceAtEdge c (complete c v) s t) : SameDevice (complete c v) t.dev := by
  obtain ⟨-, hd⟩ | ⟨-, -, hd⟩ := h
  · rw [hd]
    exact .of_exchange _ _ _
  · rw [completeHeld_of_not (by simp [complete])] at hd
    rw [hd]
    exact .of_exchange _ _ _

/-- Settles O31: with cs_n = 1 the clk period completes the operation, and within a frame it brings `dev.left` to 0, so
that the operation completes where cs_n rises on a frame of no bytes. -/
theorem completionAppliesThePendingOperation : Obligations.CompletionAppliesThePendingOperation := by
  intro s p op k hn hlegal hwf hport hb hp hl hk
  obtain ⟨t, hstep, hregs, hdev⟩ := step_idleCycle_device hn hlegal hport
  refine ⟨t, hstep, hregs, hdev.srOther.trans (elapseDev_srOther _ _), fun hcs => ?_, fun hcs htcs => ?_,
    fun hcs htcs => ?_⟩
  · rw [hcs, elapseDev_ended hb hl Nat.one_pos hk] at hdev
    exact operationApplied_of_complete (e := s.dev.ewsrArmed) hwf rfl hp hdev.of_complete
  · rw [hcs, elapseDev_selected] at hdev
    obtain ⟨-, hd⟩ | ⟨hrise, -⟩ := hdev
    · exact (devKept_of_dev hd).1
    · rw [htcs] at hrise
      cases hrise
  · rw [hcs, elapseDev_selected] at hdev
    obtain ⟨hbytes, hd⟩ | ⟨-, hrx, hd⟩ := hdev
    · rw [if_neg ((hbytes htcs).resolve_left (by rw [hcs]; decide))]
      exact (devKept_of_dev hd).1
    · have hleft : s.dev.left.map (· - 1) = some 0 := by
        rw [hl, Option.map_some, Nat.sub_eq_zero_of_le hk]
      rw [completeHeld_of_held (v := { s.dev with left := s.dev.left.map (· - 1) }) hb hleft] at hd
      rw [if_pos hrx]
      refine operationApplied_of_complete (v := s.dev) (e := s.dev.ewsrArmed) hwf rfl hp ?_
      rw [hd]
      exact .of_exchange _ _ _

end Sys2Proof.Machine

/-! # When the array changes (45_device R226, R227, R231, R232, R237)

No frame changes the array. A clk edge changes it by the completion step of an operation that is due (`CompletedBy`),
and a longer time only where the delay of the first operation in it has passed (`Aged`). Without WEL no operation
starts. -/

namespace Sys2Proof.Machine

variable {c : Env} {s t u : State} {v w : Device} {a : Action} {b : Bool} {n : Nat} {code : Code}

/-! ## A clk edge -/

/-- An operation due within `n` clk edges on `v` has made the array what it is on `w`. -/
def CompletedBy (c : Env) (n : Nat) (v w : Device) : Prop :=
  v.busy = true ∧ (∃ k, v.left = some k ∧ k ≤ n) ∧ w.array = applyPending c v.array v.pending

theorem completionDue_iff :
    completionDue b n v = true ↔ v.busy = true ∧ b = true ∧ 0 < n ∧ ∃ k, v.left = some k ∧ k ≤ n := by
  simp [completionDue, and_assoc, Option.any_eq_true]

/-- Time changes the array by the completion step alone, and not within a frame. -/
theorem elapseDev_array (c : Env) (b : Bool) (n : Nat) (v : Device) :
    (elapseDev c b n v).array = v.array ∨ b = true ∧ CompletedBy c n v (elapseDev c b n v) := by
  cases hdue : completionDue b n v with
  | false =>
    rw [elapseDev_of_not_due hdue]
    exact .inl rfl
  | true =>
    obtain ⟨hb, hcs, -, hl⟩ := completionDue_iff.mp hdue
    rw [elapseDev_of_due hdue]
    exact .inr ⟨hcs, hb, hl, rfl⟩

/-- So does time with a held operation's completion after it. -/
theorem completeHeld_elapseDev_array (c : Env) (b : Bool) (n : Nat) (v : Device) :
    (completeHeld c (elapseDev c b n v)).array = v.array ∨ CompletedBy c n v (completeHeld c (elapseDev c b n v)) := by
  by_cases hheld : (elapseDev c b n v).busy = true ∧ (elapseDev c b n v).left = some 0
  · obtain ⟨hb, hl⟩ := hheld
    have hdue : completionDue b n v = false := by
      by_contra hdue
      rw [elapseDev_of_due (by simpa using hdue)] at hb
      cases hb
    rw [completeHeld_of_held hb hl]
    rw [elapseDev_of_not_due hdue] at hb hl ⊢
    obtain ⟨k, hk, hzero⟩ := Option.map_eq_some_iff.mp hl
    exact .inr ⟨hb, ⟨k, hk, Nat.le_of_sub_eq_zero hzero⟩, rfl⟩
  · rw [completeHeld_of_not hheld]
    exact (elapseDev_array c b n v).imp_right And.right

theorem DeviceAtEdge.completed (h : DeviceAtEdge c (elapseDev c s.bus.csN 1 s.dev) s t)
    (hne : t.dev.array ≠ s.dev.array) : (s.bus.csN = true ∨ t.bus.csN = true) ∧ CompletedBy c 1 s.dev t.dev := by
  obtain ⟨-, hd⟩ | ⟨hcs, -, hd⟩ := h <;> have harray := congrArg Device.array hd
  · obtain hsame | ⟨hcs, hb, hl, hdone⟩ := elapseDev_array c s.bus.csN 1 s.dev
    · exact absurd (harray.trans hsame) hne
    · exact ⟨.inl hcs, hb, hl, harray.trans hdone⟩
  · obtain hsame | ⟨hb, hl, hdone⟩ := completeHeld_elapseDev_array c s.bus.csN 1 s.dev
    · exact absurd (harray.trans hsame) hne
    · exact ⟨.inr hcs, hb, hl, harray.trans hdone⟩

/-- A rising cs_n edge at the edge of `s`: whether the frame has bytes says whether a held operation completes. -/
theorem DeviceAtEdge.of_csRise (hdev : t.dev = (csRise c u).dev) (hcs : t.bus.csN = true) :
    DeviceAtEdge c u.dev s t := by
  rw [csRise_dev] at hdev
  cases hrx : u.dev.rx.isEmpty with
  | true =>
    rw [hrx, if_pos rfl] at hdev
    refine .inr ⟨hcs, ?_, by rw [hdev]⟩
    rw [hdev, completeHeld_rx]
    simpa using hrx
  | false =>
    rw [hrx, if_neg Bool.false_ne_true] at hdev
    refine .inl ⟨fun _ => .inr ?_, by rw [hdev]⟩
    rw [hdev]
    simpa using hrx

theorem portAccess_bus (acc : Access) : (portAccess c acc s).bus = s.bus := by
  cases acc with
  | none => rfl
  | read _ => rfl
  | write a v => exact (writeReg_kept a v).bus

theorem portAccess_now (acc : Access) : (portAccess c acc s).now = s.now := by
  cases acc with
  | none => rfl
  | read _ => rfl
  | write a v =>
    have hwrite : ∀ u, (writeReg c a v u).now = u.now := fun u => by
      obtain rfl | rfl | rfl | rfl | rfl | ha := regWord_cases a
      · rfl
      · rfl
      · obtain hw | hw := writeReg_cmd (c := c) (s := u) v <;> rw [hw] <;> rfl
      · rfl
      · rfl
      · rw [writeReg_readOnly ha]
    exact hwrite _

/-- What a clk edge without a loss of power leaves of the device. -/
theorem clockEdge_device (h : clockEdge c s = .next t) :
    (∃ cy p, s.port = cy :: p ∧ cy.power = true) ∨
      DeviceAtEdge c (elapseDev c s.bus.csN 1 s.dev) s t ∧ t.now = s.now + 1 := by
  have hdev : ∀ acc, (portAccess c acc (atEdge c s)).dev = elapseDev c s.bus.csN 1 s.dev := fun _ => portAccess_dev _
  have hcs : ∀ acc, (portAccess c acc (atEdge c s)).bus.csN = s.bus.csN := fun _ => congrArg Bus.csN (portAccess_bus _)
  have hnow : ∀ acc, (portAccess c acc (atEdge c s)).now = s.now + 1 := fun _ => portAccess_now _
  obtain ⟨hpower, -⟩ | ⟨hb, hrun⟩ | ⟨-, rfl⟩ | rfl := clockEdge_next h
  · cases hport : s.port with
    | nil =>
      rw [hport] at hpower
      cases hpower
    | cons cy p =>
      rw [hport] at hpower
      exact .inl ⟨cy, p, rfl, hpower⟩
  · obtain ⟨hedge, htime, -⟩ := progress_device hrun (portAccess_busy (s := atEdge c s) hb _)
    rw [DeviceAtEdge, hdev, hcs] at hedge
    exact .inr ⟨hedge, htime.trans (hnow _)⟩
  · exact .inr ⟨.inl ⟨fun htcs => .inl ((hcs _).symm.trans htcs), by rw [hdev]⟩, hnow _⟩
  · exact .inr ⟨DeviceAtEdge.of_csRise (u := { atEdge c s with hRdata := _ }) rfl rfl, rfl⟩

/-! ## A longer time -/

/-- The delay still to pass of the operation in progress, or the one an idle device draws for the next it starts. -/
def firstDelay (c : Env) (s : State) : Option Nat := if s.dev.busy then s.dev.left else c.d.delay s.free.delay

/-- The first delay of `s` has passed by `t`. -/
def DelayPassed (c : Env) (s t : State) : Prop := ∃ k, firstDelay c s = some k ∧ s.now + k ≤ t.now

/-- In the time from `s` to `t` the first delay has passed, or the array is as it was, and what is left of the delay
ends no sooner. -/
structure Aged (c : Env) (s t : State) : Prop where
  now : s.now ≤ t.now
  device : DelayPassed c s t ∨ t.dev.array = s.dev.array ∧
    ∀ l, firstDelay c t = some l → ∃ k, firstDelay c s = some k ∧ s.now + k ≤ t.now + l

theorem Aged.trans (h : Aged c s t) (k : Aged c t u) : Aged c s u := by
  refine ⟨h.now.trans k.now, ?_⟩
  obtain ⟨d, hd, hle⟩ | ⟨harray, hleft⟩ := h.device
  · exact .inl ⟨d, hd, hle.trans k.now⟩
  · obtain ⟨l, hl, hle⟩ | ⟨harray', hleft'⟩ := k.device
    · obtain ⟨d, hd, hle'⟩ := hleft l hl
      exact .inl ⟨d, hd, hle'.trans hle⟩
    · refine .inr ⟨harray'.trans harray, fun l hl => ?_⟩
      obtain ⟨l', hl', hle⟩ := hleft' l hl
      obtain ⟨d, hd, hle'⟩ := hleft l' hl'
      exact ⟨d, hd, hle'.trans hle⟩

/-- No time passes, and the array and the delay are kept. -/
theorem Aged.of_kept (hnow : t.now = s.now) (harray : t.dev.array = s.dev.array)
    (hdelay : firstDelay c t = firstDelay c s) : Aged c s t :=
  ⟨hnow.ge, .inr ⟨harray, fun l hl => ⟨l, hdelay.symm.trans hl, by rw [hnow]⟩⟩⟩

theorem aged_elapse (hnow : t.now = s.now + n) (hfree : t.free = s.free) (hdev : t.dev = elapseDev c b n s.dev) :
    Aged c s t := by
  refine ⟨by omega, ?_⟩
  cases hdue : completionDue b n s.dev with
  | true =>
    obtain ⟨hb, -, -, k, hl, hk⟩ := completionDue_iff.mp hdue
    exact .inl ⟨k, by rw [firstDelay, if_pos hb, hl], by omega⟩
  | false =>
    rw [elapseDev_of_not_due hdue] at hdev
    refine .inr ⟨by rw [hdev], fun l hl => ?_⟩
    rw [firstDelay, hdev, hfree] at hl
    unfold firstDelay
    cases hb : s.dev.busy with
    | false =>
      rw [hb] at hl
      exact ⟨l, hl, by omega⟩
    | true =>
      rw [hb] at hl
      obtain ⟨k, hk, rfl⟩ := Option.map_eq_some_iff.mp hl
      exact ⟨k, hk, by omega⟩

theorem aged_completeHeld (hnow : t.now = s.now) (hfree : t.free = s.free) (hdev : t.dev = completeHeld c s.dev) :
    Aged c s t := by
  by_cases hheld : s.dev.busy = true ∧ s.dev.left = some 0
  · exact ⟨hnow.ge, .inl ⟨0, by rw [firstDelay, if_pos hheld.1, hheld.2], hnow.ge⟩⟩
  · rw [completeHeld_of_not hheld] at hdev
    exact .of_kept hnow (by rw [hdev]) (by simp only [firstDelay, hdev, hfree])

theorem aged_csRise : Aged c s (csRise c s) := by
  cases hrx : s.dev.rx.isEmpty with
  | true => exact aged_completeHeld rfl rfl (by rw [csRise_dev, hrx, if_pos rfl])
  | false =>
    have hdev : (csRise c s).dev = s.dev := by rw [csRise_dev, hrx, if_neg Bool.false_ne_true]
    exact .of_kept rfl (by rw [hdev]) (by simp only [firstDelay, hdev, csRise_free])

/-- An operation that a frame starts has the delay that was to be drawn next. -/
theorem firstDelay_of_drawn (h : DelayDrawn c s t) : firstDelay c t = firstDelay c s := by
  unfold firstDelay
  obtain ⟨hb, hl, hf⟩ | ⟨hb, hbt, hl⟩ := h
  · rw [hb, hl, hf]
  · rw [hb, hbt]
    exact hl

theorem aged_frameRule (h : frameRule (deviceAct c) s = .next t) : Aged c s t := by
  have hkept := frameRule_taken h
  refine .of_kept hkept.now hkept.array ?_
  unfold frameRule at h
  split at h
  · exact firstDelay_of_drawn (s := takeFrame s) (deviceAct_delay h)
  · cases h; rfl
  · cases h
  · cases h

theorem aged_deviceTurn (h : deviceTurn c s = .next t) : Aged c s t := by
  obtain ⟨u, hu, ht⟩ := andThen_next h
  cases ht
  exact (aged_frameRule hu).trans (aged_completeHeld rfl rfl rfl)

theorem aged_exchanged {j : Nat} {bs : List Byte} (h : Exchanged c a j bs s t) : Aged c s t :=
  .of_kept h.now (by rw [h.dev]) (by rw [firstDelay, h.dev, h.free]; rfl)

theorem aged_turnAndGap (h : andThen (deviceTurn c s) (fun u => .next (gapAfter c u)) = .next t) : Aged c s t := by
  obtain ⟨u, hu, hgap⟩ := andThen_next h
  cases hgap
  exact (aged_deviceTurn hu).trans (aged_elapse rfl rfl rfl)

theorem aged_runFrame (h : runFrame c a s = .next t) : Aged c s t := by
  have hfall : Aged c s (csFall s) := .of_kept rfl rfl rfl
  have hbytes := aged_exchanged (exchangeAll_exchanged (c := c) a a.bytes 0 (csFall s))
  have hlow : ∀ u, Aged c u (elapse c (lowCycles c a.bytes.length) u) := fun u => aged_elapse rfl rfl rfl
  exact ((hfall.trans hbytes).trans (hlow _)).trans (aged_csRise.trans (aged_turnAndGap h))

theorem aged_runAction (h : runAction c a s = .next t) : Aged c s t := by
  cases a with
  | frame bs cap => exact aged_runFrame h
  | wait n => cases h; exact aged_elapse rfl rfl rfl
  | csLow => cases h; exact .of_kept rfl rfl rfl
  | csHigh => exact aged_csRise.trans (aged_turnAndGap h)
  | xfer x => cases h; exact (aged_exchanged (exchangeAll_exchanged _ _ _ _)).trans (aged_elapse rfl rfl rfl)
  | check => exact aged_runFrame (a := .check) h

theorem aged_runActions {as : List Action} (h : runActions c as s = .next t) : Aged c s t := by
  induction as generalizing s with
  | nil => cases h; exact .of_kept rfl rfl rfl
  | cons a as ih =>
    obtain ⟨u, hu, hrest⟩ := andThen_next h
    exact (aged_runAction hu).trans (ih hrest)

theorem aged_runCommand {seqOf : Latches → Bool → List Action} (hidle : s.sq.step = .idle)
    (h : runCommand c code seqOf s = .next t) : Aged c s t := by
  rw [runCommand_idle _ _ hidle] at h
  obtain ⟨u, hu, hpub⟩ := andThen_next h
  cases hpub
  have haccept : Aged c s (accepted c code seqOf s) := aged_elapse (n := 2) rfl rfl rfl
  exact (haccept.trans (aged_runActions hu)).trans (.of_kept rfl rfl rfl)

theorem Aged.delayPassed (h : Aged c s t) (hne : t.dev.array ≠ s.dev.array) : DelayPassed c s t :=
  h.device.resolve_right fun hkept => hne hkept.1

/-- Settles O30: a step is the device's turn, a whole command, or a clk edge. -/
theorem noFrameChangesTheArray : Obligations.NoFrameChangesTheArray := by
  have hedge : ∀ s t, clockEdge Config.env s = .next t → t.dev.array ≠ s.dev.array →
      (∃ cy p, s.port = cy :: p ∧ cy.power = true) ∨
        ((s.bus.csN = true ∨ t.bus.csN = true) ∧ CompletedBy Config.env 1 s.dev t.dev) ∧ t.now = s.now + 1 :=
    fun s t h hne => (clockEdge_device h).imp_right fun ⟨hdev, hnow⟩ => ⟨hdev.completed hne, hnow⟩
  refine ⟨fun s t bs i hi h => ?_, fun s t h hne => (hedge s t h hne).imp_right And.left, fun s t h hne => ?_⟩
  · rw [exec_of_frame hi] at h
    exact (deviceAct_next h).array
  · have hpassed : DelayPassed Config.env s t →
        ∃ k, s.now + k ≤ t.now ∧
          if s.dev.busy then s.dev.left = some k else Config.env.d.delay s.free.delay = some k := by
      rintro ⟨k, hk, hle⟩
      refine ⟨k, hle, ?_⟩
      unfold firstDelay at hk
      split at hk <;> simp [*]
    obtain ⟨-, hturn⟩ | ⟨code, p, hidle, hrun⟩ | h := step_next h
    · exact .inr (hpassed ((aged_deviceTurn hturn).delayPassed hne))
    · have hstart : Aged Config.env s { s with port := p, hRdata := 0x00000000#32 } := .of_kept rfl rfl rfl
      exact .inr (hpassed ((hstart.trans (aged_runCommand hidle hrun)).delayPassed hne))
    · refine (hedge s t h hne).imp_right ?_
      rintro ⟨⟨-, hb, ⟨k, hl, hk⟩, -⟩, hnow⟩
      exact hpassed ⟨k, by rw [firstDelay, if_pos hb, hl], by omega⟩

/-! ## Without a write-enable (45_device R237) -/

/-- The device `w` is idle with WEL = 0, and its array is that of `v`. -/
structure Unprimed (v w : Device) : Prop where
  array : w.array = v.array
  busy : w.busy = false
  wel : w.wel = false

theorem Unprimed.elapse (h : Unprimed v s.dev) (n : Nat) : Unprimed v (elapse c n s).dev := by
  rw [elapse_dev, elapseDev_idle _ _ h.busy]
  exact ⟨h.array, h.busy, h.wel⟩

theorem completeHeld_idle (h : v.busy = false) : completeHeld c v = v :=
  completeHeld_of_not fun hheld => by rw [h] at hheld; cases hheld.1

theorem Unprimed.csRise (h : Unprimed v s.dev) : Unprimed v (csRise c s).dev := by
  rw [csRise_dev, completeHeld_idle h.busy, ite_self]
  exact h

theorem Unprimed.exchanged {j : Nat} {bs : List Byte} (h : Unprimed v s.dev) (hx : Exchanged c a j bs s t) :
    Unprimed v t.dev := by
  rw [hx.dev]
  exact ⟨h.array, h.busy, h.wel⟩

/-- The device's turn starts no operation, and the chip-select gap completes none. -/
theorem Unprimed.turnAndGap (h : Unprimed v s.dev)
    (hturn : andThen (deviceTurn c s) (fun u => .next (gapAfter c u)) = .next t) : t.dev.array = v.array := by
  obtain ⟨u, hu, hgap⟩ := andThen_next hturn
  cases hgap
  obtain ⟨u, htaken, rfl⟩ := deviceTurn_taken hu
  have hidle : u.dev.busy = false := by
    obtain ⟨hsame, -⟩ | ⟨-, hwel, -⟩ := htaken.op
    · exact hsame.trans h.busy
    · rw [takeFrame_dev, h.wel] at hwel
      cases hwel
  rw [gapAfter_dev, releaseHeld_dev, completeHeld_idle hidle, elapseDev_idle _ _ hidle]
  exact htaken.array.trans h.array

theorem Unprimed.runFrame (h : Unprimed v s.dev) (hrun : runFrame c a s = .next t) : t.dev.array = v.array := by
  have hfall : Unprimed v (csFall s).dev := ⟨h.array, h.busy, h.wel⟩
  exact ((hfall.exchanged (exchangeAll_exchanged a a.bytes 0 (csFall s))).elapse _).csRise.turnAndGap hrun

/-- One action, whatever it is, leaves the array alone: a frame in it may set WEL, and starts no operation. -/
theorem Unprimed.runAction (h : Unprimed v s.dev) (hrun : runAction c a s = .next t) : t.dev.array = v.array := by
  cases a with
  | frame bs cap => exact h.runFrame hrun
  | wait n => cases hrun; exact (h.elapse n).array
  | csLow => cases hrun; exact h.array
  | csHigh => exact h.csRise.turnAndGap hrun
  | xfer x => cases hrun; exact ((h.exchanged (exchangeAll_exchanged _ _ _ _)).elapse _).array
  | check => exact h.runFrame (a := .check) hrun

theorem Unprimed.runActions {as : List Action} (h : Unprimed v s.dev) (hlen : as.length ≤ 1)
    (hrun : runActions c as s = .next t) : t.dev.array = v.array := by
  match as, hlen with
  | [], _ => cases hrun; exact h.array
  | [a], _ => exact h.runAction ((runActions_singleton a s).symm.trans hrun)

/-- A command that is not primed has at most one action, unless it is a program or erase command. -/
theorem commandSeq_unprimed {i : Instr} {w : Latches} (hw : w.prime = false) (csN : Bool)
    (hi : i ∉ [Instr.writeByte, .eraseChip, .eraseSector, .eraseBlock32, .eraseBlock64]) :
    (commandSeq c i w csN).length ≤ 1 := by
  cases i with
  | writeByte | eraseChip | eraseSector | eraseBlock32 | eraseBlock64 => exact absurd (by decide) hi
  | writeSr => exact highLevel_length csN (by simp [primeEwsr, hw])
  | readByte | readSr | ewsr | wren | wrdi | readId => exact highLevel_length csN (by simp)
  | csAssert => cases csN <;> simp [commandSeq, seqCsAssert]
  | csDeassert => cases csN <;> simp [commandSeq, seqCsDeassert]
  | xfer => simp [commandSeq, seqXfer]
  | _ => exact Nat.zero_le 1

theorem decodeCode_other : ∀ code : Code, ¬(0x2#4 ≤ code ∧ code ≤ 0x6#4) →
    decodeCode code ∉ [Instr.writeByte, .eraseChip, .eraseSector, .eraseBlock32, .eraseBlock64] := by decide

/-- Accept leaves an idle device as it is. -/
theorem Unprimed.accepted (h : Unprimed v s.dev) (seqOf : Latches → Bool → List Action) :
    Unprimed v (accepted c code seqOf s).dev :=
  h.elapse 2

/-- Without WEL the main frame of a program or erase command only disarms, or it is refused; no frame after it starts an
operation. -/
theorem ArrayCommand.array_of_unprimed {bs : List Byte} {i : Instr} (h : ArrayCommand c code (latch code s) bs i n)
    (hprime : s.regs.autoPrime = false) (hb : s.dev.busy = false) (hw : s.dev.wel = false)
    (ht : DeviceIs s.dev t) (hrun : runActions c (commandSeq c (decodeCode code) (latch code s) true) t = .next u) :
    u.dev.array = s.dev.array := by
  have hnone : primeWren (latch code s) = [] := by
    rw [primeWren, if_neg]
    simp [latch, hprime]
  have hidle : ∀ {m k}, DeviceIs ((elapseDev c true k s.dev).withArming false) m →
      DeviceIs (s.dev.withArming false) m := fun {m k} hm => by
    rw [← elapseDev_withArming] at hm
    exact hm.of_idle hb
  by_cases hloc : code = 0x3#4 ∨ ∃ y, locate c s.regs.addr = some y
  · obtain ⟨m, hm, hdev, -⟩ := runActions_toCheck n h.decodes ht (h.passive hloc hw)
    replace hdev := hidle hdev
    rw [h.runActions_eq, hnone, List.nil_append, hm, andThen_of_next, readBack] at hrun
    split at hrun
    case isTrue hcode =>
      obtain ⟨y, hy⟩ := hloc.resolve_left (by rw [hcode]; decide)
      obtain ⟨r, hr, hrdev, -⟩ := runRead (v := s.dev.withArming false) hdev fun _ => hy
      rw [runActions_singleton] at hrun
      obtain rfl : r = u := by simpa using hr.symm.trans hrun
      rw [elapseDev_idle _ _ (v := s.dev.withArming false) hb] at hrdev
      exact hrdev.same.array
    case isFalse =>
      cases hrun
      exact hdev.same.array
  · obtain ⟨hcode, hnowhere⟩ := not_or.mp hloc
    have habsent : locate c s.regs.addr = none := by
      rw [Option.eq_none_iff_forall_ne_some]
      exact fun y hy => hnowhere ⟨y, hy⟩
    have hrefused := h.refused_of_idle (m := t) hcode habsent (by rw [hnone]; rfl) (ht.same.busy.trans hb)
    cases hrefused.symm.trans hrun

theorem command_unprimed (hprime : s.regs.autoPrime = false) (hb : s.dev.busy = false) (hw : s.dev.wel = false)
    (hidle : s.sq.step = .idle) (h : exec (decodeCode code) s = .next t) : t.dev.array = s.dev.array := by
  rw [exec_actions code hidle rfl] at h
  obtain ⟨m, hm, hpub⟩ := andThen_next h
  cases hpub
  rw [publish_dev]
  have hstart : ∀ q, Unprimed s.dev (accepted Config.env code q s).dev := Unprimed.accepted ⟨rfl, hb, hw⟩
  by_cases hcode : 0x2#4 ≤ code ∧ code ≤ 0x6#4
  · obtain ⟨h2, h6⟩ := hcode
    cases hcs : s.bus.csN with
    | true =>
      obtain ⟨bs, i, n, harray⟩ := arrayCommand Config.env (latch code s) h2 h6
      rw [hcs] at hm
      exact harray.array_of_unprimed hprime hb hw (deviceIs_accepted_idle hcs hb _ _) hm
    | false =>
      have hnone : commandSeq Config.env (decodeCode code) (latch code s) s.bus.csN = [] := by
        rw [hcs]
        obtain rfl | rfl | rfl | rfl | rfl := programOrErase_cases h2 h6 <;> rfl
      exact (hstart _).runActions (by rw [hnone]; exact Nat.zero_le 1) hm
  · exact (hstart _).runActions (commandSeq_unprimed (w := latch code s) hprime _ (decodeCode_other code hcode)) hm

/-- Settles O41: a frame changes no array, a command of a busy FCS is an overrun, and one of an idle FCS starts no
operation. -/
theorem noInstructionChangesAnUnprimedArray : Obligations.NoInstructionChangesAnUnprimedArray := by
  intro s t i hprime hw hb h
  obtain ⟨code, rfl⟩ | ⟨o, xs, hl, rfl⟩ := instr_cases i
  · cases hbusy : s.busy with
    | true =>
      rw [exec_decodeCode, runCommand_busy _ _ hbusy] at h
      cases h
      rfl
    | false => exact command_unprimed hprime hb hw (by simpa [State.busy] using hbusy) h
  · rw [exec_of_frame (decodeFrame_code_cons hl)] at h
    exact (deviceAct_next h).array

end Sys2Proof.Machine

/-! # What a command publishes when it does not do its work (60_exceptions R252, R254, R255, R262)

A command without actions publishes at the next edge and does nothing: the reserved code, and a high-level command on a
selected chip. A program or erase command on a device that is busy up to its check has only passive frames, so that
the device is as it was, but for arming and the time that has passed. -/

namespace Sys2Proof.Machine

variable {c : Env} {s t m : State} {a : Action} {i : Instr} {v : Device} {code : Code} {w : Latches} {bs : List Byte}
  {n : Nat}

/-! ## The interrupt (R262) -/

/-- A command of an idle FCS that answers a next state has run its actions and published. -/
theorem exec_command_next (hidle : s.sq.step = .idle) (h : exec (decodeCode code) s = .next t) :
    ∃ m, runActions Config.env (commandSeq Config.env (decodeCode code) (latch code s) s.bus.csN)
      (accepted Config.env code (commandSeq Config.env (decodeCode code)) s) = .next m ∧ t = publish Config.env m := by
  rw [exec_actions code hidle rfl] at h
  obtain ⟨m, hm, hpub⟩ := andThen_next h
  cases hpub
  exact ⟨m, hm, rfl⟩

/-- Settles O55: a publish sets DONE, and of the other flags it changes RESULT alone. -/
theorem interruptFollowsCompletion : Obligations.InterruptFollowsCompletion := by
  refine ⟨fun _ => rfl, fun s t code hidle h => ?_, rfl⟩
  obtain ⟨m, hm, rfl⟩ := exec_command_next hidle h
  have hregs := (published_of_actions rfl hm rfl).regs
  exact ⟨by rw [State.irq, hregs, Bool.and_true], by rw [hregs], by rw [hregs]⟩

/-! ## The reserved code (R254) -/

/-- Settles O47: code 0x0 has no action. -/
theorem reservedCodePublishesUnknownCommand : Obligations.ReservedCodePublishesUnknownCommand := by
  intro s hidle
  obtain ⟨hexec, hpub⟩ := exec_published 0x0#4 hidle rfl rfl
  exact ⟨_, hexec, hpub, rfl, ⟨⟨rfl, rfl⟩, rfl⟩, rfl, rfl⟩

/-! ## High-level commands on a selected chip (R255) -/

/-- The high-level codes (30_encoding R100). -/
theorem highLevelCode_cases : ∀ code : Code, 0x1#4 ≤ code → code ≤ 0xC#4 →
    code = 0x1#4 ∨ code = 0x2#4 ∨ code = 0x3#4 ∨ code = 0x4#4 ∨ code = 0x5#4 ∨ code = 0x6#4 ∨ code = 0x7#4 ∨
      code = 0x8#4 ∨ code = 0x9#4 ∨ code = 0xA#4 ∨ code = 0xB#4 ∨ code = 0xC#4 := by decide

/-- On a selected chip a high-level command has no action, and publishes ILLEGAL_STATE. -/
theorem highLevel_selected (c : Env) (w : Latches) (h1 : 0x1#4 ≤ code) (hC : code ≤ 0xC#4) :
    commandSeq c (decodeCode code) w false = [] ∧ pubRule (decodeCode code) [] = .illegal := by
  rcases highLevelCode_cases code h1 hC with
    rfl | rfl | rfl | rfl | rfl | rfl | rfl | rfl | rfl | rfl | rfl | rfl
  all_goals exact ⟨rfl, rfl⟩

/-! ## What selects the chip (R255, 40_transport R137) -/

theorem turnAndGap_csN (hcs : s.bus.csN = true)
    (h : andThen (deviceTurn c s) (fun u => .next (gapAfter c u)) = .next t) : t.bus.csN = true := by
  obtain ⟨u, hu, hgap⟩ := andThen_next h
  cases hgap
  obtain ⟨u, htaken, rfl⟩ := deviceTurn_taken hu
  exact (congrArg Bus.csN htaken.bus).trans hcs

/-- A frame ends with the rising cs_n edge (40_transport R133). -/
theorem runFrame_csN (h : runFrame c a s = .next t) : t.bus.csN = true := turnAndGap_csN (csRise_csN _ c) h

/-- Every action but CsLowA leaves a deselected chip deselected. -/
theorem runAction_csN (ha : a ≠ .csLow) (hcs : s.bus.csN = true) (h : runAction c a s = .next t) :
    t.bus.csN = true := by
  cases a with
  | frame bs cap => exact runFrame_csN h
  | wait n => cases h; exact hcs
  | csLow => exact absurd rfl ha
  | csHigh => exact turnAndGap_csN (csRise_csN s c) h
  | xfer b => cases h; exact (exchangeAll_exchanged (.xfer b) [b] 0 s).csN.trans hcs
  | check => exact runFrame_csN (a := .check) h

theorem runActions_csN {as : List Action} (has : .csLow ∉ as) (hcs : s.bus.csN = true)
    (h : runActions c as s = .next t) : t.bus.csN = true := by
  induction as generalizing s with
  | nil => cases h; exact hcs
  | cons a as ih =>
    obtain ⟨ha, has⟩ := not_or.mp (List.mem_cons.not.mp has)
    obtain ⟨u, hu, hrest⟩ := andThen_next h
    exact ih has (runAction_csN (Ne.symm ha) hcs hu) hrest

theorem csLow_notMem_primed {w : Latches} {o : DevOp} {as : List Action} (h : .csLow ∉ as) :
    Action.csLow ∉ (if w.prime then [.frame (frameN o) none] else []) ++ as := by
  split <;> simpa using h

/-- CsLowA stands in the list of CS_ASSERT alone. -/
theorem csLow_notMem_commandSeq (hi : i ≠ .csAssert) (w : Latches) : .csLow ∉ commandSeq c i w true := by
  cases i with
  | csAssert => exact absurd rfl hi
  | writeByte | eraseChip | eraseSector | eraseBlock32 | eraseBlock64 =>
    exact csLow_notMem_primed (o := .wren) (by simp)
  | writeSr => exact csLow_notMem_primed (o := .ewsr) (by simp)
  | readByte | readSr | ewsr | wren | wrdi | readId | xfer => exact mt List.mem_singleton.mp nofun
  | _ => exact List.not_mem_nil

/-- Settles O46: on a selected chip the command has no action; on a deselected one CsLowA alone would select it. -/
theorem highLevelCommandsWhileSelectedAreIllegal : Obligations.HighLevelCommandsWhileSelectedAreIllegal := by
  refine ⟨fun s code hidle hcs h1 hC => ?_, fun s t i hcs hne h => ?_⟩
  · obtain ⟨hseq, hrule⟩ := highLevel_selected Config.env (latch code s) h1 hC
    obtain ⟨hexec, hpub⟩ := exec_published code hidle ((congrArg _ hcs).trans hseq) rfl
    rw [hrule] at hpub
    have hdev := accepted_dev (c := Config.env) hcs code (commandSeq Config.env (decodeCode code))
    rw [elapseDev_selected] at hdev
    obtain ⟨hkept, harmed⟩ := devKept_of_dev (s := s) (t := publish Config.env (accepted _ _ _ s)) hdev
    exact ⟨_, hexec, hpub, rfl, ⟨⟨rfl, rfl⟩, rfl⟩, rfl, rfl, hkept, harmed⟩
  · obtain ⟨code, rfl⟩ | ⟨o, xs, hl, rfl⟩ := instr_cases i
    · cases hbusy : s.busy with
      | true =>
        rw [exec_decodeCode, runCommand_busy _ _ hbusy] at h
        cases h
        exact hcs
      | false =>
        obtain ⟨m, hm, rfl⟩ := exec_command_next (by simpa [State.busy] using hbusy) h
        rw [hcs] at hm
        rw [publish_bus]
        have hstart : (accepted Config.env code (commandSeq Config.env (decodeCode code)) s).bus.csN = true := hcs
        exact runActions_csN (csLow_notMem_commandSeq hne _) hstart hm
    · rw [exec_of_frame (decodeFrame_code_cons hl)] at h
      exact (congrArg Bus.csN (deviceAct_next h).bus).trans hcs

/-! ## Program and erase commands on a busy device (R252, 45_device R232, R233) -/

/-- An operation that does not end within `n` edges leaves the device busy, with the same status byte. -/
theorem elapseDev_stillBusy (hb : v.busy = true) (h : ∀ k, v.left = some k → n < k) :
    (elapseDev c true n v).busy = true ∧ srByte c (elapseDev c true n v) = srByte c v := by
  rw [elapseDev_steady true n fun _ => h]
  exact ⟨hb, rfl⟩

/-- After `n` edges, a device that has the address, or that is still busy, can take a READ frame. -/
theorem located_or_stillBusy {ad : Addr} (hb : v.busy = true)
    (h : (∃ y, locate c ad = some y) ∨ ∀ k, v.left = some k → n < k) :
    ∃ y, (elapseDev c true n v).busy = false → locate c ad = some y := by
  obtain ⟨y, hy⟩ | hlate := h
  · exact ⟨y, fun _ => hy⟩
  · refine ⟨0, fun hnot => ?_⟩
    rw [(elapseDev_stillBusy (c := c) hb hlate).1] at hnot
    cases hnot

/-- A command whose device is busy up to the start of its check: PrimeWREN and the main frame are ignored, and the check
saves the status byte of the busy device. -/
theorem ArrayCommand.runToCheck_busy (h : ArrayCommand c code w bs i n) (hs : DeviceIs (elapseDev c true 2 v) s)
    (hb : v.busy = true) (hleft : ∀ k, v.left = some k → 2 + primeCycles c w + frameCycles c bs.length + n < k) :
    ∃ m, runActions c (primeWren w ++ [.frame bs none, .wait n, .check]) s = .next m ∧
      DeviceIs ((elapseDev c true
        (2 + primeCycles c w + frameCycles c bs.length + n + frameCycles c 2) v).withArming false) m ∧
      m.sq.chk = srByte c v := by
  have hbusy : ∀ j, j ≤ 2 + primeCycles c w + frameCycles c bs.length + n →
      (elapseDev c true j v).busy = true ∧ srByte c (elapseDev c true j v) = srByte c v :=
    fun j hj => elapseDev_stillBusy hb fun k hk => by have := hleft k hk; omega
  obtain ⟨m1, hrun1, -, h1⟩ := prime_busy (c := c) decode_wren w hs fun _ => (hbusy 2 (by omega)).1
  rw [elapseDev_add] at h1
  have hmain : Passive c i ((elapseDev c true (2 + primeCycles c w) v).withArming
      (!w.prime && (elapseDev c true 2 v).ewsrArmed)) := passive_of_busy h.decodes (hbusy _ (by omega)).1
  obtain ⟨m, hrun, hm, hchk⟩ := runActions_toCheck n h.decodes h1 hmain
  simp only [elapseDev_withArming, elapseDev_add, withArming_withArming, ← Nat.add_assoc] at hm hchk
  exact ⟨m, by rw [runActions_append, primeWren, hrun1, andThen_of_next, hrun], hm,
    hchk.trans (hbusy _ (Nat.le_refl _)).2⟩

/-- WRITE_BYTE goes on from its check with the READ frame (41_data R153). -/
theorem ArrayCommand.writeByte_actions (h : ArrayCommand c 0x2#4 w bs i n)
    (hrun : runActions c (primeWren w ++ [.frame bs none, .wait n, .check]) s = .next m)
    (hread : runAction c (.frame (frameAR .read w.addr) (some 4)) m = .next t) :
    runActions c (commandSeq c (decodeCode 0x2#4) w true) s = .next t := by
  rw [h.runActions_eq, hrun, andThen_of_next]
  exact (runActions_singleton _ _).trans hread

/-- The command has published DEVICE_BUSY, and the device is as at the CMD write but for arming and the time passed. -/
structure BusyPublished (code : Code) (d : Byte) (s t : State) : Prop where
  exec : exec (decodeCode code) s = .next t
  published : Published code .deviceBusy d s t
  device : DeviceIs ((elapseDev Config.env true (1 + latency Config.env code s) s.dev).withArming false) t
  status : 0x3#4 ≤ code → d = srByte Config.env s.dev

/-- WRITE_BYTE's read-back is ignored, or finds an idle device that has the address; an erase has none. -/
theorem programOrErase_busyPublished (hidle : s.sq.step = .idle) (hcs : s.bus.csN = true) (hb : s.dev.busy = true)
    (h2 : 0x2#4 ≤ code) (h6 : code ≤ 0x6#4)
    (hcheck : ∀ k, s.dev.left = some k → 1 + latency Config.env code s <
      k + (frameCycles Config.env 2 + if code = 0x2#4 then frameCycles Config.env 5 else 0))
    (hread : code ≠ 0x2#4 ∨ (∃ y, locate Config.env s.regs.addr = some y) ∨
      ∀ k, s.dev.left = some k → 1 + latency Config.env code s < k + frameCycles Config.env 5) :
    ∃ t d, BusyPublished code d s t := by
  obtain ⟨bs, i, n, harray⟩ := arrayCommand Config.env (latch code s) h2 h6
  have hlatency := harray.latency_eq hcs
  obtain ⟨m, hrun, hm, hchk⟩ := harray.runToCheck_busy
    (deviceIs_accepted hcs code (commandSeq Config.env (decodeCode code))) hb
    fun k hk => by have := hcheck k hk; omega
  by_cases hcode : code = 0x2#4
  · subst hcode
    rw [if_pos rfl] at hlatency
    obtain ⟨y, hy⟩ := located_or_stillBusy (c := Config.env) (n := 2 + primeCycles Config.env (latch 0x2#4 s) +
        frameCycles Config.env bs.length + n + frameCycles Config.env 2) hb
      ((hread.resolve_left (not_not_intro rfl)).imp_right fun hlate k hk => by have := hlate k hk; omega)
    obtain ⟨t, hrunRead, ht, htchk, -⟩ := runRead (ad := s.regs.addr) hm hy
    obtain ⟨hexec, hpub⟩ := writeByte_published hidle hcs (harray.writeByte_actions hrun hrunRead) (htchk.trans hchk)
    rw [if_pos hb] at hpub
    rw [elapseDev_withArming, elapseDev_add, withArming_withArming, ← hlatency] at ht
    exact ⟨_, _, hexec, hpub, ht.publish, fun h => absurd h (by decide)⟩
  · rw [if_neg hcode, Nat.add_zero] at hlatency
    obtain ⟨hexec, hpub⟩ := exec_published code hidle (by rw [hcs]) (harray.erase_actions hcode hrun)
    obtain ⟨hresult, hrdata⟩ := publish_erase_of_check hchk
    rw [harray.pubRule_eq, if_neg hcode, hresult, hrdata, if_pos hb] at hpub
    rw [← hlatency] at hm
    exact ⟨_, _, hexec, hpub, hm.publish, fun _ => rfl⟩

/-- Settles O37: the time of the command leaves the operation in progress, or completes it. -/
theorem commandsOnABusyDevicePublishDeviceBusy : Obligations.CommandsOnABusyDevicePublishDeviceBusy := by
  intro s code hidle hcs hb h2 h6 tail hcheck hread
  obtain ⟨t, d, hexec, hpub, hdev, hstatus⟩ := programOrErase_busyPublished hidle hcs hb h2 h6 hcheck hread
  refine ⟨t, d, hexec, hpub, hdev.same.srOther.trans (elapseDev_srOther _ _), hdev.same.ewsrArmed, hdev.csN, hstatus,
    fun hsteady => ?_, ?_⟩
  · rw [elapseDev_steady true _ hsteady] at hdev
    exact hdev.devKept
  · obtain ⟨l, hgoing⟩ | hended := elapseDev_cases (c := Config.env) (1 + latency Config.env code s) s.dev
    · rw [hgoing] at hdev
      exact .inl hdev.devKept
    · rw [hended] at hdev
      exact .inr ⟨hdev.same.busy, hdev.same.wel, hdev.same.pending, hdev.same.array⟩

end Sys2Proof.Machine

/-! # Reset, loss of power, latencies and the end of a run (70_reset R280, R282, R284, R296, R300)

A cycle with reset or a loss of power fetches no command, so that its step is one clk edge, and that edge has a closed
form. The end of a run is checked against every cycle without an access. The latencies are the cycles of the commands'
lists, counted frame by frame. -/

namespace Sys2Proof.Machine

variable {c : Env} {s t : State} {acc : Access} {cy : Cycle} {p : List Cycle} {code : Code}
  {bs : List Byte} {n : Nat}

/-! ## The step of a cycle with reset, or with a loss of power -/

/-- A command is fetched only with reset released and power on (10_state R38). -/
theorem fetchCode_disturbed (hport : s.port = cy :: p) (h : (cy.rstN && !cy.power) = false) : fetchCode s = none := by
  simp [fetchCode, hport, h]

/-- What an edge with rst_n = 0 leaves of `s`, where it refuses no frame (70_reset R280). -/
def resetEdge (c : Env) (acc : Access) (s : State) : State :=
  fcsReset (csRise c { atEdge c s with hRdata := readData acc (atEdge c s) })

theorem step_reset (hn : turnDue s = false) (hport : s.port = { acc := acc, rstN := false, power := false } :: p) :
    step s = if inFirstByte s then .refused .wrongLength else .next (resetEdge Config.env acc s) := by
  rw [step_edge hn (fetchCode_disturbed hport rfl), clockEdge, hport]
  simp only [resetEdge, atEdge, hport]
  rfl

theorem step_powerLoss {r : Bool} (hn : turnDue s = false)
    (hport : s.port = { acc := acc, rstN := r, power := true } :: p) :
    step s = .next (powerCycle Config.env { s with port := p }) := by
  rw [step_edge hn (fetchCode_disturbed hport (Bool.and_false r)), clockEdge, hport]
  rfl

/-! ## An edge with reset (70_reset R280) -/

theorem noTurn_of_selected (hcs : s.bus.csN = false) : turnDue s = false := by simp [turnDue, hcs]

theorem rx_of_deselected (hn : turnDue s = false) (hcs : s.bus.csN = true) : s.dev.rx = [] := by
  simpa [turnDue, hcs] using hn

theorem resetEdge_rx : (resetEdge c acc s).dev.rx = s.dev.rx := csRise_rx

theorem resetEdge_hRdata : (resetEdge c acc s).hRdata = readData acc s := by cases acc <;> rfl

/-- The device is as after one cycle; only an open frame of no complete byte ends at this edge for the device (45_device
R232). With cs_n = 1 the cycle has left no operation that is held up. -/
theorem resetEdge_dev (hn : turnDue s = false) :
    (resetEdge c acc s).dev = if s.bus.csN = false ∧ s.dev.rx = [] then completeHeld c (elapseDev c false 1 s.dev)
      else elapseDev c s.bus.csN 1 s.dev := by
  have hdev : (resetEdge c acc s).dev = if s.dev.rx.isEmpty then completeHeld c (elapseDev c s.bus.csN 1 s.dev)
      else elapseDev c s.bus.csN 1 s.dev := rfl
  rw [hdev]
  cases hcs : s.bus.csN with
  | false => simp only [List.isEmpty_iff, true_and]
  | true => simp [rx_of_deselected hn hcs, completeHeld_elapseDev]

/-- Settles O15: the edge of a reset is `resetEdge`, where no frame is refused. -/
theorem resetWinsAtItsEdge : Obligations.ResetWinsAtItsEdge := by
  intro s acc p hn hfirst hport
  have hstep := step_reset hn hport
  rw [hfirst, if_neg Bool.false_ne_true] at hstep
  refine ⟨_, hstep, rfl, rfl, rfl, resetEdge_dev hn, rfl, congrArg List.tail hport, ?_, fun h => ?_⟩
  · rintro a rfl
    exact resetEdge_hRdata
  · rw [resetEdge_hRdata, readData_of_not_read h]

/-- Settles O16: bytes received stand in `dev.rx` after the edge, as an ended frame, which the next step refuses. -/
theorem frameCutShortByResetIsRefused : Obligations.FrameCutShortByResetIsRefused := by
  refine ⟨fun s op xs o acc p hcs hrx ho hl hport => ?_, fun s k a acc p hcs hrx hrun hk ha hport => ?_⟩
  · have hfirst : inFirstByte s = false := by simp [inFirstByte, hrx]
    rw [step_reset (noTurn_of_selected hcs) hport, hfirst, if_neg Bool.false_ne_true, andThen_of_next]
    obtain ⟨-, hrefused⟩ :=
      undefinedFramesAreRefused (resetEdge Config.env acc s) op xs rfl (resetEdge_rx.trans hrx)
    exact hrefused o ho hl
  · have hframed : a.framed = true := by obtain rfl | ⟨bs, cap, rfl⟩ := ha <;> rfl
    have hfirst : inFirstByte s = true := by simp [inFirstByte, hcs, hrx, hrun, hk, hframed]
    rw [step_reset (noTurn_of_selected hcs) hport, hfirst, if_pos rfl]

/-! ## A loss of power (70_reset R284, 60_exceptions R269) -/

/-- An address outside the region of the pending operation keeps its byte. -/
theorem read_lostArray_outside {m : List Host.Cell} {op : Option Pending} {a : Nat} (hwf : Memory.wf c.d.array m)
    (hprogram : ∀ d, op ≠ some (.program a d)) (herase : ∀ lo hi, op = some (.erase lo hi) → a < lo ∨ hi ≤ a)
    (k : Nat) :
    Memory.read c.d.array (lostArray c k m op) a = Memory.read c.d.array m a := by
  match op with
  | none => rfl
  | some (.program b d) =>
    have hne : a ≠ b := fun hab => hprogram d (by rw [hab])
    exact (Memory.read_write hwf b a _).trans (if_neg hne)
  | some (.erase lo hi) =>
    have hout := herase lo hi rfl
    exact (Memory.read_fill hwf lo hi a).trans (if_neg (by omega))

/-- Settles O17: all but the array is at its reset or power-up value, and the array is that of `lostArray`. -/
theorem powerLossKeepsTheArrayOutsideThePendingRegion : Obligations.PowerLossKeepsTheArrayOutsideThePendingRegion := by
  intro s acc r p hn hwf hport
  exact ⟨_, step_powerLoss hn hport, rfl, rfl, rfl, rfl, rfl, rfl, rfl, rfl, rfl, rfl, rfl,
    fun a hprogram herase => read_lostArray_outside hwf hprogram herase _⟩

/-! ## The end of a run (70_reset R300) -/

/-- A cycle without an access is idle, as every cycle past the end of the port is, a reset, or a loss of power. -/
theorem RunOver.step_cases (h : RunOver s) :
    step s = .next (idleEdge s.port.tail s) ∨ step s = .next (resetEdge Config.env .none s) ∨
      step s = .next (powerCycle Config.env { s with port := s.port.tail }) := by
  have hbusy : s.busy = false := by simp [State.busy, h.idle]
  have hfirst : inFirstByte s = false := by simp [inFirstByte, h.csN]
  cases hport : s.port with
  | nil =>
    have hfetch : fetchCode s = none := by simp [fetchCode, hport]
    rw [step_edge h.noTurn hfetch, clockEdge, hport, hbusy]
    exact .inl rfl
  | cons cy p =>
    obtain ⟨acc, rstN, power⟩ := cy
    obtain rfl : acc = .none := h.port _ (by rw [hport]; exact List.mem_cons_self)
    match power, rstN with
    | true, _ => exact .inr (.inr (step_powerLoss h.noTurn hport))
    | false, false =>
      have hstep := step_reset h.noTurn hport
      rw [hfirst, if_neg Bool.false_ne_true] at hstep
      exact .inr (.inl hstep)
    | false, true =>
      have hstep := step_idleCycle h.noTurn p
      rw [hbusy, if_neg Bool.false_ne_true] at hstep
      refine .inl (Eq.trans (congrArg step ?_) hstep)
      rw [Cycle.idle, ← hport]

/-- The FCS idle, the chip deselected and the device at rest: the run is over where it was over a cycle before. -/
theorem RunOver.next (h : RunOver s) (hport : t.port = s.port.tail) (hidle : t.sq.step = .idle)
    (hcs : t.bus.csN = true) (hrx : t.dev.rx = []) (hbusy : t.dev.busy = false) (hpending : t.dev.pending = none) :
    RunOver t where
  port cy hcy := h.port cy (List.mem_of_mem_tail (hport ▸ hcy))
  idle := hidle
  csN := hcs
  noTurn := by simp [turnDue, hrx]
  busy := hbusy
  pending := hpending

/-- Time leaves an idle device as it was, but for its countdown. -/
theorem RunOver.elapsed (h : RunOver s) (hdev : t.dev = elapseDev c s.bus.csN 1 s.dev) (hport : t.port = s.port.tail)
    (hidle : t.sq.step = .idle) (hcs : t.bus.csN = true) : RunOver t ∧ t.dev.array = s.dev.array := by
  rw [elapseDev_idle _ _ h.busy] at hdev
  refine ⟨h.next hport hidle hcs ?_ ?_ ?_, by rw [hdev]⟩ <;> rw [hdev]
  exacts [rx_of_deselected h.noTurn h.csN, h.busy, h.pending]

/-- Settles O58: an idle cycle and a reset only let time pass for the device, and a loss of power finds no operation
pending. -/
theorem runsThatAreOverStayOver : Obligations.RunsThatAreOverStayOver := by
  intro s h
  obtain hstep | hstep | hstep := h.step_cases
  · obtain ⟨hover, harray⟩ := h.elapsed (t := idleEdge s.port.tail s) rfl rfl h.idle h.csN
    exact ⟨_, hstep, hover, harray, rfl⟩
  · have hdev := resetEdge_dev (c := Config.env) (acc := .none) h.noTurn
    rw [if_neg (by simp [h.csN])] at hdev
    obtain ⟨hover, harray⟩ := h.elapsed hdev rfl rfl rfl
    exact ⟨_, hstep, hover, harray, rfl⟩
  · have harray : lostArray Config.env s.free.power s.dev.array s.dev.pending = s.dev.array := by
      rw [h.pending, lostArray]
    exact ⟨_, hstep, h.next rfl rfl rfl rfl rfl rfl, harray, rfl⟩

/-! ## Latencies (70_reset R296, 40_transport R134) -/

/-- A wait is `T * F_CLK` cycles, rounded up (00_scope R8). -/
theorem waitCycles_le_iff (c : Env) (d : Duration) (n : Nat) :
    waitCycles c d ≤ n ↔ d.num * c.p.fClk ≤ n * (d.denPred + 1) := by
  rw [waitCycles, Nat.div_le_iff_le_mul_add_pred d.denPred.succ_pos, Nat.mul_comm n]
  exact Nat.add_le_add_iff_right

/-- A command of one frame. -/
theorem latency_frame {cap : Option Nat} (hcs : s.bus.csN = true)
    (hseq : commandSeq c (decodeCode code) (latch code s) true = [.frame bs cap]) (hlen : bs.length = n) :
    latency c code s = 1 + frameCycles c n := by
  subst hlen
  have hedges := latency_oneFrame (c := c) (s := s) (by rw [hcs]; exact hseq)
  omega

theorem latency_erase {k : Nat} (hcs : s.bus.csN = true)
    (hseq : commandSeq c (decodeCode code) (latch code s) true = seqErase bs k (latch code s) true)
    (hlen : bs.length = n) :
    latency c code s = 1 + primeCycles c (latch code s) + frameCycles c n + k + frameCycles c 2 := by
  subst hlen
  have htail : seqCycles c [.frame bs none, .wait k, .check] = frameCycles c bs.length + (k + frameCycles c 2) := rfl
  rw [latency, hcs, hseq, seqErase, highLevel, if_pos rfl, seqCycles_append, primeWren, seqCycles_prime, htail]
  omega

theorem latency_writeByte (hcs : s.bus.csN = true) :
    latency c 0x2#4 s =
      1 + primeCycles c (latch 0x2#4 s) + frameCycles c 5 + waitBP c + frameCycles c 2 + frameCycles c 5 := by
  have hedges := (arrayCommand_writeByte c (latch 0x2#4 s)).latency_eq hcs
  have hlen : (frameAW .program (latch 0x2#4 s).addr (latch 0x2#4 s).data).length = 5 := rfl
  rw [hlen, if_pos rfl] at hedges
  omega

/-- CS_ASSERT's list has no action, or one that takes no time (40_transport R137). -/
theorem latency_csAssert : latency c 0xD#4 s = 1 := by
  have hseq : commandSeq c (decodeCode 0xD#4) (latch 0xD#4 s) s.bus.csN = if s.bus.csN then [.csLow] else [] := rfl
  rw [latency, hseq]
  split <;> rfl

/-- A command without actions publishes at the edge after accept. -/
theorem latency_of_noAction (h : commandSeq c (decodeCode code) (latch code s) s.bus.csN = []) :
    latency c code s = 1 := by
  rw [latency, h]
  rfl

/-- Settles O54: a command publishes its latency after accept, and its list gives the latency frame by frame. -/
theorem commandsTakeTheirLatency : Obligations.CommandsTakeTheirLatency := by
  refine ⟨fun s t code hidle h => ?_, fun s => ⟨latency_of_noAction rfl, latency_csAssert, ?_, ?_, ?_⟩⟩
  · obtain ⟨m, hm, rfl⟩ := exec_command_next hidle h
    exact (published_of_actions rfl hm rfl).now
  · exact latency_of_seq (c := Config.env) (code := 0xF#4) rfl
  · intro f hf
    simp only [List.mem_cons, List.not_mem_nil, or_false] at hf
    obtain rfl | rfl | rfl | rfl | rfl := hf <;> exact waitCycles_le_iff _ _
  · cases hcs : s.bus.csN with
    | true =>
      rw [if_pos rfl]
      have hwriteSr : latency Config.env 0x8#4 s =
          1 + primeCycles Config.env (latch 0x8#4 s) + frameCycles Config.env 2 := by
        have hedges := latency_writeSr (c := Config.env) hcs
        omega
      exact ⟨latency_frame hcs rfl rfl, latency_writeByte hcs, latency_erase hcs rfl rfl, latency_erase hcs rfl rfl,
        latency_erase hcs rfl rfl, latency_erase hcs rfl rfl, latency_frame hcs rfl rfl, hwriteSr,
        latency_frame hcs rfl rfl, latency_frame hcs rfl rfl, latency_frame hcs rfl rfl, latency_frame hcs rfl rfl,
        latency_of_noAction (by rw [hcs]; rfl)⟩
    | false =>
      rw [if_neg Bool.false_ne_true]
      refine ⟨latency_of_seq (as := [.csHigh]) (by rw [hcs]; rfl), fun code h1 hC => latency_of_noAction ?_⟩
      obtain ⟨hseq, -⟩ := highLevel_selected Config.env (latch code s) h1 hC
      rw [hcs]
      exact hseq

end Sys2Proof.Machine
